-- ==== Sys2Proof/Word.lean ====
section
/-! DEFINITION. The word types of PCA-DEMUX: the 32-bit operation word, the byte register and the 16-bit count, the channel
number, and one value per channel. -/
namespace Sys2Proof

/-- An operation word: one length, 32 bits (R55). -/
abbrev Word := BitVec 32

/-- A byte register of the register space (R41). -/
abbrev Byte := BitVec 8

/-- A count of the shared counter, a compare value, a period or a reported duration (R7). -/
abbrev Half := BitVec 16

/-- A channel number as the 2-bit field `ch` names it (R56); which of the four exist is `Config.hasChannel`. -/
abbrev ChanId := Fin 4

/-- One value for each channel number. A channel number at or above `NCH` has a slot here and no hardware behind it. -/
structure PerChannel (α : Type) where
  c0 : α
  c1 : α
  c2 : α
  c3 : α
deriving DecidableEq, Repr

namespace PerChannel

/-- The value of channel `n`. -/
def get {α : Type} (v : PerChannel α) (n : ChanId) : α :=
  match n with
  | 0 => v.c0
  | 1 => v.c1
  | 2 => v.c2
  | 3 => v.c3

/-- `v` with channel `n`'s value replaced. -/
def set {α : Type} (v : PerChannel α) (n : ChanId) (a : α) : PerChannel α :=
  match n with
  | 0 => { v with c0 := a }
  | 1 => { v with c1 := a }
  | 2 => { v with c2 := a }
  | 3 => { v with c3 := a }

/-- The value `f n` at every channel number. -/
def tabulate {α : Type} (f : ChanId → α) : PerChannel α :=
  { c0 := f 0, c1 := f 1, c2 := f 2, c3 := f 3 }

end PerChannel

end Sys2Proof
end

