-- ==== Sys2Proof/Config.lean ====
section
/-! DEFINITION. The implementation parameters of R6, as one record that a state carries and no operation writes: every
statement over all states is a statement over all parameter values. -/
namespace Sys2Proof

/-- `NCH`: one of 2, 3, 4 (R6; 90_conflicts.md C5). -/
inductive ChannelCount where
  | two
  | three
  | four
deriving DecidableEq, Repr

/-- The number a channel count stands for. -/
def ChannelCount.toNat : ChannelCount → Nat
  | .two => 2
  | .three => 3
  | .four => 4

/-- A PWM resolution: the bit widths 6, 7, 8 and 10 (R6, R78). -/
inductive PwmWidth where
  | w6
  | w7
  | w8
  | w10
deriving DecidableEq, Repr

/-- `W`: the number of bits of a resolution (R78). -/
def PwmWidth.bits : PwmWidth → Nat
  | .w6 => 6
  | .w7 => 7
  | .w8 => 8
  | .w10 => 10

/-- `PWM_WIDTHS`: a subset of {6, 7, 8, 10} that contains 8, so only the other three are optional (R6). -/
structure WidthSet where
  six : Bool
  seven : Bool
  ten : Bool
deriving DecidableEq, Repr

/-- Membership in `PWM_WIDTHS`. -/
def WidthSet.has (ws : WidthSet) : PwmWidth → Bool
  | .w6 => ws.six
  | .w7 => ws.seven
  | .w8 => true
  | .w10 => ws.ten

/-- `ROUTE_CODES`: a subset of {0, 1, 2, 3} (R6). -/
structure RouteSet where
  r0 : Bool
  r1 : Bool
  r2 : Bool
  r3 : Bool
deriving DecidableEq, Repr

/-- Membership in `ROUTE_CODES`. -/
def RouteSet.has (rs : RouteSet) (route : BitVec 2) : Bool :=
  match route.toNat with
  | 0 => rs.r0
  | 1 => rs.r1
  | 2 => rs.r2
  | _ => rs.r3

/-- The parameters of the block (R6). -/
structure Config where
  /-- `NCH`. -/
  nch : ChannelCount
  /-- `PWM_WIDTHS`. -/
  pwmWidths : WidthSet
  /-- `F_CPU` in Hz. -/
  fCpu : Nat
  /-- `ROUTE_CODES`. -/
  routeCodes : RouteSet
  /-- `PIN_RESET[n]`; OPEN in the spec (R6, R38). -/
  pinReset : PerChannel Bool
deriving DecidableEq, Repr

/-- The ranges R6 gives that the types do not: `F_CPU` is 1 to 2^32-1 and `ROUTE_CODES` is not empty (DEDUCED, log
entry 11). -/
def Config.wf (c : Config) : Bool :=
  decide (1 ≤ c.fCpu) && decide (c.fCpu < 2 ^ 32)
    && (c.routeCodes.r0 || c.routeCodes.r1 || c.routeCodes.r2 || c.routeCodes.r3)

/-- Channel `n` exists: `n < NCH` (R6). -/
def Config.hasChannel (c : Config) (n : ChanId) : Bool :=
  decide (n.val < c.nch.toNat)

/-- The existing channels in ascending order, the order of the scan of SERVICE (R120). -/
def Config.channels (c : Config) : List ChanId :=
  match c.nch with
  | .two => [0, 1]
  | .three => [0, 1, 2]
  | .four => [0, 1, 2, 3]

/-- DESIGN CHOICE (log entry 1): the parameters of `State.reset`, the default parameters of 95_test_vectors.md. -/
def Config.default : Config :=
  { nch := .four
    pwmWidths := { six := true, seven := true, ten := true }
    fCpu := 24000000
    routeCodes := { r0 := true, r1 := true, r2 := true, r3 := true }
    pinReset := { c0 := false, c1 := false, c2 := false, c3 := false } }

end Sys2Proof
end

