-- ==== Sys2Proof/Syntax.lean ====
section
/-! DEFINITION. The operations of PCA-DEMUX as syntax: one constructor per row of spec/opcode_table.json. -/
namespace Sys2Proof

/-- `CMODE`: 0 = free-running, 1 = externally gated (R17, R59). -/
inductive CounterMode where
  | freeRunning
  | gated
deriving DecidableEq, Repr

/-- The four-way edge selection of `edge` and `trig` (R77). -/
inductive EdgeSel where
  | none
  | falling
  | rising
  | both
deriving DecidableEq, Repr

/-- Bit 1 of the edge code: the rising edge is selected (R77). -/
def EdgeSel.selectsRising : EdgeSel → Bool
  | .rising | .both => true
  | .none | .falling => false

/-- Bit 0 of the edge code: the falling edge is selected (R77). -/
def EdgeSel.selectsFalling : EdgeSel → Bool
  | .falling | .both => true
  | .none | .rising => false

/-- `captureMode`: Continuous or OneShot (R24). -/
inductive CaptureMode where
  | continuous
  | oneShot
deriving DecidableEq, Repr

/-- `pulse`, D0's `pulseOutput`: the silent timer submode or the pin-toggling pulse submode (R64, R96). -/
inductive TimerOutput where
  | timer
  | pulse
deriving DecidableEq, Repr

/-- `pol` of EDGE: 1 = rising, 0 = falling (R66). -/
inductive Polarity where
  | falling
  | rising
deriving DecidableEq, Repr

/-- An operation (R55 to R68), operands in the order of R79. -/
inductive Instr where
  /-- `INIT clk, cmode, ovfie, route` (R59, R80). -/
  | init (clk : BitVec 3) (cmode : CounterMode) (ovfie : Bool) (route : BitVec 2)
  /-- `STARTT0 freq` (R60, R82). -/
  | startt0 (freq : BitVec 28)
  /-- `STARTCAP ch, edge, cmode, shift` (R61, R91). -/
  | startcap (ch : ChanId) (edge : EdgeSel) (mode : CaptureMode) (shift : BitVec 5)
  /-- `STARTPWM ch, bits, trig, high` (R62, R94). -/
  | startpwm (ch : ChanId) (width : PwmWidth) (trig : EdgeSel) (high : BitVec 11)
  /-- `SETDUTY ch, high` (R63, R95). -/
  | setduty (ch : ChanId) (high : BitVec 11)
  /-- `STARTTMR ch, period, out` (R64, R96). -/
  | starttmr (ch : ChanId) (period : Half) (out : TimerOutput)
  /-- `TICK count` (R65, R110). -/
  | tick (count : Half)
  /-- `EDGE ch, pol` (R66, R114). -/
  | edge (ch : ChanId) (pol : Polarity)
  /-- `SERVICE` (R67, R118). -/
  | service
  /-- `RD idx` (R68, R43). -/
  | rd (idx : Byte)
deriving DecidableEq, Repr

/-- The three agents of R8. -/
inductive Agent where
  | host
  | env
  | demux
deriving DecidableEq, Repr

/-- Which agent issues an operation (R57, R58). -/
def Instr.agent : Instr → Agent
  | .init _ _ _ _ | .startt0 _ | .startcap _ _ _ _ | .startpwm _ _ _ _ | .setduty _ _ | .starttmr _ _ _ | .rd _ => .host
  | .tick _ | .edge _ _ => .env
  | .service => .demux

/-- A command is one of the six operations of the command port (R12, R57). -/
def Instr.isCommand : Instr → Bool
  | .init _ _ _ _ | .startt0 _ | .startcap _ _ _ _ | .startpwm _ _ _ _ | .setduty _ _ | .starttmr _ _ _ => true
  | .tick _ | .edge _ _ | .service | .rd _ => false

end Sys2Proof
end

