-- ==== Sys2Proof/WellFormed.lean ====
section
/-! DEFINITION. The operand conditions of R59 to R66 that the parameters alone decide (R70 (c)); what also depends on the
state (SETDUTY's mode and width, INIT first, SERVICE's request) is checked by the meanings. -/
namespace Sys2Proof

/-- `shift` is legal from 0 to 23 (R25, R61). -/
def shiftLegal (shift : BitVec 5) : Bool :=
  decide (shift.toNat ≤ 23)

/-- `high <= 2^W` (R62, R63, R93). -/
def highLegal (width : PwmWidth) (high : BitVec 11) : Bool :=
  decide (high.toNat ≤ 2 ^ width.bits)

/-- An operation keeps the operand conditions of the block with parameters `c` (R59 to R68, R70 (c)). -/
def Instr.wf (c : Config) : Instr → Bool
  | .init _ _ _ route => c.routeCodes.has route
  | .startt0 freq => decide (freq ≠ 0#28)
  | .startcap ch _ _ shift => c.hasChannel ch && shiftLegal shift
  | .startpwm ch width _ high => c.hasChannel ch && c.pwmWidths.has width && highLegal width high
  | .setduty ch _ => c.hasChannel ch
  | .starttmr ch _ _ => c.hasChannel ch
  | .tick _ => true
  | .edge ch _ => c.hasChannel ch
  | .service => true
  | .rd _ => true

end Sys2Proof
end

