-- ==== Sys2Proof/Decode.lean ====
section
/-! DEFINITION. The operation words: the total decoder, the encoder, the opcode table as rows, and the host's entry point.
Both directions are written from the word layouts of R56 and R59 to R68. -/
namespace Sys2Proof

/-- Why a word is no operation whatever the state and the parameters are (R70). -/
inductive DecodeError where
  /-- R70 (a): `op` is 0x0, 0x7 or 0xC to 0xF (U1). -/
  | reservedOp
  /-- R70 (b): a bit that R56 requires to be zero is one (U2). -/
  | mustBeZero
deriving DecidableEq, Repr

/-- The field of `len` bits from bit `lo` up, as an unsigned number taken as it stands (R69). -/
def fieldAt (w : Word) (lo len : Nat) : BitVec len :=
  w.extractLsb' lo len

/-- Bits 31:28, the field `op` (R55). -/
def opField (w : Word) : BitVec 4 :=
  fieldAt w 28 4

/-! ### The codes of the enumerated fields -/

/-- `cmode`: 0 = free-running, 1 = externally gated (R59). -/
def CounterMode.ofBit : Bool → CounterMode
  | false => .freeRunning
  | true => .gated

/-- The `cmode` bit (R59). -/
def CounterMode.bit : CounterMode → Bool
  | .freeRunning => false
  | .gated => true

/-- The 2-bit edge code: bit 1 rising, bit 0 falling (R77). -/
def EdgeSel.code : EdgeSel → BitVec 2
  | .none => 0b00#2
  | .falling => 0b01#2
  | .rising => 0b10#2
  | .both => 0b11#2

/-- The selection an edge code stands for (R77). -/
def EdgeSel.ofCode (c : BitVec 2) : EdgeSel :=
  match c.toNat with
  | 0 => .none
  | 1 => .falling
  | 2 => .rising
  | _ => .both

/-- `oneshot`: 1 = OneShot, 0 = Continuous (R61). -/
def CaptureMode.ofBit : Bool → CaptureMode
  | false => .continuous
  | true => .oneShot

/-- The `oneshot` bit, also bit 3 of `CHMODE` (R61, R75). -/
def CaptureMode.bit : CaptureMode → Bool
  | .continuous => false
  | .oneShot => true

/-- The 2-bit width code of `wsel` and `EBS`: 00 = 8, 01 = 7, 10 = 6, 11 = 10 (R78). -/
def PwmWidth.code : PwmWidth → BitVec 2
  | .w8 => 0b00#2
  | .w7 => 0b01#2
  | .w6 => 0b10#2
  | .w10 => 0b11#2

/-- The width a code stands for (R78). -/
def PwmWidth.ofCode (c : BitVec 2) : PwmWidth :=
  match c.toNat with
  | 0 => .w8
  | 1 => .w7
  | 2 => .w6
  | _ => .w10

/-- `pulse` (R64). -/
def TimerOutput.ofBit : Bool → TimerOutput
  | false => .timer
  | true => .pulse

/-- The `pulse` bit (R64). -/
def TimerOutput.bit : TimerOutput → Bool
  | .timer => false
  | .pulse => true

/-- `pol`: 1 = rising, 0 = falling (R66). -/
def Polarity.ofBit : Bool → Polarity
  | false => .falling
  | true => .rising

/-- The `pol` bit (R66). -/
def Polarity.bit : Polarity → Bool
  | .falling => false
  | .rising => true

/-- The field `ch`, bits 27:26 (R56). -/
def chField (w : Word) : ChanId :=
  (fieldAt w 26 2).toFin

/-- The 2-bit code of a channel number (R56). -/
def chCode (n : ChanId) : BitVec 2 :=
  BitVec.ofFin n

/-! ### Decoding -/

/-- `i`, unless a bit of `w` under `zeros` is one (R56, R70 (b)). -/
def withZeros (w zeros : Word) (i : Instr) : Except DecodeError Instr :=
  if w &&& zeros = 0#32 then .ok i else .error .mustBeZero

/-- The operation a word stands for, or the reason it is reserved: total on all 2^32 words (R55 to R68, R70 (a), (b)). -/
def decode (w : Word) : Except DecodeError Instr :=
  match (opField w).toNat with
  | 0x1 => withZeros w 0x0FFFFF80#32
      (.init (fieldAt w 0 3) (CounterMode.ofBit (w.getLsbD 3)) (w.getLsbD 4) (fieldAt w 5 2))
  | 0x2 => withZeros w 0x00000000#32 (.startt0 (fieldAt w 0 28))
  | 0x3 => withZeros w 0x03FFFF00#32
      (.startcap (chField w) (EdgeSel.ofCode (fieldAt w 0 2)) (CaptureMode.ofBit (w.getLsbD 2)) (fieldAt w 3 5))
  | 0x4 => withZeros w 0x003FF800#32
      (.startpwm (chField w) (PwmWidth.ofCode (fieldAt w 24 2)) (EdgeSel.ofCode (fieldAt w 22 2)) (fieldAt w 0 11))
  | 0x5 => withZeros w 0x03FFF800#32 (.setduty (chField w) (fieldAt w 0 11))
  | 0x6 => withZeros w 0x03FE0000#32 (.starttmr (chField w) (fieldAt w 0 16) (TimerOutput.ofBit (w.getLsbD 16)))
  | 0x8 => withZeros w 0x0FFF0000#32 (.tick (fieldAt w 0 16))
  | 0x9 => withZeros w 0x03FFFFFE#32 (.edge (chField w) (Polarity.ofBit (w.getLsbD 0)))
  | 0xA => withZeros w 0x0FFFFFFF#32 .service
  | 0xB => withZeros w 0x0FFFFF00#32 (.rd (fieldAt w 0 8))
  | _ => .error .reservedOp

/-! ### Encoding -/

/-- `op` of an operation (R57, R58). -/
def Instr.opcode : Instr → BitVec 4
  | .init _ _ _ _ => 0x1#4
  | .startt0 _ => 0x2#4
  | .startcap _ _ _ _ => 0x3#4
  | .startpwm _ _ _ _ => 0x4#4
  | .setduty _ _ => 0x5#4
  | .starttmr _ _ _ => 0x6#4
  | .tick _ => 0x8#4
  | .edge _ _ => 0x9#4
  | .service => 0xA#4
  | .rd _ => 0xB#4

/-- A field's value at bit `lo` of a word whose other bits are zero (R56, R69). -/
def placeAt {len : Nat} (v : BitVec len) (lo : Nat) : Word :=
  v.zeroExtend 32 <<< lo

/-- The operand fields of an operation in their places; every bit outside them is zero (R56, R59 to R68). -/
def operandBits (i : Instr) : Word :=
  match i with
  | .init clk cmode ovfie route =>
      placeAt route 5 ||| placeAt (BitVec.ofBool ovfie) 4 ||| placeAt (BitVec.ofBool cmode.bit) 3 ||| placeAt clk 0
  | .startt0 freq => placeAt freq 0
  | .startcap ch edge mode shift =>
      placeAt (chCode ch) 26 ||| placeAt shift 3 ||| placeAt (BitVec.ofBool mode.bit) 2 ||| placeAt edge.code 0
  | .startpwm ch width trig high =>
      placeAt (chCode ch) 26 ||| placeAt width.code 24 ||| placeAt trig.code 22 ||| placeAt high 0
  | .setduty ch high => placeAt (chCode ch) 26 ||| placeAt high 0
  | .starttmr ch period out => placeAt (chCode ch) 26 ||| placeAt (BitVec.ofBool out.bit) 16 ||| placeAt period 0
  | .tick count => placeAt count 0
  | .edge ch pol => placeAt (chCode ch) 26 ||| placeAt (BitVec.ofBool pol.bit) 0
  | .service => 0#32
  | .rd idx => placeAt idx 0

/-- The word of an operation: `op` in bits 31:28 and the operand fields (R55, R56). -/
def encode (i : Instr) : Word :=
  placeAt i.opcode 28 ||| operandBits i

/-! ### The opcode table -/

/-- A row of spec/opcode_table.json: a word is the row's when `word & mask = pattern`. -/
structure OpcodeRow where
  mnemonic : String
  pattern : Word
  mask : Word
deriving DecidableEq, Repr

/-- `w` is a word of the row. -/
def OpcodeRow.covers (r : OpcodeRow) (w : Word) : Bool :=
  decide (w &&& r.mask = r.pattern)

/-- Match and mask of the ten operations (R59 to R68). -/
def opcodeRows : List OpcodeRow :=
  [ ⟨"INIT", 0x10000000#32, 0xFFFFFF80#32⟩,
    ⟨"STARTT0", 0x20000000#32, 0xF0000000#32⟩,
    ⟨"STARTCAP", 0x30000000#32, 0xF3FFFF00#32⟩,
    ⟨"STARTPWM", 0x40000000#32, 0xF03FF800#32⟩,
    ⟨"SETDUTY", 0x50000000#32, 0xF3FFF800#32⟩,
    ⟨"STARTTMR", 0x60000000#32, 0xF3FE0000#32⟩,
    ⟨"TICK", 0x80000000#32, 0xFFFF0000#32⟩,
    ⟨"EDGE", 0x90000000#32, 0xF3FFFFFE#32⟩,
    ⟨"SERVICE", 0xA0000000#32, 0xFFFFFFFF#32⟩,
    ⟨"RD", 0xB0000000#32, 0xFFFFFF00#32⟩ ]

/-- The mnemonic of an operation (R57, R58). -/
def Instr.mnemonic : Instr → String
  | .init _ _ _ _ => "INIT"
  | .startt0 _ => "STARTT0"
  | .startcap _ _ _ _ => "STARTCAP"
  | .startpwm _ _ _ _ => "STARTPWM"
  | .setduty _ _ => "SETDUTY"
  | .starttmr _ _ _ => "STARTTMR"
  | .tick _ => "TICK"
  | .edge _ _ => "EDGE"
  | .service => "SERVICE"
  | .rd _ => "RD"

/-! ### The host's entry point -/

/-- The 32-bit word whose lowest `nbits` bits are `w`'s and whose other bits are zero. -/
def tableWord (nbits w : Nat) : Word :=
  BitVec.ofNat 32 (w % 2 ^ nbits)

/-- The operation the decoder reads from the word `w` of `nbits` bits; no operation is longer than 32 bits (R55). -/
def decodeTableWord (nbits w : Nat) : Option Instr :=
  if nbits ≤ 32 then
    match decode (tableWord nbits w) with
    | .ok i => some i
    | .error _ => none
  else none

end Sys2Proof
end

