-- ==== Sys2Proof/Machine/State.lean ====
section
/-! DEFINITION. The state of the block as plain data (R15 to R30, R35), the reset state (R38), and the ways a step can stop.
Each register stands once, in its fields; the bytes that `RD` shows are composed from them by `reg` (Machine/Ops.lean), and bits
the spec reads as zero and never writes have no field (DEDUCED, log entry 5). -/
namespace Sys2Proof.Machine

/-- `channelMode`: "variant in {Unused, Capture, PWM, Timer, Pulse}" (R23). -/
inductive ChannelMode where
  | unused
  | capture
  | pwm
  | timer
  | pulse
deriving DecidableEq, Repr

/-- `CCAPM[n]`: the seven fields of the channel control register, bit 6 down to bit 0 (R19, R73). -/
structure Ccapm where
  /-- bit 6, comparator enable. -/
  ecom : Bool
  /-- bit 5, rising edge. -/
  capp : Bool
  /-- bit 4, falling edge. -/
  capn : Bool
  /-- bit 3, equality sets the flag. -/
  mat : Bool
  /-- bit 2, equality toggles the pin. -/
  tog : Bool
  /-- bit 1, PWM output. -/
  pwm : Bool
  /-- bit 0, the channel's flag contributes to `IRQ`. -/
  eccf : Bool
deriving DecidableEq, Repr

/-- `PCAPWM[n]`: the PWM auxiliary register (R21, R74). -/
structure Pcapwm where
  /-- bits 7:6, the width selector. -/
  ebs : PwmWidth
  /-- bits 5:4, extra bits, reload copy. -/
  xh : BitVec 2
  /-- bits 3:2, extra bits, active copy. -/
  xl : BitVec 2
  /-- bit 1, the bit above the compare field, reload copy. -/
  epch : Bool
  /-- bit 0, the bit above the compare field, active copy. -/
  epcl : Bool
deriving DecidableEq, Repr

/-- `CMOD`: the mode-control register (R17, R72). -/
structure Cmod where
  /-- bit 7, counter mode. -/
  cmode : CounterMode
  /-- bits 3:1, clock source code. -/
  cps : BitVec 3
  /-- bit 0, the overflow flag contributes to `IRQ`. -/
  ecf : Bool
deriving DecidableEq, Repr

/-- The configuration record handed to Timer 0: `T0CTL`'s three bits and the reload bytes (R30, R76). -/
structure Timer0 where
  /-- `T0CTL` bit 0, timer started. -/
  run : Bool
  /-- `T0CTL` bit 1, 0 = 8-bit auto-reload, 1 = 16-bit auto-reload. -/
  m16 : Bool
  /-- `T0CTL` bit 2, the fixed /12 pre-divider. -/
  div12 : Bool
  /-- `T0RL`. -/
  rl : Byte
  /-- `T0RH`. -/
  rh : Byte
deriving DecidableEq, Repr

/-- The state of one channel: its flag in `CCON`, its registers, its pin and its bookkeeping (R16, R19 to R28). -/
structure Channel where
  /-- `CCF[n]`, the match flag (R16). -/
  ccf : Bool
  /-- `CCAPM[n]` (R19). -/
  ccapm : Ccapm
  /-- `CCAPL[n]` (R20). -/
  ccapl : Byte
  /-- `CCAPH[n]` (R20). -/
  ccaph : Byte
  /-- `PCAPWM[n]` (R21). -/
  pcapwm : Pcapwm
  /-- `PIN[n]` (R22). -/
  pin : Bool
  /-- `channelMode[n]` (R23). -/
  mode : ChannelMode
  /-- `captureMode[n]` (R24). -/
  captureMode : CaptureMode
  /-- `captureShiftBits[n]` (R25). -/
  shift : BitVec 5
  /-- `CAPOVF[n]` (R26). -/
  capovf : Byte
  /-- `CAPSTART[n]` (R27). -/
  capstart : BitVec 32
  /-- `CAPEND[n]` (R27). -/
  capend : BitVec 32
  /-- `TMRPER[n]` (R28). -/
  tmrper : Half
  /-- `TMRVAL[n]` (R28). -/
  tmrval : Half
deriving DecidableEq, Repr

/-- One event of the callback output `CB` (R35). -/
structure CallbackEvent where
  channel : ChanId
  duration : Half
deriving DecidableEq, Repr

/-- The whole machine. -/
structure State where
  /-- The parameters of R6. DESIGN CHOICE, the model's own field: no operation writes it (log entry 1). -/
  cfg : Config
  /-- `CF`, the overflow flag, `CCON` bit 7 (R16). -/
  cf : Bool
  /-- `CR`, the run control, `CCON` bit 6 (R16). -/
  cr : Bool
  /-- `CMOD` (R17). -/
  cmod : Cmod
  /-- `CL`, counter low (R15). -/
  cl : Byte
  /-- `CH`, counter high (R15). -/
  ch : Byte
  /-- `ROUTE` bits 1:0 (R18). -/
  route : BitVec 2
  /-- `RESULT`, the result code of the last STARTT0 (R29). -/
  result : Byte
  /-- `T0CTL`, `T0RL`, `T0RH` (R30). -/
  t0 : Timer0
  /-- The channels (R19 to R28); a slot at or above `NCH` has no hardware behind it. -/
  chan : PerChannel Channel
  /-- `CB`, the callback output, oldest event first (R35). -/
  cb : List CallbackEvent
  /-- The bytes the read port has returned, oldest first (R43). DESIGN CHOICE, the model's own field: no rule
  reads it (log entry 3). -/
  rdOut : List Byte
  /-- An INIT has been issued since reset (R153). DESIGN CHOICE, the model's own field (log entry 4). -/
  inited : Bool
  /-- The operation words the agents have issued and the block has not yet taken, oldest first (R50, R58). DESIGN CHOICE, the
  model's own field (log entry 2). -/
  trace : List Word
deriving DecidableEq, Repr

/-- The reasons a step can stop with a fault: none. "The block has no synchronous exceptions, no cause codes and no trap"
(R137), and nothing is treated as a fault (93_implementation_defined.md). -/
inductive Fault where
deriving DecidableEq, Repr

/-- The reasons an operation is refused: the spec's `refuse`, "the rules give the operation no meaning" (R10). All are safe:
the model stops where the spec gives no effect. -/
inductive Refusal where
  /-- Raised by `exec` for an instruction without a meaning; no arm of this model raises it. Safe. -/
  | notModelled (mnemonic : String)
  /-- U1, raised by `step`: `op` is 0x0, 0x7 or 0xC to 0xF (R70 (a)). Safe. -/
  | reservedOp
  /-- U2, raised by `step`: a must-be-zero bit is one (R56, R70 (b)). Safe. -/
  | mustBeZero
  /-- U3, raised by STARTCAP, STARTPWM, SETDUTY, STARTTMR, EDGE: `ch >= NCH` (R70 (c)). Safe. -/
  | channelAbsent
  /-- U4, raised by STARTCAP: `shift > 23` (R61). Safe. -/
  | shiftOutOfRange
  /-- U5, raised by STARTPWM: the width is not in `PWM_WIDTHS` (R62). Safe. -/
  | widthUnsupported
  /-- U6, raised by STARTPWM, SETDUTY: `high > 2^W` (R62, R63). Safe. -/
  | highOutOfRange
  /-- U7, raised by SETDUTY: the channel's mode is not PWM (R63, R95). Safe. -/
  | notPwmChannel
  /-- U8, raised by INIT: `route` is not in `ROUTE_CODES` (R59). Safe. -/
  | routeUnsupported
  /-- U9, raised by STARTT0: `freq = 0` (R60, R82). Safe. -/
  | freqZero
  /-- U10, raised by STARTT0, STARTCAP, STARTPWM, SETDUTY, STARTTMR: no INIT has been issued (R153). Safe. -/
  | beforeInit
  /-- U11, raised by SERVICE: `IRQ = 0` (R128). Safe. -/
  | serviceNotEnabled
deriving DecidableEq, Repr

/-- The three outcomes of an operation of this block. -/
abbrev Result := Host.Outcome State Fault Refusal

/-! ### Reset (R38, R151) -/

/-- A channel at reset: every register zero, the pin at the given level (R38). -/
def Channel.reset (pin : Bool) : Channel :=
  { ccf := false
    ccapm := { ecom := false, capp := false, capn := false, mat := false, tog := false, pwm := false, eccf := false }
    ccapl := 0#8
    ccaph := 0#8
    pcapwm := { ebs := .w8, xh := 0#2, xl := 0#2, epch := false, epcl := false }
    pin := pin
    mode := .unused
    captureMode := .continuous
    shift := 0#5
    capovf := 0#8
    capstart := 0#32
    capend := 0#32
    tmrper := 0#16
    tmrval := 0#16 }

/-- The reset state of the block with parameters `c`: every register of R15 to R30 zero, `PIN[n] = PIN_RESET[n]`, `CB`
empty (R38). The slot of a channel that does not exist holds the all-zero channel. -/
def State.resetWith (c : Config) : State :=
  { cfg := c
    cf := false
    cr := false
    cmod := { cmode := .freeRunning, cps := 0#3, ecf := false }
    cl := 0#8
    ch := 0#8
    route := 0#2
    result := 0#8
    t0 := { run := false, m16 := false, div12 := false, rl := 0#8, rh := 0#8 }
    chan := PerChannel.tabulate fun n => Channel.reset (c.hasChannel n && c.pinReset.get n)
    cb := []
    rdOut := []
    inited := false
    trace := [] }

/-- The machine right after reset, with the default parameters (R38; log entry 1). -/
def State.reset : State :=
  State.resetWith Config.default

end Sys2Proof.Machine
end

