-- ==== Sys2Proof/Machine/Operands.lean ====
section
/-! DEFINITION. What the operands of the commands turn into (control bytes, PWM compare fields, the Timer-0 record) and the
checks that refuse an operand the spec reserves (R70 (c), R153). -/
namespace Sys2Proof.Machine

/-! ### Refusing -/

/-- `k`, if the condition `ok` holds; else a refusal for the reason `r`. The order of an operation's checks is a DESIGN CHOICE (log
entry 6). -/
def require (ok : Bool) (r : Refusal) (k : Result) : Result :=
  if ok then k else .refused r

/-- A command other than INIT has a meaning only after the first INIT (R153). -/
def afterInit (s : State) (k : Result) : Result :=
  require s.inited .beforeInit k

/-- The channel an operation names exists: `ch < NCH` (R70 (c), R90 (a)). -/
def onChannel (s : State) (n : ChanId) (k : Result) : Result :=
  require (s.cfg.hasChannel n) .channelAbsent k

/-! ### Control bytes (R73) -/

/-- `CCAPM` of a disarmed channel: 0x00 (R73). -/
def disarmedControl : Ccapm :=
  { ecom := false, capp := false, capn := false, mat := false, tog := false, pwm := false, eccf := false }

/-- `CCAPM` of a capture channel: the selected edges and `ECCF`; 0x01, 0x11, 0x21, 0x31 (R73, R91). -/
def captureControl (edge : EdgeSel) : Ccapm :=
  { disarmedControl with capp := edge.selectsRising, capn := edge.selectsFalling, eccf := true }

/-- `CCAPM` of a PWM channel: `ECOM`, `PWM`, the selected output edges, `ECCF` unless the policy is none; 0x42, 0x53, 0x63,
0x73 (R73, R94). -/
def pwmControl (trig : EdgeSel) : Ccapm :=
  { disarmedControl with
    ecom := true, pwm := true, capp := trig.selectsRising, capn := trig.selectsFalling, eccf := decide (trig ≠ .none) }

/-- `CCAPM` of a Timer or Pulse channel: `ECOM`, `MAT`, `ECCF`, and `TOG` for Pulse; 0x49, 0x4D (R73, R96). -/
def timerControl (out : TimerOutput) : Ccapm :=
  { disarmedControl with ecom := true, mat := true, tog := out.bit, eccf := true }

/-- `channelMode` that STARTTMR sets (R96). -/
def timerMode : TimerOutput → ChannelMode
  | .timer => .timer
  | .pulse => .pulse

/-! ### The PWM compare value (R93) -/

/-- The three results of `pwmcmp`: `low`, `x` and `e` (R93). -/
structure PwmCompare where
  low : Byte
  x : BitVec 2
  e : Bool
deriving DecidableEq, Repr

/-- `k = min(W, 8)`: how many bits of the compare value the primary byte holds (R93, R112). -/
def primaryBits (w : PwmWidth) : Nat :=
  min w.bits 8

/-- `pwmcmp(W, high)`: `v = 2^W - high` split into the low `min(W, 8)` bits, bits 9:8 of a 10-bit value, and bit `W` (R93).
For `high > 2^W`, which the commands refuse, the subtraction of naturals gives 0 (DEDUCED, log entry 9). -/
def pwmCompare (w : PwmWidth) (high : BitVec 11) : PwmCompare :=
  let v := 2 ^ w.bits - high.toNat
  { low := BitVec.ofNat 8 (v % 2 ^ primaryBits w)
    x := if w = .w10 then BitVec.ofNat 2 (v / 2 ^ 8) else 0#2
    e := v.testBit w.bits }

/-- `EBS :: x :: x :: e :: e`: both copies of the extra bits written alike (R94, R95). -/
def pwmAux (w : PwmWidth) (v : PwmCompare) : Pcapwm :=
  { ebs := w, xh := v.x, xl := v.x, epch := v.e, epcl := v.e }

/-! ### Timer 0's record (R82) -/

/-- `d = F_CPU div freq` (R82, R83). -/
def timer0Divisor (fCpu : Nat) (freq : BitVec 28) : Nat :=
  fCpu / freq.toNat

/-- The record for a divisor `1 <= d <= 786432`: 8-bit auto-reload, 16-bit auto-reload, or 16-bit auto-reload behind the
/12 pre-divider (R82). No operation asks for another divisor (DEDUCED, log entry 9). -/
def timer0Record (d : Nat) : Timer0 :=
  if d ≤ 256 then
    let r := BitVec.ofNat 8 (256 - d)
    { run := true, m16 := false, div12 := false, rl := r, rh := r }
  else if d ≤ 65536 then
    let r := BitVec.ofNat 16 (65536 - d)
    { run := true, m16 := true, div12 := false, rl := r.extractLsb' 0 8, rh := r.extractLsb' 8 8 }
  else
    let r := BitVec.ofNat 16 (65536 - d / 12)
    { run := true, m16 := true, div12 := true, rl := r.extractLsb' 0 8, rh := r.extractLsb' 8 8 }

end Sys2Proof.Machine
end

