-- ==== Sys2Proof/Machine/Flags.lean ====
section
/-! DEFINITION. The counter and compare values, the conditions that set a flag (R33), the PWM output function (R112), and the
interrupt request (R131). -/
namespace Sys2Proof.Machine

/-- `CNT = CH :: CL` (R15). -/
def State.cnt (s : State) : Half :=
  s.ch ++ s.cl

/-- `CCAP[n] = CCAPH[n] :: CCAPL[n]` (R20). -/
def Channel.ccap (c : Channel) : Half :=
  c.ccaph ++ c.ccapl

/-- The counter wrapped: the value it has just taken is 0, which sets `CF` (R110). -/
def wraps (new : Half) : Bool :=
  decide (new = 0#16)

/-- The compare equality of a Timer or Pulse channel at the counter value `new` (R111). -/
def Channel.equals (c : Channel) (new : Half) : Bool :=
  c.ccapm.ecom && c.ccapm.mat && decide (new = c.ccap)

/-- An edge of polarity `pol` is captured: its polarity is armed and the channel is not a PWM output (R114). -/
def Channel.captures (c : Channel) (pol : Polarity) : Bool :=
  (match pol with
    | .rising => c.ccapm.capp
    | .falling => c.ccapm.capn) && !c.ccapm.pwm

/-- `cmp` of R112: the active compare value of `W+1` bits, `EPCL :: XL :: CCAPL` for 10 bits, else `EPCL :: CCAPL[k-1:0]`. -/
def Channel.pwmCmp (c : Channel) : Nat :=
  let w := c.pcapwm.ebs
  2 ^ w.bits * c.pcapwm.epcl.toNat
    + (if w = .w10 then 2 ^ 8 * c.pcapwm.xl.toNat else 0)
    + c.ccapl.toNat % 2 ^ primaryBits w

/-- `pwmout(n, c)`: high when the low `W` bits of the counter value are at or above the compare value (R112; 90_conflicts.md
C1). -/
def Channel.pwmOut (c : Channel) (new : Half) : Bool :=
  decide (c.pwmCmp ≤ new.toNat % 2 ^ c.pcapwm.ebs.bits)

/-- An output edge from the pin's level to `o` that the trigger policy selects: rising with `CAPP`, falling with `CAPN`
(R113). -/
def Channel.triggers (c : Channel) (o : Bool) : Bool :=
  (!c.pin && o && c.ccapm.capp) || (c.pin && !o && c.ccapm.capn)

/-- The channel's term of `IRQ`: its flag is set and its enable is set (R131). -/
def Channel.requests (c : Channel) : Bool :=
  c.ccf && c.ccapm.eccf

/-- `IRQ`: a level, a function of the present state (R131). -/
def irq (s : State) : Bool :=
  (s.cf && s.cmod.ecf) || s.cfg.channels.any fun n => (s.chan.get n).requests

end Sys2Proof.Machine
end

