-- ==== Sys2Proof/Machine/Ops.lean ====
section
/-! DEFINITION. The shared operations on the block: register updates, the register space as the read port shows it (R41 to
R46), one count of the counter (R110 to R113), the capture of an edge (R114), the taking of the interrupt (R118 to R127), and
the taking of the next operation word from the trace (R58). -/
namespace Sys2Proof.Machine

/-! ### Register updates -/

/-- `CL` and `CH` take the bytes of `v` (R110). -/
def State.setCnt (s : State) (v : Half) : State :=
  { s with cl := v.extractLsb' 0 8, ch := v.extractLsb' 8 8 }

/-- The state of channel `n` is replaced. -/
def State.setChan (s : State) (n : ChanId) (c : Channel) : State :=
  { s with chan := s.chan.set n c }

/-- Every existing channel is changed by `f`; the channels do not affect one another (R110). -/
def State.mapChan (s : State) (f : Channel → Channel) : State :=
  { s with chan := PerChannel.tabulate fun n => if s.cfg.hasChannel n then f (s.chan.get n) else s.chan.get n }

/-- `emit CB(ch, dur)`: one event is appended to the callback output (R10, R35). -/
def State.emit (s : State) (e : CallbackEvent) : State :=
  { s with cb := s.cb ++ [e] }

/-- `CCAPL` and `CCAPH` take the bytes of `v`: low byte, then high byte (R96, R123). -/
def Channel.setCcap (c : Channel) (v : Half) : Channel :=
  { c with ccapl := v.extractLsb' 0 8, ccaph := v.extractLsb' 8 8 }

/-! ### The register space (R41 to R46, R71 to R76) -/

/-- The byte of `CCAPM[n]` (R73). -/
def Ccapm.byte (r : Ccapm) : Byte :=
  0#1 ++ BitVec.ofBool r.ecom ++ BitVec.ofBool r.capp ++ BitVec.ofBool r.capn ++ BitVec.ofBool r.mat
    ++ BitVec.ofBool r.tog ++ BitVec.ofBool r.pwm ++ BitVec.ofBool r.eccf

/-- The byte of `PCAPWM[n]` (R74). -/
def Pcapwm.byte (r : Pcapwm) : Byte :=
  r.ebs.code ++ r.xh ++ r.xl ++ BitVec.ofBool r.epch ++ BitVec.ofBool r.epcl

/-- The byte of `CMOD` (R72). -/
def Cmod.byte (r : Cmod) : Byte :=
  BitVec.ofBool r.cmode.bit ++ 0#3 ++ r.cps ++ BitVec.ofBool r.ecf

/-- The byte of `T0CTL` (R76). -/
def Timer0.ctlByte (r : Timer0) : Byte :=
  0#5 ++ BitVec.ofBool r.div12 ++ BitVec.ofBool r.m16 ++ BitVec.ofBool r.run

/-- The 3-bit code of `channelMode` (R23, R75). -/
def ChannelMode.code : ChannelMode → BitVec 3
  | .unused => 0#3
  | .capture => 1#3
  | .pwm => 2#3
  | .timer => 3#3
  | .pulse => 4#3

/-- The byte of `CHMODE[n]` (R75). -/
def Channel.chmodeByte (c : Channel) : Byte :=
  0#4 ++ BitVec.ofBool c.captureMode.bit ++ c.mode.code

/-- A bit per channel in bits 3:0, zero for a channel that does not exist (R71, R76). -/
def State.channelBits (s : State) (f : Channel → Bool) : BitVec 4 :=
  let bit (n : ChanId) : BitVec 1 := BitVec.ofBool (s.cfg.hasChannel n && f (s.chan.get n))
  bit 3 ++ bit 2 ++ bit 1 ++ bit 0

/-- The byte of `CCON` (R71). -/
def State.cconByte (s : State) : Byte :=
  BitVec.ofBool s.cf ++ BitVec.ofBool s.cr ++ 0#2 ++ s.channelBits Channel.ccf

/-- The byte of `PINS` (R42, R76). -/
def State.pinsByte (s : State) : Byte :=
  0#4 ++ s.channelBits Channel.pin

/-- The byte at an index below 0x10 (R42); reserved indices read 0 (R44). -/
def State.arrayByte (s : State) (i : Nat) : Byte :=
  match i with
  | 0x00 => s.cconByte
  | 0x01 => s.cmod.byte
  | 0x02 => s.cl
  | 0x03 => s.ch
  | 0x04 => s.route.zeroExtend 8
  | 0x05 => s.result
  | 0x06 => s.pinsByte
  | 0x08 => s.t0.ctlByte
  | 0x09 => s.t0.rl
  | 0x0A => s.t0.rh
  | _ => 0#8

/-- The byte at offset `off` from a channel's base (R42), multi-byte quantities low byte first (R45); reserved offsets read 0
(R44). -/
def Channel.byteAt (c : Channel) (off : Nat) : Byte :=
  match off with
  | 0x00 => c.ccapm.byte
  | 0x01 => c.ccapl
  | 0x02 => c.ccaph
  | 0x03 => c.pcapwm.byte
  | 0x04 => c.chmodeByte
  | 0x05 => c.shift.zeroExtend 8
  | 0x06 => c.capovf
  | 0x08 => c.capstart.extractLsb' 0 8
  | 0x09 => c.capstart.extractLsb' 8 8
  | 0x0A => c.capstart.extractLsb' 16 8
  | 0x0B => c.capstart.extractLsb' 24 8
  | 0x0C => c.capend.extractLsb' 0 8
  | 0x0D => c.capend.extractLsb' 8 8
  | 0x0E => c.capend.extractLsb' 16 8
  | 0x0F => c.capend.extractLsb' 24 8
  | 0x10 => c.tmrper.extractLsb' 0 8
  | 0x11 => c.tmrper.extractLsb' 8 8
  | 0x12 => c.tmrval.extractLsb' 0 8
  | 0x13 => c.tmrval.extractLsb' 8 8
  | _ => 0#8

/-- `REG[i]`, the byte the read port returns (R41 to R44): the array registers, then 0x20 indices a channel from 0x10 up; 0 where
no channel exists. -/
def reg (s : State) (i : Byte) : Byte :=
  if i.toNat < 0x10 then s.arrayByte i.toNat
  else
    let k := (i.toNat - 0x10) / 0x20
    if h : k < 4 then
      if s.cfg.hasChannel ⟨k, h⟩ then (s.chan.get ⟨k, h⟩).byteAt ((i.toNat - 0x10) % 0x20) else 0#8
    else 0#8

/-- The index `B(n) + off` with `B(n) = 0x10 + 0x20*n` (R42, R149). -/
def chanIdx (n : ChanId) (off : Nat) : Byte :=
  BitVec.ofNat 8 (0x10 + 0x20 * n.val + off)

/-- `MemRead(i, n)`: the `n`-byte little-endian value from index `i` up (R10). -/
def memRead (s : State) (i : Byte) : Nat → Nat
  | 0 => 0
  | n + 1 => (reg s i).toNat + 256 * memRead s (i + 1#8) n

/-! ### One count (R110 to R113) -/

/-- R111: at equality the flag is set and, with `TOG`, the pin is toggled. -/
def Channel.compareStep (new : Half) (c : Channel) : Channel :=
  if c.equals new then { c with ccf := true, pin := c.pin ^^ c.ccapm.tog } else c

/-- R113: a PWM channel's pin takes the output level, and a selected output edge sets the flag. -/
def Channel.pwmStep (new : Half) (c : Channel) : Channel :=
  if c.ccapm.ecom && c.ccapm.pwm then
    { c with ccf := c.ccf || c.triggers (c.pwmOut new), pin := c.pwmOut new }
  else c

/-- What one count does to a channel: R111, then R113 (R110). -/
def Channel.count (new : Half) (c : Channel) : Channel :=
  (c.compareStep new).pwmStep new

/-- One count of the selected clock source; nothing while `CR = 0` (R110). -/
def countOnce (s : State) : State :=
  if s.cr then
    let new := s.cnt + 1#16
    { ((s.setCnt new).mapChan (Channel.count new)) with cf := s.cf || wraps new }
  else s

/-- `k` successive counts with nothing between them (R58). -/
def countTimes : Nat → State → State
  | 0, s => s
  | k + 1, s => countTimes k (countOnce s)

/-! ### Capture (R114) -/

/-- An edge of polarity `pol` on a channel's input while the counter shows `cl`, `ch` (R114). -/
def Channel.edge (pol : Polarity) (cl ch : Byte) (c : Channel) : Channel :=
  if c.captures pol then { c with ccapl := cl, ccaph := ch, ccf := true } else c

/-! ### Taking the interrupt (R118 to R127, R135, R136)

The block takes no exception of its own (R137). Its one interrupt is taken by the operation SERVICE: entry saves nothing and
changes nothing but what the steps do (R135), and there is nothing to restore on return (R136). -/

/-- `duration(elapsed, sh)`: the shifted count, 0xFFFF when its byte 2 is not zero (R122). -/
def durationOf (elapsed : BitVec 32) (sh : BitVec 5) : Half :=
  let v := elapsed >>> sh.toNat
  if v.extractLsb' 16 8 ≠ 0#8 then 0xFFFF#16 else v.extractLsb' 0 16

/-- The end snapshot of a capture: `0x00 :: CAPOVF :: CCAPH :: CCAPL` (R121). -/
def Channel.endSnapshot (c : Channel) : BitVec 32 :=
  0#8 ++ c.capovf ++ c.ccaph ++ c.ccapl

/-- The start snapshot of the next interval: `0x0000 :: CCAPH :: CCAPL` (R121). -/
def Channel.startSnapshot (c : Channel) : BitVec 32 :=
  0#16 ++ c.ccaph ++ c.ccapl

/-- The duration a capture match reports (R121, R122). -/
def Channel.captureDuration (c : Channel) : Half :=
  durationOf (c.endSnapshot - c.capstart) c.shift

/-- One-shot: "disarm the channel back to Unused" (R121). -/
def Channel.disarmIfOneShot (c : Channel) : Channel :=
  match c.captureMode with
  | .oneShot => { c with mode := .unused, ccapm := disarmedControl }
  | .continuous => c

/-- The register work of the Capture arm (R121). -/
def Channel.serveCapture (c : Channel) : Channel :=
  { c.disarmIfOneShot with capend := c.endSnapshot, capstart := c.startSnapshot, capovf := 0#8 }

/-- The register work of the Timer and Pulse arm: additive reload (R123). -/
def Channel.serveTimer (c : Channel) : Channel :=
  { c.setCcap (c.tmrval + c.tmrper) with tmrval := c.tmrval + c.tmrper }

/-- The arm of a flagged channel, its flag already cleared: the register work and the duration of the callback, if one is
emitted (R120 to R125). -/
def Channel.serve (c : Channel) : Channel × Option Half :=
  match c.mode with
  | .capture => (c.serveCapture, some c.captureDuration)
  | .timer => (c.serveTimer, some 0#16)
  | .pulse => (c.serveTimer, some 0#16)
  | .pwm => (c, some 0#16)
  | .unused => (c, none)

/-- A callback event is emitted when the arm gives a duration. -/
def State.emitDuration (s : State) (n : ChanId) : Option Half → State
  | some d => s.emit { channel := n, duration := d }
  | none => s

/-- Step 2 for one channel: test and clear its flag, run its arm, emit its callback (R120). -/
def serveChannel (s : State) (n : ChanId) : State :=
  if (s.chan.get n).ccf then
    let r := Channel.serve { s.chan.get n with ccf := false }
    (s.setChan n r.1).emitDuration n r.2
  else s

/-- What a counted overflow does to a channel: every active channel's `CAPOVF` is incremented modulo 256 (R119). -/
def Channel.countOverflow (c : Channel) : Channel :=
  match c.mode with
  | .unused => c
  | .capture | .pwm | .timer | .pulse => { c with capovf := c.capovf + 1#8 }

/-- Step 1: the overflow tracker (R119). -/
def serveOverflow (s : State) : State :=
  if s.cf then { s.mapChan Channel.countOverflow with cf := false } else s

/-- One pass of the demultiplexer: step 1, then the existing channels in ascending order (R118). -/
def takeInterrupt (s : State) : State :=
  s.cfg.channels.foldl serveChannel (serveOverflow s)

/-! ### The trace (R58) -/

/-- The next operation word and the state without it; nothing when no agent has issued one. -/
def fetch (s : State) : Option (Word × State) :=
  match s.trace with
  | [] => none
  | w :: rest => some (w, { s with trace := rest })

/-- `s` with the word `w` as the next operation word. -/
def placeWord (s : State) (w : Word) : State :=
  { s with trace := w :: s.trace }

/-- The refusal for a word the decoder rejects (R70, R139). -/
def refuseWord : DecodeError → Refusal
  | .reservedOp => .reservedOp
  | .mustBeZero => .mustBeZero

end Sys2Proof.Machine
end

