-- ==== Sys2Proof/Machine/ArrayCommands.lean ====
section
/-! DEFINITION. The array commands INIT (R80, R81) and STARTT0 (R82 to R84). -/
namespace Sys2Proof.Machine

/-- The effect of INIT (R80). -/
def initialise (clk : BitVec 3) (cmode : CounterMode) (ovfie : Bool) (route : BitVec 2) (s : State) : State :=
  { (s.mapChan fun c => { c with mode := .unused }).setCnt 0#16 with
    cmod := { cmode := cmode, cps := clk, ecf := ovfie }
    route := route
    cr := true
    inited := true }

/-- INIT (R80); a `route` outside `ROUTE_CODES` is reserved (R59, R70 (c)). -/
def execInit (clk : BitVec 3) (cmode : CounterMode) (ovfie : Bool) (route : BitVec 2) (s : State) : Result :=
  require (s.cfg.routeCodes.has route) .routeUnsupported <| .next (initialise clk cmode ovfie route s)

/-- The effect of STARTT0: on failure only `RESULT` changes (R82, R138). -/
def programTimer0 (freq : BitVec 28) (s : State) : State :=
  let d := timer0Divisor s.cfg.fCpu freq
  if d = 0 then { s with result := 0xFF#8 }
  else if 786432 < d then { s with result := 0xFE#8 }
  else { s with t0 := timer0Record d, result := 0x00#8 }

/-- STARTT0 (R82); `freq = 0` is reserved (R60, R70 (c)). -/
def execStartt0 (freq : BitVec 28) (s : State) : Result :=
  afterInit s <| require (decide (freq ≠ 0#28)) .freqZero <| .next (programTimer0 freq s)

end Sys2Proof.Machine
end

