-- ==== Sys2Proof/Machine/ChannelCommands.lean ====
section
/-! DEFINITION. The channel commands STARTCAP (R91, R92), STARTPWM (R94), SETDUTY (R95), STARTTMR (R96, R97); common rules
R90. -/
namespace Sys2Proof.Machine

/-- The part of STARTCAP that touches the whole array: the counter and every channel's capture bookkeeping are cleared; `CR`,
cleared first and set last, ends 1 (R91). -/
def restartArray (s : State) : State :=
  { (s.mapChan fun c => { c with capovf := 0#8, capstart := 0#32, capend := 0#32 }).setCnt 0#16 with cr := true }

/-- What STARTCAP writes in its own channel (R91). -/
def Channel.armCapture (edge : EdgeSel) (mode : CaptureMode) (shift : BitVec 5) (c : Channel) : Channel :=
  { c with mode := .capture, captureMode := mode, shift := shift, ccapm := captureControl edge }

/-- The effect of STARTCAP (R91). -/
def startCapture (n : ChanId) (edge : EdgeSel) (mode : CaptureMode) (shift : BitVec 5) (s : State) : State :=
  let t := restartArray s
  t.setChan n ((t.chan.get n).armCapture edge mode shift)

/-- STARTCAP (R91); `ch >= NCH` and `shift > 23` are reserved (R61, R70 (c)). -/
def execStartcap (n : ChanId) (edge : EdgeSel) (mode : CaptureMode) (shift : BitVec 5) (s : State) : Result :=
  afterInit s <| onChannel s n <| require (shiftLegal shift) .shiftOutOfRange <| .next (startCapture n edge mode shift s)

/-- Both copies of the compare value take the fields of `pwmcmp(w, high)`, the width selector becomes `w` (R94, R95). -/
def Channel.setPwmCompare (w : PwmWidth) (high : BitVec 11) (c : Channel) : Channel :=
  let v := pwmCompare w high
  { c with ccapl := v.low, ccaph := v.low, pcapwm := pwmAux w v }

/-- What STARTPWM writes in its channel (R94). -/
def Channel.startPwm (w : PwmWidth) (trig : EdgeSel) (high : BitVec 11) (c : Channel) : Channel :=
  { c.setPwmCompare w high with mode := .pwm, ccapm := pwmControl trig }

/-- STARTPWM (R94); a width not in `PWM_WIDTHS` and `high > 2^W` are reserved (R62, R70 (c)). -/
def execStartpwm (n : ChanId) (w : PwmWidth) (trig : EdgeSel) (high : BitVec 11) (s : State) : Result :=
  afterInit s <| onChannel s n <| require (s.cfg.pwmWidths.has w) .widthUnsupported <|
    require (highLegal w high) .highOutOfRange <| .next (s.setChan n ((s.chan.get n).startPwm w trig high))

/-- SETDUTY (R95): the width is read back from `EBS` and kept; a channel not in PWM mode and `high > 2^W` are reserved (R63,
R70 (c)). -/
def execSetduty (n : ChanId) (high : BitVec 11) (s : State) : Result :=
  let w := (s.chan.get n).pcapwm.ebs
  afterInit s <| onChannel s n <| require (decide ((s.chan.get n).mode = .pwm)) .notPwmChannel <|
    require (highLegal w high) .highOutOfRange <| .next (s.setChan n ((s.chan.get n).setPwmCompare w high))

/-- What STARTTMR writes in its channel (R96). -/
def Channel.startTimer (period : Half) (out : TimerOutput) (c : Channel) : Channel :=
  { c.setCcap period with mode := timerMode out, tmrper := period, tmrval := period, ccapm := timerControl out }

/-- STARTTMR (R96); `ch >= NCH` is reserved (R64, R70 (c)). -/
def execStarttmr (n : ChanId) (period : Half) (out : TimerOutput) (s : State) : Result :=
  afterInit s <| onChannel s n <| .next (s.setChan n ((s.chan.get n).startTimer period out))

end Sys2Proof.Machine
end

