-- ==== Sys2Proof/Machine/Events.lean ====
section
/-! DEFINITION. The hardware events TICK (R110 to R113, R116, R117) and EDGE (R114). -/
namespace Sys2Proof.Machine

/-- TICK: `count` successive counts; `count = 0` is no operation (R58, R110; DEDUCED, log entry 7). -/
def execTick (count : Half) (s : State) : Result :=
  .next (countTimes count.toNat s)

/-- EDGE (R114); `ch >= NCH` is reserved (R66, R70 (c)). -/
def execEdge (n : ChanId) (pol : Polarity) (s : State) : Result :=
  onChannel s n <| .next (s.setChan n ((s.chan.get n).edge pol s.cl s.ch))

end Sys2Proof.Machine
end

