-- ==== Sys2Proof/Machine/ReadPort.lean ====
section
/-! DEFINITION. RD, the read port (R43, R44, R49). -/
namespace Sys2Proof.Machine

/-- RD: the read port returns `REG[idx]`; no register changes (R43, R49). -/
def execRd (idx : Byte) (s : State) : Result :=
  .next { s with rdOut := s.rdOut ++ [reg s idx] }

end Sys2Proof.Machine
end

