-- ==== Sys2Proof/Machine/Service.lean ====
section
/-! DEFINITION. SERVICE, one pass of the interrupt demultiplexer (R118 to R128). -/
namespace Sys2Proof.Machine

/-- SERVICE: enabled exactly while `IRQ = 1` (R118, R128). -/
def execService (s : State) : Result :=
  require (irq s) .serviceNotEnabled <| .next (takeInterrupt s)

end Sys2Proof.Machine
end

