-- ==== Sys2Proof/Machine/Dispatch.lean ====
section
/-! DEFINITION. One arm per operation (R57, R58). -/
namespace Sys2Proof.Machine

def exec (i : Instr) (s : State) : Host.Outcome State Fault Refusal :=
  match i with
  | .init clk cmode ovfie route => Sys2Proof.Machine.execInit clk cmode ovfie route s
  | .startt0 freq => Sys2Proof.Machine.execStartt0 freq s
  | .startcap n edge mode shift => Sys2Proof.Machine.execStartcap n edge mode shift s
  | .startpwm n width trig high => Sys2Proof.Machine.execStartpwm n width trig high s
  | .setduty n high => Sys2Proof.Machine.execSetduty n high s
  | .starttmr n period out => Sys2Proof.Machine.execStarttmr n period out s
  | .tick count => Sys2Proof.Machine.execTick count s
  | .edge n pol => Sys2Proof.Machine.execEdge n pol s
  | .service => Sys2Proof.Machine.execService s
  | .rd idx => Sys2Proof.Machine.execRd idx s

end Sys2Proof.Machine
end

