-- ==== Sys2Proof/Machine/Step.lean ====
section
/-! DEFINITION. One step of the machine: the next operation word of the trace is taken, decoded and executed (R50, R58). -/
namespace Sys2Proof.Machine

/-- One step. With no word in the trace no agent acts and nothing changes (log entry 2); a word that is no operation is
refused (R70). -/
def step (s : State) : Host.Outcome State Fault Refusal :=
  match fetch s with
  | none => .next s
  | some (w, t) =>
    match decode w with
    | .ok i => exec i t
    | .error e => .refused (refuseWord e)

/-- `s` with the host's word as the next operation word of the trace. -/
def State.withFetchWord (s : State) (nbits w : Nat) : State :=
  placeWord s (tableWord nbits w)

end Sys2Proof.Machine
end

