-- ==== Sys2Proof/Machine/Text.lean ====
section
/-! DEFINITION. The textual syntax of traces and the pseudo-operation TICKS (R79). A line is read as a list of characters; commas
and white space separate the tokens (log entry 8). -/
namespace Sys2Proof.Machine

/-! ### Tokens -/

/-- A character that separates tokens. -/
def isSeparator (c : Char) : Bool :=
  c = ' ' || c = '\t' || c = '\r' || c = ','

/-- The token collected so far, backwards, if it is not empty. -/
def flushToken : List Char → List (List Char)
  | [] => []
  | c :: cs => [(c :: cs).reverse]

/-- The tokens of a line; `;` starts a comment (R79). `cur` is the token being read, backwards. -/
def tokensFrom : List Char → List Char → List (List Char)
  | [], cur => flushToken cur
  | c :: cs, cur =>
    if c = ';' then flushToken cur
    else if isSeparator c then flushToken cur ++ tokensFrom cs []
    else tokensFrom cs (c :: cur)

/-! ### Numbers -/

/-- The value of a digit in base `b`, decimal or hexadecimal. -/
def digitOf (b : Nat) (c : Char) : Option Nat :=
  let n := c.toNat
  let v := if 48 ≤ n && n ≤ 57 then n - 48
    else if 97 ≤ n && n ≤ 102 then n - 87
    else if 65 ≤ n && n ≤ 70 then n - 55
    else b
  if v < b then some v else none

/-- The number the digits stand for, after the value `acc` of the digits before them. -/
def digitsFrom (b : Nat) : List Char → Nat → Option Nat
  | [], acc => some acc
  | c :: cs, acc =>
    match digitOf b c with
    | some d => digitsFrom b cs (acc * b + d)
    | none => none

/-- A number in decimal or `0x` hexadecimal (R79). -/
def parseNat (t : List Char) : Option Nat :=
  match t with
  | [] => none
  | '0' :: 'x' :: d :: ds => digitsFrom 16 (d :: ds) 0
  | d :: ds => digitsFrom 10 (d :: ds) 0

/-- A number that a field of `n` bits holds. -/
def parseField (n : Nat) (t : List Char) : Option (BitVec n) :=
  match parseNat t with
  | some v => if v < 2 ^ n then some (BitVec.ofNat n v) else none
  | none => none

/-- A channel number, 0 to 3. -/
def parseCh (t : List Char) : Option ChanId :=
  (parseField 2 t).map BitVec.toFin

/-! ### Operand words -/

/-- `free|gated`. -/
def parseCounterMode (t : List Char) : Option CounterMode :=
  if t = "free".toList then some .freeRunning else if t = "gated".toList then some .gated else none

/-- `0|1`. -/
def parseBit (t : List Char) : Option Bool :=
  if t = "0".toList then some false else if t = "1".toList then some true else none

/-- `none|fall|rise|both`. -/
def parseEdge (t : List Char) : Option EdgeSel :=
  if t = "none".toList then some .none
  else if t = "fall".toList then some .falling
  else if t = "rise".toList then some .rising
  else if t = "both".toList then some .both
  else none

/-- `cont|oneshot`. -/
def parseCaptureMode (t : List Char) : Option CaptureMode :=
  if t = "cont".toList then some .continuous else if t = "oneshot".toList then some .oneShot else none

/-- `6|7|8|10`. -/
def parseWidth (t : List Char) : Option PwmWidth :=
  match parseNat t with
  | some 6 => some .w6
  | some 7 => some .w7
  | some 8 => some .w8
  | some 10 => some .w10
  | _ => none

/-- `timer|pulse`. -/
def parseOut (t : List Char) : Option TimerOutput :=
  if t = "timer".toList then some .timer else if t = "pulse".toList then some .pulse else none

/-- `rise|fall`. -/
def parsePolarity (t : List Char) : Option Polarity :=
  if t = "rise".toList then some .rising else if t = "fall".toList then some .falling else none

/-! ### Lines and traces -/

/-- `TICKS k`: `k div 65535` words `TICK 65535`, then `TICK (k mod 65535)` if that is not 0 (R79). -/
def expandTicks (k : Nat) : List Instr :=
  List.replicate (k / 65535) (Instr.tick 65535#16)
    ++ (if 0 < k % 65535 then [Instr.tick (BitVec.ofNat 16 (k % 65535))] else [])

/-- One of the ten operations, from its mnemonic and its operands (R79). -/
def parseOperation (m : List Char) (args : List (List Char)) : Option Instr :=
  match args with
  | [] => if m = "SERVICE".toList then some .service else none
  | [a] =>
    if m = "STARTT0".toList then (parseField 28 a).map Instr.startt0
    else if m = "TICK".toList then (parseField 16 a).map Instr.tick
    else if m = "RD".toList then (parseField 8 a).map Instr.rd
    else none
  | [a, b] =>
    if m = "SETDUTY".toList then do return .setduty (← parseCh a) (← parseField 11 b)
    else if m = "EDGE".toList then do return .edge (← parseCh a) (← parsePolarity b)
    else none
  | [a, b, c] =>
    if m = "STARTTMR".toList then do return .starttmr (← parseCh a) (← parseField 16 b) (← parseOut c) else none
  | [a, b, c, d] =>
    if m = "INIT".toList then do
      return .init (← parseField 3 a) (← parseCounterMode b) (← parseBit c) (← parseField 2 d)
    else if m = "STARTCAP".toList then do
      return .startcap (← parseCh a) (← parseEdge b) (← parseCaptureMode c) (← parseField 5 d)
    else if m = "STARTPWM".toList then do
      return .startpwm (← parseCh a) (← parseWidth b) (← parseEdge c) (← parseField 11 d)
    else none
  | _ => none

/-- The operations a line stands for: none for an empty line, several for `TICKS`; no value for a line that is neither. -/
def parseLine (line : List Char) : Option (List Instr) :=
  match tokensFrom line [] with
  | [] => some []
  | m :: args =>
    if m = "TICKS".toList then
      match args with
      | [a] => (parseNat a).map expandTicks
      | _ => none
    else (parseOperation m args).map fun i => [i]

/-- The lines of a text. `cur` is the line being read, backwards. -/
def linesFrom : List Char → List Char → List (List Char)
  | [], cur => [cur.reverse]
  | c :: cs, cur => if c = '\n' then cur.reverse :: linesFrom cs [] else linesFrom cs (c :: cur)

/-- The operations of lines, in their order; no value when a line is wrong. -/
def parseLines : List (List Char) → Option (List Instr)
  | [] => some []
  | l :: ls =>
    match parseLine l, parseLines ls with
    | some is, some rest => some (is ++ rest)
    | _, _ => none

/-- The trace words a text stands for, one operation per line (R58, R79). -/
def assemble (text : String) : Option (List Word) :=
  (parseLines (linesFrom text.toList [])).map (List.map encode)

end Sys2Proof.Machine
end

