-- ==== Sys2Proof/Safety.lean ====
section
/-! DEFINITION. The terms claims are written in: what a sequence of operations does (R58), the invariant of the block (R23 to
R32, R138), prompt service (R146), and the state of a measured capture interval (R129, R168). -/
namespace Sys2Proof.Machine

/-- The state an outcome goes on to. -/
def nextOf : Result → Option State
  | .next s => some s
  | .fault _ => none
  | .refused _ => none

/-- The reason an outcome refuses. -/
def refusalOf : Result → Option Refusal
  | .next _ => none
  | .fault _ => none
  | .refused r => some r

/-- Operations executed left to right, each in the state the one before left (R50, R58). A run that ends in a next state keeps
(H-wf) of R168: no operation in it was refused. -/
def runOps : List Instr → State → Result
  | [], s => .next s
  | i :: is, s =>
    match exec i s with
    | .next t => runOps is t
    | .fault f => .fault f
    | .refused r => .refused r

/-- What stands beside the register space is as before: the parameters, the trace, the INIT mark, and both output streams. -/
def BesidesKept (s t : State) : Prop :=
  t.cfg = s.cfg ∧ t.trace = s.trace ∧ t.inited = s.inited ∧ t.cb = s.cb ∧ t.rdOut = s.rdOut

/-! ### The invariant -/

/-- The control bytes of a capture channel (R73). -/
def captureControls : List Ccapm :=
  [captureControl .none, captureControl .falling, captureControl .rising, captureControl .both]

/-- The control bytes of a PWM channel (R73). -/
def pwmControls : List Ccapm :=
  [pwmControl .none, pwmControl .falling, pwmControl .rising, pwmControl .both]

/-- The control bytes of a Timer or Pulse channel (R73). -/
def timerControls : List Ccapm :=
  [timerControl .timer, timerControl .pulse]

/-- What a channel's mode says of its control byte and compare registers. An Unused channel may hold any control byte of R73,
since INIT leaves it (R81, R165); a PWM channel's copies agree (R32 (d)); a Timer or Pulse channel's pair is its accumulator
(R96, R123). -/
def Channel.modeInv (c : Channel) : Prop :=
  match c.mode with
  | .unused => c.ccapm ∈ disarmedControl :: (captureControls ++ pwmControls ++ timerControls)
  | .capture => c.ccapm ∈ captureControls
  | .pwm => c.ccapm ∈ pwmControls ∧ c.ccapl = c.ccaph ∧ c.pcapwm.xl = c.pcapwm.xh ∧ c.pcapwm.epcl = c.pcapwm.epch
  | .timer => c.ccapm = timerControl .timer ∧ c.ccap = c.tmrval
  | .pulse => c.ccapm = timerControl .pulse ∧ c.ccap = c.tmrval

/-- The invariant of an existing channel (R25, R27, R32, R62). -/
structure Channel.Inv (cfg : Config) (c : Channel) : Prop where
  /-- `CAPSTART[31:16] = 0` (R32 (a)). -/
  startTop : c.capstart.toNat < 2 ^ 16
  /-- `CAPEND[31:24] = 0` (R32 (a)). -/
  endTop : c.capend.toNat < 2 ^ 24
  /-- `captureShiftBits <= 23` (R32 (c)). -/
  shiftRange : c.shift.toNat ≤ 23
  /-- The width selector names a supported width (R6, R62). -/
  widthSupported : cfg.pwmWidths.has c.pcapwm.ebs = true
  /-- The mode fits the registers. -/
  modeFits : c.modeInv

/-- The invariant of the block: it holds at reset and every step keeps it. -/
structure State.Inv (s : State) : Prop where
  /-- The parameters are in their ranges (R6). -/
  cfgWf : s.cfg.wf = true
  /-- Every existing channel keeps its invariant. -/
  chanInv : ∀ n, s.cfg.hasChannel n = true → (s.chan.get n).Inv s.cfg
  /-- No operation touches the slot of a channel that does not exist. -/
  absentZero : ∀ n, s.cfg.hasChannel n = false → s.chan.get n = Channel.reset false
  /-- "No other value is ever written to `RESULT`" (R138). -/
  resultCode : s.result = 0x00#8 ∨ s.result = 0xFF#8 ∨ s.result = 0xFE#8
  /-- The Timer-0 record is the reset one or one of R82's. -/
  timer0Legal : s.t0 = (State.resetWith s.cfg).t0 ∨ ∃ d, 1 ≤ d ∧ d ≤ 786432 ∧ s.t0 = timer0Record d
  /-- Callback events name existing channels (R126). -/
  callbacksExist : ∀ e ∈ s.cb, s.cfg.hasChannel e.channel = true
  /-- Before the first INIT the block is as reset left it (R152, R153). -/
  beforeInit : s.inited = false → { s with rdOut := [], trace := [] } = State.resetWith s.cfg
  /-- After the first INIT the counter runs and the routing code is a supported one (R80, R91, R116). -/
  afterInit : s.inited = true → s.cr = true ∧ s.cfg.routeCodes.has s.route = true

/-! ### Prompt service (R146) -/

/-- None of `k` counts but the last leaves `IRQ = 1` (R146). -/
def quietCounts : Nat → State → Prop
  | 0, _ => True
  | 1, _ => True
  | k + 2, s => irq (countOnce s) = false ∧ quietCounts (k + 1) (countOnce s)

/-- (H-prompt): whenever `IRQ = 1`, the next operation of the trace is SERVICE (R146, R168). -/
def promptOps : List Instr → State → Prop
  | [], _ => True
  | i :: is, s =>
    (irq s = true → i = .service) ∧ (∀ k, i = .tick k → quietCounts k.toNat s) ∧ ∀ t, exec i s = .next t → promptOps is t

/-! ### A measured capture interval (R129, R168) -/

/-- The single counts a trace holds. -/
def totalTicks : List Instr → Nat
  | [] => 0
  | .tick k :: is => k.toNat + totalTicks is
  | .init _ _ _ _ :: is | .startt0 _ :: is | .startcap _ _ _ _ :: is | .startpwm _ _ _ _ :: is | .setduty _ _ :: is
  | .starttmr _ _ _ :: is | .edge _ _ :: is | .service :: is | .rd _ :: is => totalTicks is

/-- An edge selection holds a polarity (R77). -/
def selects (e : EdgeSel) : Polarity → Bool
  | .rising => e.selectsRising
  | .falling => e.selectsFalling

/-- The operation neither ends nor restarts the interval that channel `n`, armed for `e`, is measuring: it is no INIT and no
STARTCAP (R159), no start of another mode on `n` (R39), and no captured edge on `n` (R114). -/
def leavesInterval (n : ChanId) (e : EdgeSel) : Instr → Bool
  | .init _ _ _ _ => false
  | .startt0 _ => true
  | .startcap _ _ _ _ => false
  | .startpwm m _ _ _ => decide (m ≠ n)
  | .setduty _ _ => true
  | .starttmr m _ _ => decide (m ≠ n)
  | .tick _ => true
  | .edge m p => decide (m ≠ n) || !selects e p
  | .service => true
  | .rd _ => true

/-- Channel `n` is a Continuous capture channel armed for `e` with shift `sh`, the counter runs with the overflow interrupt
enabled ((H-ovf) of R168), no match is pending on `n`, and `ticks` counts have passed since the edge, or the restart, that
`CAPSTART[n]` stands for (R129 (a)). -/
structure Measuring (n : ChanId) (e : EdgeSel) (sh : BitVec 5) (ticks : Nat) (s : State) : Prop where
  running : s.cr = true
  overflowEnabled : s.cmod.ecf = true
  present : s.cfg.hasChannel n = true
  mode : (s.chan.get n).mode = .capture
  continuous : (s.chan.get n).captureMode = .continuous
  armed : (s.chan.get n).ccapm = captureControl e
  shift : (s.chan.get n).shift = sh
  served : (s.chan.get n).ccf = false
  startTop : (s.chan.get n).capstart.toNat < 2 ^ 16
  counted : 2 ^ 16 * ((s.chan.get n).capovf.toNat + s.cf.toNat) + s.cnt.toNat = (s.chan.get n).capstart.toNat + ticks

end Sys2Proof.Machine
end

