-- ==== Sys2Proof/Certificates/Slice0/Obligations.lean ====
section
/-! DEFINITION. The statements about the model. A register is read through the read port (`reg s idx`, R41 to R44), so "every
index outside a list reads as before" is the frame over all registers, flags and pins of R15 to R30. -/
open Sys2Proof Sys2Proof.Machine

/-! ### Encoding and the step -/

/-- Every operation, every operand at every value its field admits, is read back from its word (R55 to R69). -/
def Obligations.DecodeEncodeRoundTrip : Prop :=
  ∀ i : Instr, decode (encode i) = .ok i

/-- A word that decodes is the word of the operation it decodes to: no bit of it is ignored (R56, R70 (b)). -/
def Obligations.EncodeDecodeRoundTrip : Prop :=
  ∀ (w : Word) (i : Instr), decode w = .ok i → encode i = w

/-- A word is an operation exactly when it matches a row of the opcode table, and it is that row's (R55, R59 to R68). -/
def Obligations.DecodeAcceptsExactlyTheTableWords : Prop :=
  ∀ w : Word,
    (∀ i, decode w = .ok i → ∃ r ∈ opcodeRows, r.covers w = true ∧ r.mnemonic = i.mnemonic) ∧
    (∀ r ∈ opcodeRows, r.covers w = true → ∃ i, decode w = .ok i ∧ i.mnemonic = r.mnemonic)

/-- Words written out from the bit pictures of R59 to R68 (95_test_vectors.md V-ENC) decode to the operations they stand
for. -/
def Obligations.SpecWordsDecode : Prop :=
  decode 0x1000005D#32 = .ok (.init 5#3 .gated true 2#2) ∧
  decode 0x20002580#32 = .ok (.startt0 9600#28) ∧
  decode 0x38000025#32 = .ok (.startcap 2 .falling .oneShot 4#5) ∧
  decode 0x4780012C#32 = .ok (.startpwm 1 .w10 .rising 300#11) ∧
  decode 0x540000C8#32 = .ok (.setduty 1 200#11) ∧
  decode 0x68010190#32 = .ok (.starttmr 2 400#16 .pulse) ∧
  decode 0x800003E8#32 = .ok (.tick 1000#16) ∧
  decode 0x94000001#32 = .ok (.edge 1 .rising) ∧
  decode 0xA0000000#32 = .ok .service ∧
  decode 0xB000001E#32 = .ok (.rd 0x1E#8)

/-- When the next word of the trace decodes to `i`, a step is `i` executed with that word taken off the trace (R50, R58). -/
def Obligations.StepRunsTheDecodedOperation : Prop :=
  ∀ (s : State) (w : Word) (rest : List Word) (i : Instr),
    s.trace = w :: rest → decode w = .ok i → step s = exec i { s with trace := rest }

/-- A step refuses a word with a reserved `op`, and a word that breaks a must-be-zero bit of its row (R70 (a), (b)). That a broken
must-be-zero bit is named before a broken operand condition is the model's choice (log entry 6). -/
def Obligations.StepRefusesReservedWords : Prop :=
  ∀ (s : State) (w : Word) (rest : List Word), s.trace = w :: rest →
    ((w.toNat / 2 ^ 28 = 0x0 ∨ w.toNat / 2 ^ 28 = 0x7 ∨ 0xC ≤ w.toNat / 2 ^ 28) → step s = .refused .reservedOp) ∧
    (w.toNat / 2 ^ 28 ≠ 0x0 → w.toNat / 2 ^ 28 ≠ 0x7 → w.toNat / 2 ^ 28 < 0xC →
      (∀ r ∈ opcodeRows, r.covers w = false) → step s = .refused .mustBeZero)

/-- `TICKS k` stands for words of at most 65535 counts that run as `k` counts (R58, R79). -/
def Obligations.TicksPseudoOperationRunsItsCounts : Prop :=
  ∀ (k : Nat) (s : State),
    runOps (expandTicks k) s = .next (countTimes k s) ∧
    (expandTicks k).length = k / 65535 + (if k % 65535 = 0 then 0 else 1) ∧
    ∀ i ∈ expandTicks k, ∃ c : Half, i = .tick c ∧ c ≠ 0#16

/-! ### Reset -/

/-- R38: at reset every register is zero, the pins show `PIN_RESET`, every channel is Unused and Continuous, `CB` is empty and
`IRQ = 0`, for all parameters. -/
def Obligations.ResetRegistersZero : Prop :=
  ∀ c : Config,
    (∀ i : Byte, i ≠ 0x06#8 → reg (State.resetWith c) i = 0#8) ∧
    (∀ n : ChanId, (reg (State.resetWith c) 0x06#8).getLsbD n.val = (c.hasChannel n && c.pinReset.get n)) ∧
    (reg (State.resetWith c) 0x06#8).extractLsb' 4 4 = 0#4 ∧
    (∀ n : ChanId, ((State.resetWith c).chan.get n).mode = .unused ∧
      ((State.resetWith c).chan.get n).captureMode = .continuous) ∧
    (State.resetWith c).cb = [] ∧ irq (State.resetWith c) = false

/-- R152: from reset, TICK, EDGE and RD change nothing but the read port's output: every RD answers 0x00 but one of `PINS`, which
answers the `PIN_RESET` bits; every channel is Unused, `IRQ = 0`, and SERVICE is not enabled. -/
def Obligations.BlockIsInertUntilTheFirstCommand : Prop :=
  ∀ (c : Config) (ops : List Instr) (pins : Byte),
    (∀ i ∈ ops, (∃ k, i = .tick k) ∨ (∃ n p, i = .edge n p ∧ c.hasChannel n = true) ∨ (∃ x, i = .rd x)) →
    (∀ n : ChanId, pins.getLsbD n.val = (c.hasChannel n && c.pinReset.get n)) → pins.extractLsb' 4 4 = 0#4 →
    ∃ t, runOps ops (State.resetWith c) = .next t ∧
      t = { State.resetWith c with
        rdOut := ops.filterMap fun
          | .rd x => some (if x = 0x06#8 then pins else 0x00#8)
          | _ => none } ∧
      (∀ n : ChanId, (t.chan.get n).mode = .unused) ∧
      irq t = false ∧ exec .service t = .refused .serviceNotEnabled

/-! ### Whole-machine rules -/

/-- The invariant holds in the reset state of every block with legal parameters. -/
def Obligations.ResetKeepsTheInvariant : Prop :=
  (∀ c : Config, c.wf = true → (State.resetWith c).Inv) ∧ State.reset.Inv

/-- Every step keeps the invariant: snapshots within 16 and 24 bits, shifts up to 23, control bytes and compare registers that
fit the mode, only R82's results and records, callbacks of existing channels, a block as reset before the first INIT and a
running counter after it. -/
def Obligations.EveryStepKeepsTheInvariant : Prop :=
  ∀ s t : State, s.Inv → step s = .next t → t.Inv

/-- R40: an operation changes no register outside its row of the write-set table. -/
def Obligations.OperationsWriteOnlyTheirWriteSet : Prop :=
  ∀ (i : Instr) (s t : State) (x : Byte), exec i s = .next t → reg t x ≠ reg s x →
    match i with
    | .init _ _ _ _ => x ∈ [0x00#8, 0x01#8, 0x02#8, 0x03#8, 0x04#8] ∨ ∃ m, x = chanIdx m 0x04
    | .startt0 _ => x ∈ [0x05#8, 0x08#8, 0x09#8, 0x0A#8]
    | .startcap n _ _ _ => x ∈ [0x00#8, 0x02#8, 0x03#8, chanIdx n 0x00, chanIdx n 0x04, chanIdx n 0x05] ∨
        ∃ m off, x = chanIdx m off ∧ (off = 0x06 ∨ 0x08 ≤ off ∧ off ≤ 0x0F)
    | .startpwm n _ _ _ => x ∈ [chanIdx n 0x00, chanIdx n 0x01, chanIdx n 0x02, chanIdx n 0x03, chanIdx n 0x04]
    | .setduty n _ => x ∈ [chanIdx n 0x01, chanIdx n 0x02, chanIdx n 0x03]
    | .starttmr n _ _ => x ∈ [chanIdx n 0x00, chanIdx n 0x01, chanIdx n 0x02, chanIdx n 0x04, chanIdx n 0x10, chanIdx n 0x11,
        chanIdx n 0x12, chanIdx n 0x13]
    | .tick _ => x ∈ [0x00#8, 0x02#8, 0x03#8, 0x06#8]
    | .edge n _ => x ∈ [0x00#8, chanIdx n 0x01, chanIdx n 0x02]
    | .service => x = 0x00#8 ∨ ∃ m off, x = chanIdx m off ∧
        (off ∈ [0x00, 0x01, 0x02, 0x04, 0x06, 0x12, 0x13] ∨ 0x08 ≤ off ∧ off ≤ 0x0F)
    | .rd _ => False

/-- Only SERVICE appends callbacks, only RD answers on the read port, an INIT is never forgotten, and no operation changes the
parameters or the trace (R35, R43, R153). -/
def Obligations.OutputsComeOnlyFromTheirOperations : Prop :=
  ∀ (i : Instr) (s t : State), exec i s = .next t →
    t.cfg = s.cfg ∧ t.trace = s.trace ∧
    (∃ evs, t.cb = s.cb ++ evs ∧ (evs ≠ [] → i = .service)) ∧
    (∃ bs, t.rdOut = s.rdOut ++ bs ∧ (bs ≠ [] → ∃ x, i = .rd x)) ∧
    (s.inited = true → t.inited = true) ∧
    (t.inited = true → s.inited = true ∨ ∃ clk m v r, i = .init clk m v r)

/-- R39: the mode of a channel moves only along the table of its lifecycle. -/
def Obligations.ChannelModeFollowsItsLifecycle : Prop :=
  ∀ (i : Instr) (s t : State) (n : ChanId), exec i s = .next t → s.cfg.hasChannel n = true →
    (t.chan.get n).mode =
      match i with
      | .init _ _ _ _ => .unused
      | .startcap m _ _ _ => if n = m then .capture else (s.chan.get n).mode
      | .startpwm m _ _ _ => if n = m then .pwm else (s.chan.get n).mode
      | .starttmr m _ .timer => if n = m then .timer else (s.chan.get n).mode
      | .starttmr m _ .pulse => if n = m then .pulse else (s.chan.get n).mode
      | .service =>
        if (s.chan.get n).mode = .capture ∧ (s.chan.get n).captureMode = .oneShot ∧ (s.chan.get n).ccf = true then .unused
        else (s.chan.get n).mode
      | .startt0 _ | .setduty _ _ | .tick _ | .edge _ _ | .rd _ => (s.chan.get n).mode

/-- A flag is cleared only by SERVICE (R133 (c), R33): every other operation leaves a set flag set. -/
def Obligations.FlagsAreClearedOnlyByService : Prop :=
  ∀ (i : Instr) (s t : State), exec i s = .next t → i ≠ .service →
    (s.cf = true → t.cf = true) ∧ ∀ n : ChanId, (s.chan.get n).ccf = true → (t.chan.get n).ccf = true

/-- R17, R18: the counter mode, the clock source code and the routing code are stored and do nothing: an operation runs the same
whatever they are, but for INIT, which writes them, and RD, which shows them. -/
def Obligations.ClockAndRouteCodesAreOnlyStored : Prop :=
  ∀ (i : Instr) (s t : State) (m : CounterMode) (clk : BitVec 3) (route : BitVec 2), exec i s = .next t →
    (∀ c m v r, i ≠ .init c m v r) → (∀ x, i = .rd x → x ≠ 0x01#8 ∧ x ≠ 0x04#8) →
    exec i { s with cmod := { s.cmod with cmode := m, cps := clk }, route := route }
      = .next { t with cmod := { t.cmod with cmode := m, cps := clk }, route := route }

/-- R153: every command but INIT is refused before the first INIT. -/
def Obligations.CommandsBeforeInitAreRefused : Prop :=
  ∀ (i : Instr) (s : State), s.inited = false → i.isCommand = true → (∀ clk m v r, i ≠ .init clk m v r) →
    exec i s = .refused .beforeInit

/-- The register space shows all of R15 to R30 (R41): two blocks with the same parameters that read the same at every index agree
on every field of the state there is for the array and its existing channels. -/
def Obligations.RegisterSpaceShowsTheWholeState : Prop :=
  ∀ s t : State, t.cfg = s.cfg → (∀ i : Byte, reg t i = reg s i) →
    t.cf = s.cf ∧ t.cr = s.cr ∧ t.cmod = s.cmod ∧ t.cl = s.cl ∧ t.ch = s.ch ∧ t.route = s.route ∧ t.result = s.result ∧
    t.t0 = s.t0 ∧ ∀ n : ChanId, s.cfg.hasChannel n = true → t.chan.get n = s.chan.get n

/-! ### Register layouts -/

/-- R71: the bits of `CCON`. -/
def Obligations.CconShowsTheFlags : Prop :=
  ∀ s : State,
    (reg s 0x00#8).getLsbD 7 = s.cf ∧ (reg s 0x00#8).getLsbD 6 = s.cr ∧ (reg s 0x00#8).extractLsb' 4 2 = 0#2 ∧
    ∀ n : ChanId, (reg s 0x00#8).getLsbD n.val = (s.cfg.hasChannel n && (s.chan.get n).ccf)

/-- R45: multi-byte quantities read low byte first. -/
def Obligations.MultiByteRegistersAreLittleEndian : Prop :=
  ∀ (s : State) (n : ChanId), s.cfg.hasChannel n = true →
    memRead s (chanIdx n 0x08) 4 = (s.chan.get n).capstart.toNat ∧
    memRead s (chanIdx n 0x0C) 4 = (s.chan.get n).capend.toNat ∧
    memRead s (chanIdx n 0x10) 2 = (s.chan.get n).tmrper.toNat ∧
    memRead s (chanIdx n 0x12) 2 = (s.chan.get n).tmrval.toNat ∧
    memRead s 0x09#8 2 = (s.t0.rh ++ s.t0.rl).toNat

/-- R44: a read of a reserved index returns 0x00 and has no effect: the indices R42 leaves out, and those of channels that do
not exist. -/
def Obligations.ReservedIndicesReadZero : Prop :=
  ∀ (s : State) (x : Byte),
    (x ∈ [0x07#8, 0x0B#8, 0x0C#8, 0x0D#8, 0x0E#8, 0x0F#8] ∨
      (∃ n off, x = chanIdx n off ∧ (off = 0x07 ∨ 0x14 ≤ off ∧ off ≤ 0x1F)) ∨
      0x10 + 0x20 * s.cfg.nch.toNat ≤ x.toNat) →
    exec (.rd x) s = .next { s with rdOut := s.rdOut ++ [0x00#8] }

/-- R43, R49: RD returns the byte at any index and changes no register. -/
def Obligations.ReadReturnsTheRegisterAndChangesNone : Prop :=
  ∀ (s : State) (x : Byte), ∃ t, exec (.rd x) s = .next t ∧
    t.rdOut = s.rdOut ++ [reg s x] ∧ (∀ i, reg t i = reg s i) ∧ irq t = irq s ∧
    t.cfg = s.cfg ∧ t.trace = s.trace ∧ t.inited = s.inited ∧ t.cb = s.cb

/-! ### Array commands -/

/-- R80, R81 (a): what INIT writes and what it leaves. -/
def Obligations.InitResetsModesAndStartsTheCounter : Prop :=
  ∀ (s : State) (clk : BitVec 3) (cmode : CounterMode) (ovfie : Bool) (route : BitVec 2),
    (s.cfg.routeCodes.has route = true → ∃ t, exec (.init clk cmode ovfie route) s = .next t ∧
      (∀ n : ChanId, s.cfg.hasChannel n = true →
        (t.chan.get n).mode = .unused ∧ reg t (chanIdx n 0x04) = reg s (chanIdx n 0x04) &&& 0xF8#8) ∧
      reg t 0x01#8 = BitVec.ofBool cmode.bit ++ 0#3 ++ clk ++ BitVec.ofBool ovfie ∧
      reg t 0x04#8 = 0#6 ++ route ∧
      reg t 0x02#8 = 0x00#8 ∧ reg t 0x03#8 = 0x00#8 ∧
      reg t 0x00#8 = reg s 0x00#8 ||| 0x40#8 ∧
      (∀ i, i ∉ [0x00#8, 0x01#8, 0x02#8, 0x03#8, 0x04#8] → (∀ n, i ≠ chanIdx n 0x04) → reg t i = reg s i) ∧
      t.cfg = s.cfg ∧ t.trace = s.trace ∧ t.inited = true ∧ t.cb = s.cb ∧ t.rdOut = s.rdOut) ∧
    (s.cfg.routeCodes.has route = false → exec (.init clk cmode ovfie route) s = .refused .routeUnsupported)

/-- R82, R138: STARTT0's result code and record, by the divisor. -/
def Obligations.Startt0ProgramsTheRecord : Prop :=
  ∀ (s : State) (freq : BitVec 28), s.inited = true →
    (freq = 0#28 → exec (.startt0 freq) s = .refused .freqZero) ∧
    (freq ≠ 0#28 → ∃ t, exec (.startt0 freq) s = .next t ∧
      (∀ i, i ∉ [0x05#8, 0x08#8, 0x09#8, 0x0A#8] → reg t i = reg s i) ∧ BesidesKept s t ∧
      (s.cfg.fCpu / freq.toNat = 0 → reg t 0x05#8 = 0xFF#8) ∧
      (786432 < s.cfg.fCpu / freq.toNat → reg t 0x05#8 = 0xFE#8) ∧
      (s.cfg.fCpu / freq.toNat = 0 ∨ 786432 < s.cfg.fCpu / freq.toNat →
        reg t 0x08#8 = reg s 0x08#8 ∧ reg t 0x09#8 = reg s 0x09#8 ∧ reg t 0x0A#8 = reg s 0x0A#8) ∧
      (1 ≤ s.cfg.fCpu / freq.toNat → s.cfg.fCpu / freq.toNat ≤ 786432 → reg t 0x05#8 = 0x00#8) ∧
      (1 ≤ s.cfg.fCpu / freq.toNat → s.cfg.fCpu / freq.toNat ≤ 256 →
        reg t 0x08#8 = 0x01#8 ∧ (reg t 0x09#8).toNat = (256 - s.cfg.fCpu / freq.toNat) % 256 ∧
        reg t 0x0A#8 = reg t 0x09#8) ∧
      (257 ≤ s.cfg.fCpu / freq.toNat → s.cfg.fCpu / freq.toNat ≤ 65536 →
        reg t 0x08#8 = 0x03#8 ∧ memRead t 0x09#8 2 = (65536 - s.cfg.fCpu / freq.toNat) % 65536) ∧
      (65537 ≤ s.cfg.fCpu / freq.toNat → s.cfg.fCpu / freq.toNat ≤ 786432 →
        reg t 0x08#8 = 0x07#8 ∧ memRead t 0x09#8 2 = (65536 - s.cfg.fCpu / freq.toNat / 12) % 65536))

/-- R83: a reload value `r` of a timer of `2^k` counts makes it overflow every `2^k - r` input clocks; the period of a successful
STARTT0 in system clocks is the divisor, at most 11 short of it behind the pre-divider. -/
def Obligations.Startt0PeriodIsTheDivisor : Prop :=
  ∀ (s : State) (freq : BitVec 28), s.inited = true → freq ≠ 0#28 →
    ∃ t, exec (.startt0 freq) s = .next t ∧
      (reg t 0x05#8 = 0x00#8 → ∃ period,
        period = (if (reg t 0x08#8).getLsbD 2 then 12 else 1) *
          (if (reg t 0x08#8).getLsbD 1 then 65536 - memRead t 0x09#8 2 else 256 - (reg t 0x09#8).toNat) ∧
        period ≤ s.cfg.fCpu / freq.toNat ∧ s.cfg.fCpu / freq.toNat - period ≤ 11 ∧
        ((reg t 0x08#8).getLsbD 2 = false → period = s.cfg.fCpu / freq.toNat))

/-! ### Channel commands -/

/-- R91: what STARTCAP writes in its channel and in the whole array, and what it leaves. A reserved STARTCAP is refused, under the
name of its reason where it has only one. -/
def Obligations.StartcapArmsTheChannelAndRestartsTheArray : Prop :=
  ∀ (s : State) (n : ChanId) (edge : EdgeSel) (mode : CaptureMode) (shift : BitVec 5), s.inited = true →
    (s.cfg.hasChannel n = false ∨ 23 < shift.toNat → ∃ r, exec (.startcap n edge mode shift) s = .refused r) ∧
    (s.cfg.hasChannel n = false → shift.toNat ≤ 23 → exec (.startcap n edge mode shift) s = .refused .channelAbsent) ∧
    (s.cfg.hasChannel n = true → 23 < shift.toNat → exec (.startcap n edge mode shift) s = .refused .shiftOutOfRange) ∧
    (s.cfg.hasChannel n = true → shift.toNat ≤ 23 → ∃ t, exec (.startcap n edge mode shift) s = .next t ∧
      reg t (chanIdx n 0x00) =
        (if edge.selectsRising then 0x20#8 else 0#8) + (if edge.selectsFalling then 0x10#8 else 0#8) + 0x01#8 ∧
      reg t (chanIdx n 0x04) = 0#4 ++ BitVec.ofBool mode.bit ++ 1#3 ∧
      reg t (chanIdx n 0x05) = 0#3 ++ shift ∧
      reg t 0x02#8 = 0x00#8 ∧ reg t 0x03#8 = 0x00#8 ∧ reg t 0x00#8 = reg s 0x00#8 ||| 0x40#8 ∧
      (∀ m off, off = 0x06 ∨ 0x08 ≤ off ∧ off ≤ 0x0F → reg t (chanIdx m off) = 0x00#8) ∧
      (∀ i, i ∉ [0x00#8, 0x02#8, 0x03#8, chanIdx n 0x00, chanIdx n 0x04, chanIdx n 0x05] →
        (∀ m off, (off = 0x06 ∨ 0x08 ≤ off ∧ off ≤ 0x0F) → i ≠ chanIdx m off) → reg t i = reg s i) ∧
      BesidesKept s t)

/-- R93, R94: what STARTPWM writes in its channel, with `v = 2^W - high`, and what it leaves. A reserved STARTPWM is refused, under
the name of its reason where it has only one. -/
def Obligations.StartpwmConfiguresTheOutput : Prop :=
  ∀ (s : State) (n : ChanId) (w : PwmWidth) (trig : EdgeSel) (high : BitVec 11), s.inited = true →
    (s.cfg.hasChannel n = false ∨ s.cfg.pwmWidths.has w = false ∨ 2 ^ w.bits < high.toNat →
      ∃ r, exec (.startpwm n w trig high) s = .refused r) ∧
    (s.cfg.hasChannel n = false → s.cfg.pwmWidths.has w = true → high.toNat ≤ 2 ^ w.bits →
      exec (.startpwm n w trig high) s = .refused .channelAbsent) ∧
    (s.cfg.hasChannel n = true → s.cfg.pwmWidths.has w = false → high.toNat ≤ 2 ^ w.bits →
      exec (.startpwm n w trig high) s = .refused .widthUnsupported) ∧
    (s.cfg.hasChannel n = true → s.cfg.pwmWidths.has w = true → 2 ^ w.bits < high.toNat →
      exec (.startpwm n w trig high) s = .refused .highOutOfRange) ∧
    (s.cfg.hasChannel n = true → s.cfg.pwmWidths.has w = true → high.toNat ≤ 2 ^ w.bits →
      ∃ t, exec (.startpwm n w trig high) s = .next t ∧
        (reg t (chanIdx n 0x01)).toNat = (2 ^ w.bits - high.toNat) % 2 ^ min w.bits 8 ∧
        reg t (chanIdx n 0x02) = reg t (chanIdx n 0x01) ∧
        (∃ x : BitVec 2, x.toNat = (if w = .w10 then (2 ^ w.bits - high.toNat) / 2 ^ 8 % 2 ^ 2 else 0) ∧
          reg t (chanIdx n 0x03) =
            w.code ++ x ++ x ++ BitVec.ofBool (decide (high = 0#11)) ++ BitVec.ofBool (decide (high = 0#11))) ∧
        reg t (chanIdx n 0x00) = 0x42#8 + (if trig.selectsRising then 0x20#8 else 0#8)
          + (if trig.selectsFalling then 0x10#8 else 0#8) + (if trig ≠ .none then 0x01#8 else 0#8) ∧
        reg t (chanIdx n 0x04) = (reg s (chanIdx n 0x04) &&& 0x08#8) ||| 0x02#8 ∧
        (∀ i, i ∉ [chanIdx n 0x00, chanIdx n 0x01, chanIdx n 0x02, chanIdx n 0x03, chanIdx n 0x04] → reg t i = reg s i) ∧
        BesidesKept s t)

/-- R95: SETDUTY reads the width back from `EBS`, keeps it, and changes only the compare value. A reserved SETDUTY is refused, one on
an absent channel included (R90 (a)); of the reasons on an existing channel a single one is named. -/
def Obligations.SetdutyChangesOnlyTheCompareValue : Prop :=
  ∀ (s : State) (n : ChanId) (high : BitVec 11) (w : PwmWidth), s.inited = true →
    w = PwmWidth.ofCode ((reg s (chanIdx n 0x03)).extractLsb' 6 2) →
    (s.cfg.hasChannel n = false ∨ (s.chan.get n).mode ≠ .pwm ∨ 2 ^ w.bits < high.toNat →
      ∃ r, exec (.setduty n high) s = .refused r) ∧
    (s.cfg.hasChannel n = true → (s.chan.get n).mode ≠ .pwm → high.toNat ≤ 2 ^ w.bits →
      exec (.setduty n high) s = .refused .notPwmChannel) ∧
    (s.cfg.hasChannel n = true → (s.chan.get n).mode = .pwm → 2 ^ w.bits < high.toNat →
      exec (.setduty n high) s = .refused .highOutOfRange) ∧
    (s.cfg.hasChannel n = true → (s.chan.get n).mode = .pwm → high.toNat ≤ 2 ^ w.bits → ∃ t, exec (.setduty n high) s = .next t ∧
      (reg t (chanIdx n 0x01)).toNat = (2 ^ w.bits - high.toNat) % 2 ^ min w.bits 8 ∧
      reg t (chanIdx n 0x02) = reg t (chanIdx n 0x01) ∧
      (∃ x : BitVec 2, x.toNat = (if w = .w10 then (2 ^ w.bits - high.toNat) / 2 ^ 8 % 2 ^ 2 else 0) ∧
        reg t (chanIdx n 0x03) = (reg s (chanIdx n 0x03)).extractLsb' 6 2 ++ x ++ x
          ++ BitVec.ofBool (decide (high = 0#11)) ++ BitVec.ofBool (decide (high = 0#11))) ∧
      (∀ i, i ∉ [chanIdx n 0x01, chanIdx n 0x02, chanIdx n 0x03] → reg t i = reg s i) ∧
      BesidesKept s t)

/-- R98: SETDUTY after STARTPWM leaves the block as STARTPWM with the new high time would have; the width is kept, and the output is
high for the new number of counts in each period. -/
def Obligations.SetdutyAfterStartpwmIsStartpwm : Prop :=
  ∀ (s : State) (n : ChanId) (w : PwmWidth) (trig : EdgeSel) (x y : BitVec 11), s.inited = true →
    s.cfg.hasChannel n = true → s.cfg.pwmWidths.has w = true → x.toNat ≤ 2 ^ w.bits → y.toNat ≤ 2 ^ w.bits →
    ∃ t u, exec (.startpwm n w trig x) s = .next t ∧ exec (.setduty n y) t = .next u ∧
      exec (.startpwm n w trig y) s = .next u ∧ (reg u (chanIdx n 0x03)).extractLsb' 6 2 = w.code ∧
      (List.range (2 ^ w.bits)).countP (fun c => (u.chan.get n).pwmOut (BitVec.ofNat 16 c)) = y.toNat

/-- R98, R112: after STARTPWM the output is high from the compare value to the end of each period: exactly `high` of the `2^W`
counts. -/
def Obligations.PwmOutputIsHighForHighCounts : Prop :=
  ∀ (s t : State) (n : ChanId) (w : PwmWidth) (trig : EdgeSel) (high : BitVec 11),
    exec (.startpwm n w trig high) s = .next t →
    (∀ c : Half, (t.chan.get n).pwmOut c = decide (2 ^ w.bits - high.toNat ≤ c.toNat % 2 ^ w.bits)) ∧
    (List.range (2 ^ w.bits)).countP (fun c => (t.chan.get n).pwmOut (BitVec.ofNat 16 c)) = high.toNat

/-- R96: what STARTTMR writes in its channel, and what it leaves. -/
def Obligations.StarttmrSetsPeriodAndFirstCompare : Prop :=
  ∀ (s : State) (n : ChanId) (period : Half) (out : TimerOutput), s.inited = true →
    (s.cfg.hasChannel n = false → exec (.starttmr n period out) s = .refused .channelAbsent) ∧
    (s.cfg.hasChannel n = true → ∃ t, exec (.starttmr n period out) s = .next t ∧
      reg t (chanIdx n 0x00) = (if out = .pulse then 0x4D#8 else 0x49#8) ∧
      reg t (chanIdx n 0x01) = period.extractLsb' 0 8 ∧ reg t (chanIdx n 0x02) = period.extractLsb' 8 8 ∧
      reg t (chanIdx n 0x04) = (reg s (chanIdx n 0x04) &&& 0x08#8) ||| (if out = .pulse then 0x04#8 else 0x03#8) ∧
      memRead t (chanIdx n 0x10) 2 = period.toNat ∧ memRead t (chanIdx n 0x12) 2 = period.toNat ∧
      (∀ i, i ∉ [chanIdx n 0x00, chanIdx n 0x01, chanIdx n 0x02, chanIdx n 0x04, chanIdx n 0x10, chanIdx n 0x11,
        chanIdx n 0x12, chanIdx n 0x13] → reg t i = reg s i) ∧
      BesidesKept s t)

/-- R97 (a), (b), R164: the first match of a timer comes after `(period - CNT) mod 65536` counts, 65536 when that is 0, and not
before. -/
def Obligations.TimerFirstMatchComesAtItsDistance : Prop :=
  ∀ (s t : State) (n : ChanId) (period : Half) (out : TimerOutput) (d : Nat),
    exec (.starttmr n period out) s = .next t → s.cr = true → (s.chan.get n).ccf = false →
    d = (if period = s.cnt then 65536 else (period - s.cnt).toNat) →
    (∀ k, k < d → ((countTimes k t).chan.get n).ccf = false) ∧ ((countTimes d t).chan.get n).ccf = true ∧
    (countTimes d t).cnt = period

/-- R97 (c), R161: the accumulator of every channel stays a multiple of its period, whatever happens and however late it is
served. -/
def Obligations.TimerValuesStayOnThePeriodGrid : Prop :=
  (∀ (c : Config) (n : ChanId), ∃ j : Nat,
    ((State.resetWith c).chan.get n).tmrval = BitVec.ofNat 16 (j * ((State.resetWith c).chan.get n).tmrper.toNat)) ∧
  ∀ (s t : State) (n : ChanId), step s = .next t →
    (∃ j : Nat, (s.chan.get n).tmrval = BitVec.ofNat 16 (j * (s.chan.get n).tmrper.toNat)) →
    ∃ j : Nat, (t.chan.get n).tmrval = BitVec.ofNat 16 (j * (t.chan.get n).tmrper.toNat)

/-! ### Events -/

/-- R110, R116: while `CR = 0` a TICK changes nothing, and a TICK of 0 counts never does. -/
def Obligations.TickDoesNothingWhileStopped : Prop :=
  ∀ (s : State) (k : Half), s.cr = false ∨ k = 0#16 → exec (.tick k) s = .next s

/-- R110 over a whole TICK word: the counter advances modulo 65536, `CF` is set when it wraps, no flag is cleared, and only
`CCON`, `CL`, `CH` and `PINS` change. -/
def Obligations.TickAdvancesTheCounter : Prop :=
  ∀ (s : State) (k : Half), s.cr = true → ∃ t, exec (.tick k) s = .next t ∧
    t.cnt = s.cnt + k ∧ t.cf = (s.cf || decide (65536 ≤ s.cnt.toNat + k.toNat)) ∧ t.cr = true ∧
    (∀ n : ChanId, (s.chan.get n).ccf = true → (t.chan.get n).ccf = true) ∧
    (∀ i, i ∉ [0x00#8, 0x02#8, 0x03#8, 0x06#8] → reg t i = reg s i) ∧ BesidesKept s t

/-- R110, R111, R113: what one count does to the flag and the pin of each channel, by the bits of its `CCAPM`. -/
def Obligations.OneCountMatchesAndDrivesThePins : Prop :=
  ∀ (s : State) (n : ChanId), s.cr = true → s.cfg.hasChannel n = true → ∃ t, exec (.tick 1#16) s = .next t ∧
    t.cnt = s.cnt + 1#16 ∧ t.cf = (s.cf || decide (s.cnt = 0xFFFF#16)) ∧
    -- neither an equality nor a PWM output: flag and pin stay
    ((s.chan.get n).ccapm.ecom = false ∨
        ((s.chan.get n).ccapm.mat = false ∨ s.cnt + 1#16 ≠ (s.chan.get n).ccap) ∧ (s.chan.get n).ccapm.pwm = false →
      t.chan.get n = s.chan.get n) ∧
    -- an equality without PWM: the flag is set, and the pin toggles with TOG
    ((s.chan.get n).ccapm.ecom = true → (s.chan.get n).ccapm.mat = true → (s.chan.get n).ccapm.pwm = false →
      s.cnt + 1#16 = (s.chan.get n).ccap →
      t.chan.get n = { s.chan.get n with
        ccf := true, pin := if (s.chan.get n).ccapm.tog then !(s.chan.get n).pin else (s.chan.get n).pin }) ∧
    -- a PWM output without MAT: the pin takes the output level, and a selected edge sets the flag
    ((s.chan.get n).ccapm.ecom = true → (s.chan.get n).ccapm.mat = false → (s.chan.get n).ccapm.pwm = true →
      t.chan.get n = { s.chan.get n with
        pin := (s.chan.get n).pwmOut (s.cnt + 1#16)
        ccf := (s.chan.get n).ccf
          || (!(s.chan.get n).pin && (s.chan.get n).pwmOut (s.cnt + 1#16) && (s.chan.get n).ccapm.capp)
          || ((s.chan.get n).pin && !(s.chan.get n).pwmOut (s.cnt + 1#16) && (s.chan.get n).ccapm.capn) })

/-- R58: TICK words with nothing between them compose. -/
def Obligations.TickWordsCompose : Prop :=
  ∀ (s : State) (a b : Half), a.toNat + b.toNat < 65536 →
    ∃ t, exec (.tick a) s = .next t ∧ exec (.tick b) t = exec (.tick (a + b)) s

/-- R110: the channels do not affect one another: what TICKs do to a channel depends on its own state, the counter and the run
bit alone. -/
def Obligations.TicksKeepChannelsIndependent : Prop :=
  ∀ (s s' t t' : State) (n : ChanId) (k : Half),
    s.cfg.hasChannel n = s'.cfg.hasChannel n → s.cr = s'.cr → s.cnt = s'.cnt → s.chan.get n = s'.chan.get n →
    exec (.tick k) s = .next t → exec (.tick k) s' = .next t' →
    t.chan.get n = t'.chan.get n ∧ t.cnt = t'.cnt

/-- R114: an armed edge on a channel that is no PWM output captures the counter and sets the flag; any other changes nothing. -/
def Obligations.EdgeCapturesTheCounterWhenArmed : Prop :=
  ∀ (s : State) (n : ChanId) (pol : Polarity),
    (s.cfg.hasChannel n = false → exec (.edge n pol) s = .refused .channelAbsent) ∧
    (s.cfg.hasChannel n = true → ∃ t, exec (.edge n pol) s = .next t ∧
      ((reg s (chanIdx n 0x00)).getLsbD (if pol = .rising then 5 else 4) = true →
        (reg s (chanIdx n 0x00)).getLsbD 1 = false →
        reg t (chanIdx n 0x01) = reg s 0x02#8 ∧ reg t (chanIdx n 0x02) = reg s 0x03#8 ∧
        reg t 0x00#8 = reg s 0x00#8 ||| (1#8 <<< n.val) ∧
        (∀ i, i ∉ [0x00#8, chanIdx n 0x01, chanIdx n 0x02] → reg t i = reg s i) ∧ BesidesKept s t) ∧
      ((reg s (chanIdx n 0x00)).getLsbD (if pol = .rising then 5 else 4) = false ∨
        (reg s (chanIdx n 0x00)).getLsbD 1 = true → t = s))

/-- R157: a second captured edge before SERVICE overwrites the first: one match is served, its end snapshot is the second edge, and
one callback is emitted. -/
def Obligations.SecondCaptureOverwritesTheFirst : Prop :=
  ∀ (s : State) (n : ChanId) (p q : Polarity) (k : Half), s.cfg.hasChannel n = true →
    (s.chan.get n).captures p = true → (s.chan.get n).captures q = true → (s.chan.get n).mode = .capture →
    (s.chan.get n).ccapm.eccf = true →
    ∃ t u evs, runOps [.edge n p, .tick k, .edge n q] s = .next t ∧ exec .service t = .next u ∧
      (t.chan.get n).ccap = (if s.cr then s.cnt + k else s.cnt) ∧
      (u.chan.get n).capend.toNat % 2 ^ 16 = (t.chan.get n).ccap.toNat ∧
      (u.chan.get n).capstart.toNat = (t.chan.get n).ccap.toNat ∧
      u.cb = s.cb ++ evs ∧ (evs.filter fun e => e.channel = n).length = 1

/-! ### The interrupt request and SERVICE -/

/-- R131: the request line, by the bits of `CCON`, `CMOD` and every `CCAPM`. -/
def Obligations.IrqIsTheOrOfTheEnabledFlags : Prop :=
  ∀ s : State, irq s = true ↔
    ((reg s 0x00#8).getLsbD 7 = true ∧ (reg s 0x01#8).getLsbD 0 = true) ∨
    ∃ n : ChanId, s.cfg.hasChannel n = true ∧ (reg s 0x00#8).getLsbD n.val = true ∧
      (reg s (chanIdx n 0x00)).getLsbD 0 = true

/-- R128: SERVICE is enabled exactly when `IRQ = 1`. -/
def Obligations.ServiceIsEnabledExactlyByIrq : Prop :=
  ∀ s : State, (irq s = true → ∃ t, exec .service s = .next t) ∧
    (irq s = false → exec .service s = .refused .serviceNotEnabled)

/-- R127: after SERVICE every flag is clear and `IRQ = 0`; of the array registers only the flags of `CCON` change. -/
def Obligations.ServiceClearsEveryFlag : Prop :=
  ∀ s : State, irq s = true → ∃ t, exec .service s = .next t ∧
    t.cf = false ∧ (∀ n, s.cfg.hasChannel n = true → (t.chan.get n).ccf = false) ∧ irq t = false ∧
    reg t 0x00#8 = reg s 0x00#8 &&& 0x40#8 ∧
    (∀ i : Byte, i.toNat < 0x10 → i ≠ 0x00#8 → reg t i = reg s i) ∧
    t.cfg = s.cfg ∧ t.trace = s.trace ∧ t.inited = s.inited ∧ t.rdOut = s.rdOut

/-- R119: step 1 counts one overflow into every active channel; a channel without a set flag is changed by nothing else and emits
nothing. -/
def Obligations.ServiceCountsOneOverflowPerActiveChannel : Prop :=
  ∀ (s : State) (n : ChanId), irq s = true → s.cfg.hasChannel n = true → (s.chan.get n).ccf = false →
    ∃ t evs, exec .service s = .next t ∧ t.cb = s.cb ++ evs ∧ (∀ e ∈ evs, e.channel ≠ n) ∧
      t.chan.get n =
        { s.chan.get n with
          capovf := if s.cf = true ∧ (s.chan.get n).mode ≠ .unused then (s.chan.get n).capovf + 1#8
            else (s.chan.get n).capovf }

/-- R121: the Capture arm. `ov` is the overflow count after step 1, so an overflow served together with the match is in the end
snapshot. -/
def Obligations.ServiceCaptureArm : Prop :=
  ∀ (s : State) (n : ChanId) (ov : Byte), irq s = true → s.cfg.hasChannel n = true → (s.chan.get n).ccf = true →
    (s.chan.get n).mode = .capture →
    ov = (if s.cf then reg s (chanIdx n 0x06) + 1#8 else reg s (chanIdx n 0x06)) →
    ∃ t evs, exec .service s = .next t ∧
      memRead t (chanIdx n 0x0C) 4 =
        (reg s (chanIdx n 0x01)).toNat + 2 ^ 8 * (reg s (chanIdx n 0x02)).toNat + 2 ^ 16 * ov.toNat ∧
      memRead t (chanIdx n 0x08) 4 = (reg s (chanIdx n 0x01)).toNat + 2 ^ 8 * (reg s (chanIdx n 0x02)).toNat ∧
      reg t (chanIdx n 0x06) = 0x00#8 ∧
      ((s.chan.get n).captureMode = .oneShot → reg t (chanIdx n 0x00) = 0x00#8 ∧ reg t (chanIdx n 0x04) = 0x08#8) ∧
      ((s.chan.get n).captureMode = .continuous →
        reg t (chanIdx n 0x00) = reg s (chanIdx n 0x00) ∧ reg t (chanIdx n 0x04) = reg s (chanIdx n 0x04)) ∧
      (∀ off, off ∈ [0x01, 0x02, 0x03, 0x05, 0x10, 0x11, 0x12, 0x13] → reg t (chanIdx n off) = reg s (chanIdx n off)) ∧
      (t.chan.get n).ccf = false ∧ (t.chan.get n).pin = (s.chan.get n).pin ∧
      t.cb = s.cb ++ evs ∧
      (evs.filter fun e => e.channel = n) =
        [{ channel := n,
           duration := durationOf
             (BitVec.ofNat 32 (memRead t (chanIdx n 0x0C) 4) - (s.chan.get n).capstart) (s.chan.get n).shift }]

/-- R123: the Timer and Pulse arm: additive reload and a callback with duration 0. -/
def Obligations.ServiceTimerArm : Prop :=
  ∀ (s : State) (n : ChanId), irq s = true → s.cfg.hasChannel n = true → (s.chan.get n).ccf = true →
    (s.chan.get n).mode = .timer ∨ (s.chan.get n).mode = .pulse →
    ∃ t evs, exec .service s = .next t ∧
      (t.chan.get n).tmrval = (s.chan.get n).tmrval + (s.chan.get n).tmrper ∧
      (t.chan.get n).ccap = (t.chan.get n).tmrval ∧
      t.chan.get n =
        { s.chan.get n with
          ccf := false
          tmrval := (t.chan.get n).tmrval
          ccapl := (t.chan.get n).tmrval.extractLsb' 0 8
          ccaph := (t.chan.get n).tmrval.extractLsb' 8 8
          capovf := if s.cf then (s.chan.get n).capovf + 1#8 else (s.chan.get n).capovf } ∧
      t.cb = s.cb ++ evs ∧ (evs.filter fun e => e.channel = n) = [{ channel := n, duration := 0x0000#16 }]

/-- R124, R125: the PWM arm only emits a callback with duration 0; the Unused arm does nothing; both flags are cleared. -/
def Obligations.ServicePwmAndUnusedArms : Prop :=
  ∀ (s : State) (n : ChanId), irq s = true → s.cfg.hasChannel n = true → (s.chan.get n).ccf = true →
    ((s.chan.get n).mode = .pwm → ∃ t evs, exec .service s = .next t ∧
      t.chan.get n = { s.chan.get n with
        ccf := false, capovf := if s.cf then (s.chan.get n).capovf + 1#8 else (s.chan.get n).capovf } ∧
      t.cb = s.cb ++ evs ∧ (evs.filter fun e => e.channel = n) = [{ channel := n, duration := 0x0000#16 }]) ∧
    ((s.chan.get n).mode = .unused → ∃ t evs, exec .service s = .next t ∧
      t.chan.get n = { s.chan.get n with ccf := false } ∧
      t.cb = s.cb ++ evs ∧ (evs.filter fun e => e.channel = n) = [])

/-- R126: the callbacks of one pass stand in ascending channel order, at most one per channel, and exactly the flagged channels
that are not Unused emit one. -/
def Obligations.ServiceCallbacksAscend : Prop :=
  ∀ s : State, irq s = true → ∃ t evs, exec .service s = .next t ∧ t.cb = s.cb ++ evs ∧
    (evs.map CallbackEvent.channel).Pairwise (· < ·) ∧
    ∀ n : ChanId, n ∈ evs.map CallbackEvent.channel ↔
      s.cfg.hasChannel n = true ∧ (s.chan.get n).ccf = true ∧ (s.chan.get n).mode ≠ .unused

/-! ### Durations and intervals -/

/-- R122: the duration is the shifted count, 0xFFFF exactly when bits 23:16 of the shifted count are not zero. -/
def Obligations.DurationShiftsAndSaturates : Prop :=
  ∀ (elapsed : BitVec 32) (sh : BitVec 5),
    (elapsed.toNat / 2 ^ sh.toNat / 2 ^ 16 % 2 ^ 8 ≠ 0 → durationOf elapsed sh = 0xFFFF#16) ∧
    (elapsed.toNat / 2 ^ sh.toNat / 2 ^ 16 % 2 ^ 8 = 0 →
      (durationOf elapsed sh).toNat = elapsed.toNat / 2 ^ sh.toNat % 2 ^ 16)

/-- R129 (b), (c), (d): a difference of snapshots that is not negative reports the quotient clamped to 65535; a negative one
reports 0xFFFF up to a shift of 15 and `2^(32-sh) - 1` beyond. -/
def Obligations.DurationOfASnapshotDifference : Prop :=
  ∀ (e b : BitVec 32) (sh : BitVec 5), e.toNat < 2 ^ 24 → b.toNat < 2 ^ 16 → sh.toNat ≤ 23 →
    (b.toNat ≤ e.toNat → (durationOf (e - b) sh).toNat = min ((e.toNat - b.toNat) / 2 ^ sh.toNat) 65535) ∧
    (e.toNat < b.toNat → sh.toNat ≤ 15 → durationOf (e - b) sh = 0xFFFF#16) ∧
    (e.toNat < b.toNat → 16 ≤ sh.toNat → (durationOf (e - b) sh).toNat = 2 ^ (32 - sh.toNat) - 1)

/-- R92 (c), R129 (a): from STARTCAP with the overflow interrupt enabled and no flag pending, a Continuous channel measures from
the restart. -/
def Obligations.StartcapBeginsAMeasuredInterval : Prop :=
  ∀ (s : State) (n : ChanId) (e : EdgeSel) (sh : BitVec 5), s.inited = true → s.cfg.hasChannel n = true → sh.toNat ≤ 23 →
    s.cmod.ecf = true → s.cf = false → (s.chan.get n).ccf = false →
    ∃ t, exec (.startcap n e .continuous sh) s = .next t ∧ Measuring n e sh 0 t

/-- R168, R129 (a): under prompt service, with the overflow interrupt enabled and fewer than 256 wraps in the interval, a captured
edge reports `duration(T, shift)` for the exact number `T` of TICKs since the edge or restart before it, whatever else happens on
the other channels; and the next interval begins there. -/
def Obligations.PromptCaptureReportsTheExactTicks : Prop :=
  ∀ (s u : State) (n : ChanId) (e : EdgeSel) (sh : BitVec 5) (t0 : Nat) (ops : List Instr) (pol : Polarity),
    Measuring n e sh t0 s → selects e pol = true → (∀ i ∈ ops, leavesInterval n e i = true) →
    runOps ops s = .next u → promptOps (ops ++ [.edge n pol]) s →
    (s.chan.get n).capstart.toNat + t0 + totalTicks ops < 2 ^ 24 →
    ∃ v w evs, exec (.edge n pol) u = .next v ∧ exec .service v = .next w ∧ w.cb = u.cb ++ evs ∧
      (evs.filter fun ev => ev.channel = n) =
        [{ channel := n, duration := durationOf (BitVec.ofNat 32 (t0 + totalTicks ops)) sh }] ∧
      Measuring n e sh 0 w

/-- R158 (d): an overflow flag pending at STARTCAP survives it and is counted into the first interval, which comes out 65536
too long. -/
def Obligations.StaleOverflowSurvivesStartcap : Prop :=
  ∀ (s : State) (n : ChanId) (e : EdgeSel) (mode : CaptureMode) (sh : BitVec 5) (k : Half) (pol : Polarity),
    s.inited = true → s.cfg.hasChannel n = true → sh.toNat ≤ 23 → s.cf = true → selects e pol = true →
    ∃ t u, runOps [.startcap n e mode sh, .tick k, .edge n pol] s = .next t ∧ exec .service t = .next u ∧
      (u.chan.get n).capend.toNat = 65536 + k.toNat ∧
      ∃ evs, u.cb = s.cb ++ evs ∧
        (evs.filter fun ev => ev.channel = n) = [{ channel := n, duration := durationOf (BitVec.ofNat 32 (65536 + k.toNat)) sh }]

/-! ### Which reason a refusal names -/

/-- R70 (c), R90 (a): the reason named where several hold is the model's choice (log entry 6): after an INIT the absent channel
before the operation's own conditions, then the unsupported width and the missing PWM mode before the high time. -/
def Obligations.RefusalsNameTheFirstReason : Prop :=
  ∀ (s : State) (n : ChanId), s.inited = true →
    (s.cfg.hasChannel n = false →
      (∀ edge mode shift, exec (.startcap n edge mode shift) s = .refused .channelAbsent) ∧
      (∀ w trig high, exec (.startpwm n w trig high) s = .refused .channelAbsent) ∧
      (∀ high, exec (.setduty n high) s = .refused .channelAbsent)) ∧
    (s.cfg.hasChannel n = true →
      (∀ w trig high, s.cfg.pwmWidths.has w = false → exec (.startpwm n w trig high) s = .refused .widthUnsupported) ∧
      (∀ high, (s.chan.get n).mode ≠ .pwm → exec (.setduty n high) s = .refused .notPwmChannel))
end

