-- ==== Sys2Proof/Laws/PerInstr.lean ====
section
/-! SUPPORT. A law stated for every operation: its word carries its `op` in bits 31:28 (R55, R57, R58), whatever its operands. -/
namespace Sys2Proof.Laws.OpField

/-- The field `op` of the word of `i` is the code of `i` (R55). -/
def Statement (i : Instr) : Prop :=
  opField (encode i) = i.opcode

/-- A bit placed below bit 28 from a field that ends there is not in `op`. -/
theorem field_low {len : Nat} (v : BitVec len) (lo : Nat) (h : lo + len ≤ 28) : opField (placeAt v lo) = 0#4 := by
  apply BitVec.eq_of_getLsbD_eq
  intro i hi
  simp only [opField, fieldAt, placeAt, BitVec.getLsbD_extractLsb', BitVec.getLsbD_shiftLeft, BitVec.getLsbD_setWidth,
    BitVec.getLsbD_zero]
  rw [BitVec.getLsbD_of_ge v _ (by omega)]
  simp

theorem field_or (x y : Word) : opField (x ||| y) = opField x ||| opField y := by
  apply BitVec.eq_of_getLsbD_eq
  intro i hi
  simp [opField, fieldAt, hi]

theorem field_op (v : BitVec 4) : opField (placeAt v 28) = v := by
  apply BitVec.eq_of_getLsbD_eq
  intro i hi
  simp only [opField, fieldAt, placeAt, BitVec.getLsbD_extractLsb', BitVec.getLsbD_shiftLeft, BitVec.getLsbD_setWidth, hi]
  simp only [show ¬28 + i < 28 by omega, show 28 + i - 28 = i by omega, show 28 + i < 32 by omega, show i < 32 by omega]
  simp

theorem of_operands {i : Instr} (h : opField (operandBits i) = 0#4) : Statement i := by
  rw [Statement, encode, field_or, field_op, h, BitVec.or_zero]

theorem init (clk : BitVec 3) (cmode : CounterMode) (ovfie : Bool) (route : BitVec 2) :
    Statement (.init clk cmode ovfie route) :=
  of_operands (by simp [operandBits, field_or, field_low])

theorem startt0 (freq : BitVec 28) : Statement (.startt0 freq) :=
  of_operands (by simp [operandBits, field_low])

theorem startcap (ch : ChanId) (edge : EdgeSel) (mode : CaptureMode) (shift : BitVec 5) :
    Statement (.startcap ch edge mode shift) :=
  of_operands (by simp [operandBits, field_or, field_low])

theorem startpwm (ch : ChanId) (width : PwmWidth) (trig : EdgeSel) (high : BitVec 11) :
    Statement (.startpwm ch width trig high) :=
  of_operands (by simp [operandBits, field_or, field_low])

theorem setduty (ch : ChanId) (high : BitVec 11) : Statement (.setduty ch high) :=
  of_operands (by simp [operandBits, field_or, field_low])

theorem starttmr (ch : ChanId) (period : Half) (out : TimerOutput) : Statement (.starttmr ch period out) :=
  of_operands (by simp [operandBits, field_or, field_low])

theorem tick (count : Half) : Statement (.tick count) :=
  of_operands (by simp [operandBits, field_low])

theorem edge (ch : ChanId) (pol : Polarity) : Statement (.edge ch pol) :=
  of_operands (by simp [operandBits, field_or, field_low])

theorem service : Statement .service :=
  of_operands (by decide)

theorem rd (idx : Byte) : Statement (.rd idx) :=
  of_operands (by simp [operandBits, field_low])

end Sys2Proof.Laws.OpField
end

