-- ==== Sys2Proof/Laws/Encoding.lean ====
section
/-! SUPPORT. The codes of the enumerated fields are read back as they were written, and a field placed in a word is read back from
its place (R69, R77, R78). -/
namespace Sys2Proof

@[simp] theorem CounterMode.ofBit_bit (m : CounterMode) : CounterMode.ofBit m.bit = m := by cases m <;> rfl
@[simp] theorem CounterMode.bit_ofBit (b : Bool) : (CounterMode.ofBit b).bit = b := by cases b <;> rfl
@[simp] theorem EdgeSel.ofCode_code (e : EdgeSel) : EdgeSel.ofCode e.code = e := by cases e <;> rfl
@[simp] theorem EdgeSel.code_ofCode (c : BitVec 2) : (EdgeSel.ofCode c).code = c := by revert c; decide
@[simp] theorem CaptureMode.ofBit_bit (m : CaptureMode) : CaptureMode.ofBit m.bit = m := by cases m <;> rfl
@[simp] theorem CaptureMode.bit_ofBit (b : Bool) : (CaptureMode.ofBit b).bit = b := by cases b <;> rfl
@[simp] theorem PwmWidth.ofCode_code (w : PwmWidth) : PwmWidth.ofCode w.code = w := by cases w <;> rfl
@[simp] theorem PwmWidth.code_ofCode (c : BitVec 2) : (PwmWidth.ofCode c).code = c := by revert c; decide
@[simp] theorem TimerOutput.ofBit_bit (o : TimerOutput) : TimerOutput.ofBit o.bit = o := by cases o <;> rfl
@[simp] theorem TimerOutput.bit_ofBit (b : Bool) : (TimerOutput.ofBit b).bit = b := by cases b <;> rfl
@[simp] theorem Polarity.ofBit_bit (p : Polarity) : Polarity.ofBit p.bit = p := by cases p <;> rfl
@[simp] theorem Polarity.bit_ofBit (b : Bool) : (Polarity.ofBit b).bit = b := by cases b <;> rfl

/-- The channel number read from a word is written back as the same two bits (R56). -/
@[simp] theorem chCode_chField (w : Word) : chCode (chField w) = fieldAt w 26 2 := by
  simp [chCode, chField]

/-- A field of a combination of words is the combination of their fields. -/
theorem fieldAt_or (x y : Word) (lo len : Nat) : fieldAt (x ||| y) lo len = fieldAt x lo len ||| fieldAt y lo len := by
  apply BitVec.eq_of_getLsbD_eq
  intro i hi
  simp [fieldAt, hi]

/-- A field is read back from its own place. -/
theorem fieldAt_placeAt {len : Nat} (v : BitVec len) (lo : Nat) (h : lo + len ≤ 32) : fieldAt (placeAt v lo) lo len = v := by
  apply BitVec.eq_of_getLsbD_eq
  intro i hi
  simp only [fieldAt, placeAt, BitVec.getLsbD_extractLsb', BitVec.getLsbD_shiftLeft, BitVec.getLsbD_setWidth]
  simp only [hi, show lo + i < 32 by omega, show ¬lo + i < lo by omega, show lo + i - lo = i by omega, show i < 32 by omega]
  simp

/-- A field placed elsewhere leaves nothing at a place it does not meet. -/
theorem fieldAt_placeAt_of_disjoint {len : Nat} (v : BitVec len) (lo at' n : Nat) (h : at' + n ≤ lo ∨ lo + len ≤ at') :
    fieldAt (placeAt v lo) at' n = 0#n := by
  apply BitVec.eq_of_getLsbD_eq
  intro i hi
  simp only [fieldAt, placeAt, BitVec.getLsbD_extractLsb', BitVec.getLsbD_shiftLeft, BitVec.getLsbD_setWidth,
    BitVec.getLsbD_zero]
  rcases h with h | h
  · simp [show at' + i < lo by omega]
  · rw [BitVec.getLsbD_of_ge v _ (by omega)]
    simp

end Sys2Proof
end

