-- ==== Sys2Proof/Laws/State.lean ====
section
/-! SUPPORT. One lemma per field per named update of the state, true by rfl, and the laws of one value per channel: later
proofs never unfold an update. -/
namespace Sys2Proof

namespace PerChannel

variable {α : Type}

@[simp] theorem get_tabulate (f : ChanId → α) (n : ChanId) : (tabulate f).get n = f n := by
  match n with
  | 0 => rfl
  | 1 => rfl
  | 2 => rfl
  | 3 => rfl

@[simp] theorem get_set_self (v : PerChannel α) (n : ChanId) (a : α) : (v.set n a).get n = a := by
  match n with
  | 0 => rfl
  | 1 => rfl
  | 2 => rfl
  | 3 => rfl

theorem get_set_ne (v : PerChannel α) {m n : ChanId} (a : α) (h : m ≠ n) : (v.set n a).get m = v.get m := by
  revert m n
  intro m n
  match m, n with
  | 0, 0 | 1, 1 | 2, 2 | 3, 3 => intro h; exact absurd rfl h
  | 0, 1 | 0, 2 | 0, 3 | 1, 0 | 1, 2 | 1, 3 | 2, 0 | 2, 1 | 2, 3 | 3, 0 | 3, 1 | 3, 2 => intro _; rfl

theorem get_set (v : PerChannel α) (m n : ChanId) (a : α) : (v.set n a).get m = if m = n then a else v.get m := by
  split
  · next h => rw [h, get_set_self]
  · next h => exact get_set_ne v a h

/-- Two per-channel records with the same value at every channel are the same. -/
theorem ext_get {v w : PerChannel α} (h : ∀ n, v.get n = w.get n) : v = w := by
  cases v; cases w
  have h0 := h 0; have h1 := h 1; have h2 := h 2; have h3 := h 3
  simp only [get] at h0 h1 h2 h3
  simp [h0, h1, h2, h3]

theorem set_get_self (v : PerChannel α) (n : ChanId) : v.set n (v.get n) = v :=
  ext_get fun m => by
    rw [get_set]
    split
    · next h => rw [h]
    · rfl

end PerChannel

namespace Machine

/-! ### setCnt -/

@[simp] theorem setCnt_cfg (s : State) (v : Half) : (s.setCnt v).cfg = s.cfg := rfl
@[simp] theorem setCnt_cf (s : State) (v : Half) : (s.setCnt v).cf = s.cf := rfl
@[simp] theorem setCnt_cr (s : State) (v : Half) : (s.setCnt v).cr = s.cr := rfl
@[simp] theorem setCnt_cmod (s : State) (v : Half) : (s.setCnt v).cmod = s.cmod := rfl
@[simp] theorem setCnt_route (s : State) (v : Half) : (s.setCnt v).route = s.route := rfl
@[simp] theorem setCnt_result (s : State) (v : Half) : (s.setCnt v).result = s.result := rfl
@[simp] theorem setCnt_t0 (s : State) (v : Half) : (s.setCnt v).t0 = s.t0 := rfl
@[simp] theorem setCnt_chan (s : State) (v : Half) : (s.setCnt v).chan = s.chan := rfl
@[simp] theorem setCnt_cb (s : State) (v : Half) : (s.setCnt v).cb = s.cb := rfl
@[simp] theorem setCnt_rdOut (s : State) (v : Half) : (s.setCnt v).rdOut = s.rdOut := rfl
@[simp] theorem setCnt_inited (s : State) (v : Half) : (s.setCnt v).inited = s.inited := rfl
@[simp] theorem setCnt_trace (s : State) (v : Half) : (s.setCnt v).trace = s.trace := rfl

@[simp] theorem setCnt_cl (s : State) (v : Half) : (s.setCnt v).cl = v.extractLsb' 0 8 := rfl
@[simp] theorem setCnt_ch (s : State) (v : Half) : (s.setCnt v).ch = v.extractLsb' 8 8 := rfl

/-- The counter reads back what it was set to (R15). -/
@[simp] theorem setCnt_cnt (s : State) (v : Half) : (s.setCnt v).cnt = v := by
  apply BitVec.eq_of_toNat_eq
  simp only [State.cnt, setCnt_cl, setCnt_ch, BitVec.toNat_append, BitVec.extractLsb'_toNat]
  rw [← Nat.shiftLeft_add_eq_or_of_lt (by omega)]
  have := v.isLt
  simp only [Nat.shiftLeft_eq, Nat.shiftRight_eq_div_pow]
  omega

/-! ### setChan -/

@[simp] theorem setChan_cfg (s : State) (n : ChanId) (c : Channel) : (s.setChan n c).cfg = s.cfg := rfl
@[simp] theorem setChan_cf (s : State) (n : ChanId) (c : Channel) : (s.setChan n c).cf = s.cf := rfl
@[simp] theorem setChan_cr (s : State) (n : ChanId) (c : Channel) : (s.setChan n c).cr = s.cr := rfl
@[simp] theorem setChan_cmod (s : State) (n : ChanId) (c : Channel) : (s.setChan n c).cmod = s.cmod := rfl
@[simp] theorem setChan_cl (s : State) (n : ChanId) (c : Channel) : (s.setChan n c).cl = s.cl := rfl
@[simp] theorem setChan_ch (s : State) (n : ChanId) (c : Channel) : (s.setChan n c).ch = s.ch := rfl
@[simp] theorem setChan_route (s : State) (n : ChanId) (c : Channel) : (s.setChan n c).route = s.route := rfl
@[simp] theorem setChan_result (s : State) (n : ChanId) (c : Channel) : (s.setChan n c).result = s.result := rfl
@[simp] theorem setChan_t0 (s : State) (n : ChanId) (c : Channel) : (s.setChan n c).t0 = s.t0 := rfl
@[simp] theorem setChan_cb (s : State) (n : ChanId) (c : Channel) : (s.setChan n c).cb = s.cb := rfl
@[simp] theorem setChan_rdOut (s : State) (n : ChanId) (c : Channel) : (s.setChan n c).rdOut = s.rdOut := rfl
@[simp] theorem setChan_inited (s : State) (n : ChanId) (c : Channel) : (s.setChan n c).inited = s.inited := rfl
@[simp] theorem setChan_trace (s : State) (n : ChanId) (c : Channel) : (s.setChan n c).trace = s.trace := rfl

@[simp] theorem setChan_chan_self (s : State) (n : ChanId) (c : Channel) : (s.setChan n c).chan.get n = c :=
  PerChannel.get_set_self _ _ _

theorem setChan_chan_ne (s : State) {m n : ChanId} (c : Channel) (h : m ≠ n) :
    (s.setChan n c).chan.get m = s.chan.get m :=
  PerChannel.get_set_ne _ _ h

theorem setChan_chan (s : State) (m n : ChanId) (c : Channel) :
    (s.setChan n c).chan.get m = if m = n then c else s.chan.get m :=
  PerChannel.get_set _ _ _ _

@[simp] theorem setChan_cnt (s : State) (n : ChanId) (c : Channel) : (s.setChan n c).cnt = s.cnt := rfl

theorem setChan_self (s : State) (n : ChanId) : s.setChan n (s.chan.get n) = s := by
  simp only [State.setChan, PerChannel.set_get_self]

theorem setChan_setChan (s : State) (n : ChanId) (c d : Channel) : (s.setChan n c).setChan n d = s.setChan n d := by
  match n with
  | 0 => rfl
  | 1 => rfl
  | 2 => rfl
  | 3 => rfl

/-! ### mapChan -/

@[simp] theorem mapChan_cfg (s : State) (f : Channel → Channel) : (s.mapChan f).cfg = s.cfg := rfl
@[simp] theorem mapChan_cf (s : State) (f : Channel → Channel) : (s.mapChan f).cf = s.cf := rfl
@[simp] theorem mapChan_cr (s : State) (f : Channel → Channel) : (s.mapChan f).cr = s.cr := rfl
@[simp] theorem mapChan_cmod (s : State) (f : Channel → Channel) : (s.mapChan f).cmod = s.cmod := rfl
@[simp] theorem mapChan_cl (s : State) (f : Channel → Channel) : (s.mapChan f).cl = s.cl := rfl
@[simp] theorem mapChan_ch (s : State) (f : Channel → Channel) : (s.mapChan f).ch = s.ch := rfl
@[simp] theorem mapChan_route (s : State) (f : Channel → Channel) : (s.mapChan f).route = s.route := rfl
@[simp] theorem mapChan_result (s : State) (f : Channel → Channel) : (s.mapChan f).result = s.result := rfl
@[simp] theorem mapChan_t0 (s : State) (f : Channel → Channel) : (s.mapChan f).t0 = s.t0 := rfl
@[simp] theorem mapChan_cb (s : State) (f : Channel → Channel) : (s.mapChan f).cb = s.cb := rfl
@[simp] theorem mapChan_rdOut (s : State) (f : Channel → Channel) : (s.mapChan f).rdOut = s.rdOut := rfl
@[simp] theorem mapChan_inited (s : State) (f : Channel → Channel) : (s.mapChan f).inited = s.inited := rfl
@[simp] theorem mapChan_trace (s : State) (f : Channel → Channel) : (s.mapChan f).trace = s.trace := rfl

@[simp] theorem mapChan_chan (s : State) (f : Channel → Channel) (n : ChanId) :
    (s.mapChan f).chan.get n = if s.cfg.hasChannel n then f (s.chan.get n) else s.chan.get n :=
  PerChannel.get_tabulate _ _

@[simp] theorem mapChan_cnt (s : State) (f : Channel → Channel) : (s.mapChan f).cnt = s.cnt := rfl

/-! ### emit -/

@[simp] theorem emit_cfg (s : State) (e : CallbackEvent) : (s.emit e).cfg = s.cfg := rfl
@[simp] theorem emit_cf (s : State) (e : CallbackEvent) : (s.emit e).cf = s.cf := rfl
@[simp] theorem emit_cr (s : State) (e : CallbackEvent) : (s.emit e).cr = s.cr := rfl
@[simp] theorem emit_cmod (s : State) (e : CallbackEvent) : (s.emit e).cmod = s.cmod := rfl
@[simp] theorem emit_cl (s : State) (e : CallbackEvent) : (s.emit e).cl = s.cl := rfl
@[simp] theorem emit_ch (s : State) (e : CallbackEvent) : (s.emit e).ch = s.ch := rfl
@[simp] theorem emit_route (s : State) (e : CallbackEvent) : (s.emit e).route = s.route := rfl
@[simp] theorem emit_result (s : State) (e : CallbackEvent) : (s.emit e).result = s.result := rfl
@[simp] theorem emit_t0 (s : State) (e : CallbackEvent) : (s.emit e).t0 = s.t0 := rfl
@[simp] theorem emit_chan (s : State) (e : CallbackEvent) : (s.emit e).chan = s.chan := rfl
@[simp] theorem emit_rdOut (s : State) (e : CallbackEvent) : (s.emit e).rdOut = s.rdOut := rfl
@[simp] theorem emit_inited (s : State) (e : CallbackEvent) : (s.emit e).inited = s.inited := rfl
@[simp] theorem emit_trace (s : State) (e : CallbackEvent) : (s.emit e).trace = s.trace := rfl

@[simp] theorem emit_cb (s : State) (e : CallbackEvent) : (s.emit e).cb = s.cb ++ [e] := rfl

/-! ### placeWord -/

@[simp] theorem placeWord_cfg (s : State) (w : Word) : (placeWord s w).cfg = s.cfg := rfl
@[simp] theorem placeWord_cf (s : State) (w : Word) : (placeWord s w).cf = s.cf := rfl
@[simp] theorem placeWord_cr (s : State) (w : Word) : (placeWord s w).cr = s.cr := rfl
@[simp] theorem placeWord_cmod (s : State) (w : Word) : (placeWord s w).cmod = s.cmod := rfl
@[simp] theorem placeWord_cl (s : State) (w : Word) : (placeWord s w).cl = s.cl := rfl
@[simp] theorem placeWord_ch (s : State) (w : Word) : (placeWord s w).ch = s.ch := rfl
@[simp] theorem placeWord_route (s : State) (w : Word) : (placeWord s w).route = s.route := rfl
@[simp] theorem placeWord_result (s : State) (w : Word) : (placeWord s w).result = s.result := rfl
@[simp] theorem placeWord_t0 (s : State) (w : Word) : (placeWord s w).t0 = s.t0 := rfl
@[simp] theorem placeWord_chan (s : State) (w : Word) : (placeWord s w).chan = s.chan := rfl
@[simp] theorem placeWord_cb (s : State) (w : Word) : (placeWord s w).cb = s.cb := rfl
@[simp] theorem placeWord_rdOut (s : State) (w : Word) : (placeWord s w).rdOut = s.rdOut := rfl
@[simp] theorem placeWord_inited (s : State) (w : Word) : (placeWord s w).inited = s.inited := rfl

@[simp] theorem placeWord_trace (s : State) (w : Word) : (placeWord s w).trace = w :: s.trace := rfl

/-! ### setCcap -/

@[simp] theorem setCcap_ccf (c : Channel) (v : Half) : (c.setCcap v).ccf = c.ccf := rfl
@[simp] theorem setCcap_ccapm (c : Channel) (v : Half) : (c.setCcap v).ccapm = c.ccapm := rfl
@[simp] theorem setCcap_pcapwm (c : Channel) (v : Half) : (c.setCcap v).pcapwm = c.pcapwm := rfl
@[simp] theorem setCcap_pin (c : Channel) (v : Half) : (c.setCcap v).pin = c.pin := rfl
@[simp] theorem setCcap_mode (c : Channel) (v : Half) : (c.setCcap v).mode = c.mode := rfl
@[simp] theorem setCcap_captureMode (c : Channel) (v : Half) : (c.setCcap v).captureMode = c.captureMode := rfl
@[simp] theorem setCcap_shift (c : Channel) (v : Half) : (c.setCcap v).shift = c.shift := rfl
@[simp] theorem setCcap_capovf (c : Channel) (v : Half) : (c.setCcap v).capovf = c.capovf := rfl
@[simp] theorem setCcap_capstart (c : Channel) (v : Half) : (c.setCcap v).capstart = c.capstart := rfl
@[simp] theorem setCcap_capend (c : Channel) (v : Half) : (c.setCcap v).capend = c.capend := rfl
@[simp] theorem setCcap_tmrper (c : Channel) (v : Half) : (c.setCcap v).tmrper = c.tmrper := rfl
@[simp] theorem setCcap_tmrval (c : Channel) (v : Half) : (c.setCcap v).tmrval = c.tmrval := rfl
@[simp] theorem setCcap_ccapl (c : Channel) (v : Half) : (c.setCcap v).ccapl = v.extractLsb' 0 8 := rfl
@[simp] theorem setCcap_ccaph (c : Channel) (v : Half) : (c.setCcap v).ccaph = v.extractLsb' 8 8 := rfl

/-- The compare pair reads back what it was set to (R20). -/
@[simp] theorem setCcap_ccap (c : Channel) (v : Half) : (c.setCcap v).ccap = v := by
  apply BitVec.eq_of_toNat_eq
  simp only [Channel.ccap, setCcap_ccapl, setCcap_ccaph, BitVec.toNat_append, BitVec.extractLsb'_toNat]
  rw [← Nat.shiftLeft_add_eq_or_of_lt (by omega)]
  have := v.isLt
  simp only [Nat.shiftLeft_eq, Nat.shiftRight_eq_div_pow]
  omega

end Machine

end Sys2Proof
end

