-- ==== Sys2Proof/Laws/Ops.lean ====
section
/-! SUPPORT. One lemma for each shared operation that says once what it can do: refusing checks, the scan order, one count and
many, the overflow tracker and the scan of SERVICE, and running a list of operations. -/
namespace Sys2Proof.Machine

/-! ### Refusing checks -/

@[simp] theorem require_true (r : Refusal) (k : Result) : require true r k = k := rfl

@[simp] theorem require_false (r : Refusal) (k : Result) : require false r k = .refused r := rfl

/-- A guarded outcome is a next state exactly when the guard holds and the outcome is that state. -/
theorem require_eq_next {ok : Bool} {r : Refusal} {k : Result} {t : State} :
    require ok r k = .next t ↔ ok = true ∧ k = .next t := by
  cases ok <;> simp

theorem afterInit_eq_next {s t : State} {k : Result} : afterInit s k = .next t ↔ s.inited = true ∧ k = .next t :=
  require_eq_next

theorem onChannel_eq_next {s t : State} {n : ChanId} {k : Result} :
    onChannel s n k = .next t ↔ s.cfg.hasChannel n = true ∧ k = .next t :=
  require_eq_next

/-! ### The existing channels -/

theorem mem_channels {c : Config} {n : ChanId} : n ∈ c.channels ↔ c.hasChannel n = true := by
  unfold Config.channels Config.hasChannel
  cases c.nch <;> revert n <;> decide

/-- The scan visits the channels in ascending order, each once (R120). -/
theorem channels_pairwise (c : Config) : c.channels.Pairwise (· < ·) := by
  unfold Config.channels
  cases c.nch <;> decide

theorem channels_nodup (c : Config) : c.channels.Nodup :=
  (channels_pairwise c).imp fun h => ne_of_lt h

theorem irq_eq_true {s : State} :
    irq s = true ↔ (s.cf = true ∧ s.cmod.ecf = true) ∨
      ∃ n, s.cfg.hasChannel n = true ∧ (s.chan.get n).ccf = true ∧ (s.chan.get n).ccapm.eccf = true := by
  simp [irq, Channel.requests, mem_channels]

/-! ### One count and many -/

@[simp] theorem countOnce_stopped {s : State} (h : s.cr = false) : countOnce s = s := by
  simp [countOnce, h]

theorem countOnce_running {s : State} (h : s.cr = true) :
    countOnce s =
      { ((s.setCnt (s.cnt + 1#16)).mapChan (Channel.count (s.cnt + 1#16))) with cf := s.cf || wraps (s.cnt + 1#16) } := by
  simp [countOnce, h]

@[simp] theorem countOnce_cfg (s : State) : (countOnce s).cfg = s.cfg := by unfold countOnce; split <;> rfl
@[simp] theorem countOnce_cr (s : State) : (countOnce s).cr = s.cr := by unfold countOnce; split <;> rfl
@[simp] theorem countOnce_cmod (s : State) : (countOnce s).cmod = s.cmod := by unfold countOnce; split <;> rfl
@[simp] theorem countOnce_route (s : State) : (countOnce s).route = s.route := by unfold countOnce; split <;> rfl
@[simp] theorem countOnce_result (s : State) : (countOnce s).result = s.result := by unfold countOnce; split <;> rfl
@[simp] theorem countOnce_t0 (s : State) : (countOnce s).t0 = s.t0 := by unfold countOnce; split <;> rfl
@[simp] theorem countOnce_cb (s : State) : (countOnce s).cb = s.cb := by unfold countOnce; split <;> rfl
@[simp] theorem countOnce_rdOut (s : State) : (countOnce s).rdOut = s.rdOut := by unfold countOnce; split <;> rfl
@[simp] theorem countOnce_inited (s : State) : (countOnce s).inited = s.inited := by unfold countOnce; split <;> rfl
@[simp] theorem countOnce_trace (s : State) : (countOnce s).trace = s.trace := by unfold countOnce; split <;> rfl

theorem countOnce_cnt {s : State} (h : s.cr = true) : (countOnce s).cnt = s.cnt + 1#16 := by
  rw [countOnce_running h]
  exact setCnt_cnt s _

theorem countOnce_cf {s : State} (h : s.cr = true) : (countOnce s).cf = (s.cf || wraps (s.cnt + 1#16)) := by
  rw [countOnce_running h]

theorem countOnce_chan {s : State} (h : s.cr = true) (n : ChanId) :
    (countOnce s).chan.get n =
      if s.cfg.hasChannel n then (s.chan.get n).count (s.cnt + 1#16) else s.chan.get n := by
  rw [countOnce_running h]
  exact mapChan_chan _ _ _

/-- What a count never changes in a channel: everything but its flag and its pin (R40). -/
theorem count_eq (new : Half) (c : Channel) :
    c.count new = { c with ccf := (c.count new).ccf, pin := (c.count new).pin } := by
  unfold Channel.count Channel.compareStep Channel.pwmStep
  split <;> split <;> rfl

/-- A count never clears a flag (R110). -/
theorem count_ccf_mono {new : Half} {c : Channel} (h : c.ccf = true) : (c.count new).ccf = true := by
  unfold Channel.count Channel.compareStep Channel.pwmStep
  split <;> split <;> simp [h]

@[simp] theorem countTimes_zero (s : State) : countTimes 0 s = s := rfl

@[simp] theorem countTimes_succ (k : Nat) (s : State) : countTimes (k + 1) s = countTimes k (countOnce s) := rfl

/-- Counts with nothing between them compose (R58). -/
theorem countTimes_add (j k : Nat) (s : State) : countTimes (j + k) s = countTimes k (countTimes j s) := by
  induction j generalizing s with
  | zero => simp
  | succ j ih => rw [Nat.succ_add, countTimes_succ, countTimes_succ, ih]

theorem countTimes_succ_last (k : Nat) (s : State) : countTimes (k + 1) s = countOnce (countTimes k s) := by
  rw [countTimes_add]
  rfl

@[simp] theorem countTimes_stopped {k : Nat} {s : State} (h : s.cr = false) : countTimes k s = s := by
  induction k with
  | zero => rfl
  | succ k ih => rw [countTimes_succ, countOnce_stopped h, ih]

/-- A property of states that one count keeps is kept by any number of counts. -/
theorem countTimes_keeps {P : State → Prop} (h : ∀ s, P s → P (countOnce s)) (k : Nat) {s : State} (hs : P s) :
    P (countTimes k s) := by
  induction k generalizing s with
  | zero => exact hs
  | succ k ih => exact ih (h s hs)

/-! ### SERVICE -/

@[simp] theorem serveOverflow_cfg (s : State) : (serveOverflow s).cfg = s.cfg := by unfold serveOverflow; split <;> rfl
@[simp] theorem serveOverflow_cr (s : State) : (serveOverflow s).cr = s.cr := by unfold serveOverflow; split <;> rfl
@[simp] theorem serveOverflow_cmod (s : State) : (serveOverflow s).cmod = s.cmod := by unfold serveOverflow; split <;> rfl
@[simp] theorem serveOverflow_cl (s : State) : (serveOverflow s).cl = s.cl := by unfold serveOverflow; split <;> rfl
@[simp] theorem serveOverflow_ch (s : State) : (serveOverflow s).ch = s.ch := by unfold serveOverflow; split <;> rfl
@[simp] theorem serveOverflow_route (s : State) : (serveOverflow s).route = s.route := by unfold serveOverflow; split <;> rfl
@[simp] theorem serveOverflow_result (s : State) : (serveOverflow s).result = s.result := by unfold serveOverflow; split <;> rfl
@[simp] theorem serveOverflow_t0 (s : State) : (serveOverflow s).t0 = s.t0 := by unfold serveOverflow; split <;> rfl
@[simp] theorem serveOverflow_cb (s : State) : (serveOverflow s).cb = s.cb := by unfold serveOverflow; split <;> rfl
@[simp] theorem serveOverflow_rdOut (s : State) : (serveOverflow s).rdOut = s.rdOut := by unfold serveOverflow; split <;> rfl
@[simp] theorem serveOverflow_inited (s : State) : (serveOverflow s).inited = s.inited := by unfold serveOverflow; split <;> rfl
@[simp] theorem serveOverflow_trace (s : State) : (serveOverflow s).trace = s.trace := by unfold serveOverflow; split <;> rfl

/-- Step 1 leaves `CF` clear (R119). -/
@[simp] theorem serveOverflow_cf (s : State) : (serveOverflow s).cf = false := by
  cases h : s.cf <;> simp [serveOverflow, h]

/-- What step 1 does to a channel (R119). -/
theorem serveOverflow_chan (s : State) (n : ChanId) :
    (serveOverflow s).chan.get n =
      if s.cf && s.cfg.hasChannel n then (s.chan.get n).countOverflow else s.chan.get n := by
  cases h : s.cf <;> simp [serveOverflow, h]

theorem countOverflow_eq (c : Channel) : c.countOverflow = { c with capovf := c.countOverflow.capovf } := by
  obtain ⟨_, _, _, _, _, _, mode, _, _, _, _, _, _, _⟩ := c
  cases mode <;> rfl

/-- What step 2 leaves of a channel: its flag tested and cleared, its arm run (R120). -/
def Channel.served (c : Channel) : Channel :=
  if c.ccf then (Channel.serve { c with ccf := false }).1 else c

/-- The events step 2 emits for a channel: at most one (R126). -/
def Channel.servedEvents (c : Channel) (n : ChanId) : List CallbackEvent :=
  if c.ccf then
    match (Channel.serve { c with ccf := false }).2 with
    | some d => [{ channel := n, duration := d }]
    | none => []
  else []

theorem emitDuration_eq (s : State) (n : ChanId) (d : Option Half) :
    s.emitDuration n d =
      { s with cb := s.cb ++ (match d with
        | some d => [{ channel := n, duration := d }]
        | none => []) } := by
  cases d <;> simp [State.emitDuration, State.emit]

/-- Step 2 for one channel changes that channel and the callback output, nothing else (R120). -/
theorem serveChannel_eq (s : State) (n : ChanId) :
    serveChannel s n =
      { s.setChan n (s.chan.get n).served with cb := s.cb ++ (s.chan.get n).servedEvents n } := by
  unfold serveChannel Channel.served Channel.servedEvents
  split
  · rw [emitDuration_eq]; rfl
  · simp [setChan_self]

@[simp] theorem serveChannel_cfg (s : State) (n : ChanId) : (serveChannel s n).cfg = s.cfg := by rw [serveChannel_eq]; rfl

/-- The scan of a list of channels without repeats: each is served once, in the state step 1 left it in. -/
theorem foldl_serveChannel (l : List ChanId) (hl : l.Nodup) (s : State) :
    l.foldl serveChannel s =
      { s with
        chan := PerChannel.tabulate fun n => if n ∈ l then (s.chan.get n).served else s.chan.get n
        cb := s.cb ++ l.flatMap fun n => (s.chan.get n).servedEvents n } := by
  induction l generalizing s with
  | nil =>
    have : (PerChannel.tabulate fun n => s.chan.get n) = s.chan := PerChannel.ext_get fun n => by simp
    simp [this]
  | cons n l ih =>
    obtain ⟨hn, hl⟩ := List.nodup_cons.1 hl
    rw [List.foldl_cons, ih hl, serveChannel_eq]
    have hne : ∀ m ∈ l, m ≠ n := fun m hm h => hn (h ▸ hm)
    have hev : (l.flatMap fun m => ((s.setChan n (s.chan.get n).served).chan.get m).servedEvents m)
        = l.flatMap fun m => (s.chan.get m).servedEvents m := by
      rw [List.flatMap_def, List.flatMap_def, List.map_congr_left]
      intro m hm
      rw [setChan_chan_ne _ _ (hne m hm)]
    have hch : (PerChannel.tabulate fun m =>
          if m ∈ l then ((s.setChan n (s.chan.get n).served).chan.get m).served
          else (s.setChan n (s.chan.get n).served).chan.get m)
        = PerChannel.tabulate fun m => if m ∈ n :: l then (s.chan.get m).served else s.chan.get m := by
      apply PerChannel.ext_get
      intro m
      simp only [PerChannel.get_tabulate, List.mem_cons]
      by_cases hm : m ∈ l
      · simp [hm, setChan_chan_ne s _ (hne m hm)]
      · by_cases hmn : m = n
        · subst hmn; simp [hm]
        · simp [hm, hmn, setChan_chan_ne s _ hmn]
    simp only [hev, hch, List.append_assoc, List.flatMap_cons]
    rfl

/-- One pass of the demultiplexer in closed form (R118): `CF` cleared, every existing channel's overflow counted and its flag
served, the events appended in scan order. -/
theorem takeInterrupt_eq (s : State) :
    takeInterrupt s =
      { s with
        cf := false
        chan := PerChannel.tabulate fun n =>
          if s.cfg.hasChannel n then ((serveOverflow s).chan.get n).served else s.chan.get n
        cb := s.cb ++ s.cfg.channels.flatMap fun n => ((serveOverflow s).chan.get n).servedEvents n } := by
  unfold takeInterrupt
  rw [foldl_serveChannel _ (channels_nodup _)]
  have hch : (PerChannel.tabulate fun n =>
        if n ∈ s.cfg.channels then ((serveOverflow s).chan.get n).served else (serveOverflow s).chan.get n)
      = PerChannel.tabulate fun n =>
        if s.cfg.hasChannel n then ((serveOverflow s).chan.get n).served else s.chan.get n := by
    apply PerChannel.ext_get
    intro n
    simp only [PerChannel.get_tabulate, mem_channels]
    by_cases h : s.cfg.hasChannel n = true
    · simp [h]
    · simp [h, serveOverflow_chan]
  rw [hch]
  cases h : s.cf <;> simp [serveOverflow, h]

@[simp] theorem takeInterrupt_cfg (s : State) : (takeInterrupt s).cfg = s.cfg := by rw [takeInterrupt_eq]
@[simp] theorem takeInterrupt_cf (s : State) : (takeInterrupt s).cf = false := by rw [takeInterrupt_eq]
@[simp] theorem takeInterrupt_cr (s : State) : (takeInterrupt s).cr = s.cr := by rw [takeInterrupt_eq]
@[simp] theorem takeInterrupt_cmod (s : State) : (takeInterrupt s).cmod = s.cmod := by rw [takeInterrupt_eq]
@[simp] theorem takeInterrupt_cl (s : State) : (takeInterrupt s).cl = s.cl := by rw [takeInterrupt_eq]
@[simp] theorem takeInterrupt_ch (s : State) : (takeInterrupt s).ch = s.ch := by rw [takeInterrupt_eq]
@[simp] theorem takeInterrupt_route (s : State) : (takeInterrupt s).route = s.route := by rw [takeInterrupt_eq]
@[simp] theorem takeInterrupt_result (s : State) : (takeInterrupt s).result = s.result := by rw [takeInterrupt_eq]
@[simp] theorem takeInterrupt_t0 (s : State) : (takeInterrupt s).t0 = s.t0 := by rw [takeInterrupt_eq]
@[simp] theorem takeInterrupt_rdOut (s : State) : (takeInterrupt s).rdOut = s.rdOut := by rw [takeInterrupt_eq]
@[simp] theorem takeInterrupt_inited (s : State) : (takeInterrupt s).inited = s.inited := by rw [takeInterrupt_eq]
@[simp] theorem takeInterrupt_trace (s : State) : (takeInterrupt s).trace = s.trace := by rw [takeInterrupt_eq]

theorem takeInterrupt_chan (s : State) (n : ChanId) :
    (takeInterrupt s).chan.get n =
      if s.cfg.hasChannel n then ((serveOverflow s).chan.get n).served else s.chan.get n := by
  rw [takeInterrupt_eq]
  exact PerChannel.get_tabulate _ _

theorem takeInterrupt_cb (s : State) :
    (takeInterrupt s).cb = s.cb ++ s.cfg.channels.flatMap fun n => ((serveOverflow s).chan.get n).servedEvents n := by
  rw [takeInterrupt_eq]

/-- A served channel's flag is clear (R118). -/
@[simp] theorem served_ccf (c : Channel) : c.served.ccf = false := by
  unfold Channel.served
  split
  · unfold Channel.serve
    cases c.mode <;> first | rfl | (simp only [Channel.serveCapture, Channel.disarmIfOneShot]; cases c.captureMode <;> rfl)
  · next h => simpa using h

/-- A channel whose flag is clear is left as it is. -/
theorem served_of_clear {c : Channel} (h : c.ccf = false) : c.served = c := by
  simp [Channel.served, h]

theorem servedEvents_of_clear {c : Channel} (n : ChanId) (h : c.ccf = false) : c.servedEvents n = [] := by
  simp [Channel.servedEvents, h]

/-- The events of a channel carry its number (R126). -/
theorem channel_of_mem_servedEvents {c : Channel} {n : ChanId} {e : CallbackEvent} (h : e ∈ c.servedEvents n) :
    e.channel = n := by
  unfold Channel.servedEvents at h
  split at h
  · split at h
    · rw [List.mem_singleton.1 h]
    · cases h
  · cases h

/-- Of the events of one pass, those of an existing channel are the ones its own arm emitted (R126). -/
theorem filter_servedEvents {c : Config} {n : ChanId} (h : c.hasChannel n = true) (f : ChanId → Channel) :
    (c.channels.flatMap fun m => (f m).servedEvents m).filter (fun e => e.channel = n) = (f n).servedEvents n := by
  have hone : ∀ m, ((f m).servedEvents m).filter (fun e => e.channel = n) = if m = n then (f n).servedEvents n else [] := by
    intro m
    split
    · next hm =>
      subst hm
      exact List.filter_eq_self.2 fun e he => by simpa using channel_of_mem_servedEvents he
    · next hm =>
      exact List.filter_eq_nil_iff.2 fun e he => by simpa [channel_of_mem_servedEvents he] using hm
  simp only [List.filter_flatMap, hone]
  have hnodup := channels_nodup c
  have hmem := mem_channels.2 h
  generalize c.channels = l at hnodup hmem
  induction l with
  | nil => cases hmem
  | cons a l ih =>
    obtain ⟨ha, hl⟩ := List.nodup_cons.1 hnodup
    rw [List.flatMap_cons]
    by_cases han : a = n
    · subst han
      have hrest : (l.flatMap fun m => if m = a then (f a).servedEvents a else []) = [] :=
        List.flatMap_eq_nil_iff.2 fun m hm => if_neg (by rintro rfl; exact ha hm)
      simp [hrest]
    · rw [if_neg han, List.nil_append]
      exact ih hl (by simpa [Ne.symm han] using hmem)

/-! ### Values of concatenations -/

/-- The value of `x :: y` (R9). -/
theorem toNat_append_eq {a b : Nat} (x : BitVec a) (y : BitVec b) : (x ++ y).toNat = 2 ^ b * x.toNat + y.toNat := by
  rw [BitVec.toNat_append, ← Nat.shiftLeft_add_eq_or_of_lt y.isLt, Nat.shiftLeft_eq, Nat.mul_comm]

theorem cnt_toNat (s : State) : s.cnt.toNat = 2 ^ 8 * s.ch.toNat + s.cl.toNat :=
  toNat_append_eq s.ch s.cl

theorem ccap_toNat (c : Channel) : c.ccap.toNat = 2 ^ 8 * c.ccaph.toNat + c.ccapl.toNat :=
  toNat_append_eq c.ccaph c.ccapl

/-- The end snapshot as a number (R27, R121). -/
theorem endSnapshot_toNat (c : Channel) : c.endSnapshot.toNat = 2 ^ 16 * c.capovf.toNat + c.ccap.toNat := by
  have h : (0#8 ++ c.capovf ++ c.ccaph ++ c.ccapl).toNat = 2 ^ 16 * c.capovf.toNat + c.ccap.toNat := by
    simp only [toNat_append_eq, ccap_toNat, BitVec.toNat_ofNat]
    omega
  exact h

/-- The start snapshot as a number (R27, R121). -/
theorem startSnapshot_toNat (c : Channel) : c.startSnapshot.toNat = c.ccap.toNat := by
  have h : (0#16 ++ c.ccaph ++ c.ccapl).toNat = c.ccap.toNat := by
    simp only [toNat_append_eq, ccap_toNat, BitVec.toNat_ofNat]
    omega
  exact h

/-! ### Running operations -/

@[simp] theorem runOps_nil (s : State) : runOps [] s = .next s := rfl

theorem runOps_cons_next {i : Instr} {is : List Instr} {s t : State} (h : exec i s = .next t) :
    runOps (i :: is) s = runOps is t := by
  simp [runOps, h]

/-- A run that goes on takes its first operation to a next state. -/
theorem runOps_cons_eq_next {i : Instr} {is : List Instr} {s u : State} :
    runOps (i :: is) s = .next u ↔ ∃ t, exec i s = .next t ∧ runOps is t = .next u := by
  cases h : exec i s <;> simp [runOps, h]

theorem runOps_append {l m : List Instr} {s u : State} :
    runOps (l ++ m) s = .next u ↔ ∃ t, runOps l s = .next t ∧ runOps m t = .next u := by
  induction l generalizing s with
  | nil => simp
  | cons i l ih =>
    simp only [List.cons_append, runOps_cons_eq_next, ih]
    constructor
    · rintro ⟨a, h1, b, h2, h3⟩; exact ⟨b, ⟨a, h1, h2⟩, h3⟩
    · rintro ⟨b, ⟨a, h1, h2⟩, h3⟩; exact ⟨a, h1, b, h2, h3⟩

/-- Prompt service, operation by operation (R146). -/
theorem promptOps_cons {i : Instr} {is : List Instr} {s t : State} (hi : irq s = true → i = .service)
    (hk : ∀ k, i = .tick k → quietCounts k.toNat s) (ht : exec i s = .next t) (hs : promptOps is t) :
    promptOps (i :: is) s :=
  ⟨hi, hk, fun u hu => by rw [ht] at hu; cases hu; exact hs⟩

end Sys2Proof.Machine
end

