-- ==== Sys2Proof/Laws/Exec.lean ====
section
/-! SUPPORT. For each operation, when it goes on and to which state, and what its effect leaves of each channel; for a step, which
operation it runs. -/
namespace Sys2Proof.Machine

/-! ### When an operation goes on -/

theorem exec_init_eq_next {clk : BitVec 3} {cmode : CounterMode} {ovfie : Bool} {route : BitVec 2} {s t : State} :
    exec (.init clk cmode ovfie route) s = .next t ↔
      s.cfg.routeCodes.has route = true ∧ initialise clk cmode ovfie route s = t := by
  simp [exec, execInit, require_eq_next]

theorem exec_startt0_eq_next {freq : BitVec 28} {s t : State} :
    exec (.startt0 freq) s = .next t ↔ s.inited = true ∧ freq ≠ 0#28 ∧ programTimer0 freq s = t := by
  simp [exec, execStartt0, afterInit_eq_next, require_eq_next]

theorem exec_startcap_eq_next {n : ChanId} {edge : EdgeSel} {mode : CaptureMode} {shift : BitVec 5} {s t : State} :
    exec (.startcap n edge mode shift) s = .next t ↔
      s.inited = true ∧ s.cfg.hasChannel n = true ∧ shift.toNat ≤ 23 ∧ startCapture n edge mode shift s = t := by
  simp [exec, execStartcap, afterInit_eq_next, onChannel_eq_next, require_eq_next, shiftLegal]

theorem exec_startpwm_eq_next {n : ChanId} {w : PwmWidth} {trig : EdgeSel} {high : BitVec 11} {s t : State} :
    exec (.startpwm n w trig high) s = .next t ↔
      s.inited = true ∧ s.cfg.hasChannel n = true ∧ s.cfg.pwmWidths.has w = true ∧ high.toNat ≤ 2 ^ w.bits ∧
      s.setChan n ((s.chan.get n).startPwm w trig high) = t := by
  simp [exec, execStartpwm, afterInit_eq_next, onChannel_eq_next, require_eq_next, highLegal]

theorem exec_setduty_eq_next {n : ChanId} {high : BitVec 11} {s t : State} :
    exec (.setduty n high) s = .next t ↔
      s.inited = true ∧ s.cfg.hasChannel n = true ∧ (s.chan.get n).mode = .pwm ∧
      high.toNat ≤ 2 ^ (s.chan.get n).pcapwm.ebs.bits ∧
      s.setChan n ((s.chan.get n).setPwmCompare (s.chan.get n).pcapwm.ebs high) = t := by
  simp [exec, execSetduty, afterInit_eq_next, onChannel_eq_next, require_eq_next, highLegal]

theorem exec_starttmr_eq_next {n : ChanId} {period : Half} {out : TimerOutput} {s t : State} :
    exec (.starttmr n period out) s = .next t ↔
      s.inited = true ∧ s.cfg.hasChannel n = true ∧ s.setChan n ((s.chan.get n).startTimer period out) = t := by
  simp [exec, execStarttmr, afterInit_eq_next, onChannel_eq_next]

theorem exec_tick_eq_next {count : Half} {s t : State} :
    exec (.tick count) s = .next t ↔ countTimes count.toNat s = t := by
  simp [exec, execTick]

theorem exec_edge_eq_next {n : ChanId} {pol : Polarity} {s t : State} :
    exec (.edge n pol) s = .next t ↔
      s.cfg.hasChannel n = true ∧ s.setChan n ((s.chan.get n).edge pol s.cl s.ch) = t := by
  simp [exec, execEdge, onChannel_eq_next]

theorem exec_service_eq_next {s t : State} : exec .service s = .next t ↔ irq s = true ∧ takeInterrupt s = t := by
  simp [exec, execService, require_eq_next]

theorem exec_rd_eq_next {idx : Byte} {s t : State} :
    exec (.rd idx) s = .next t ↔ { s with rdOut := s.rdOut ++ [reg s idx] } = t := by
  simp [exec, execRd]

/-- No operation faults (R137), so one that does not go on is refused. -/
theorem exec_refused_of_not_next {i : Instr} {s : State} (h : ∀ t, exec i s ≠ .next t) : ∃ r, exec i s = .refused r := by
  cases hr : exec i s with
  | next t => exact absurd hr (h t)
  | fault f => cases f
  | refused r => exact ⟨r, rfl⟩

/-! ### What is left of each channel -/

theorem initialise_chan (clk : BitVec 3) (cmode : CounterMode) (ovfie : Bool) (route : BitVec 2) (s : State) (n : ChanId) :
    (initialise clk cmode ovfie route s).chan.get n =
      if s.cfg.hasChannel n then { s.chan.get n with mode := .unused } else s.chan.get n := by
  simp [initialise]

/-- STARTT0 touches nothing but its result and its record (R84). -/
theorem programTimer0_eq (freq : BitVec 28) (s : State) :
    programTimer0 freq s = { s with result := (programTimer0 freq s).result, t0 := (programTimer0 freq s).t0 } := by
  simp only [programTimer0]
  split
  · rfl
  · split <;> rfl

@[simp] theorem programTimer0_chan (freq : BitVec 28) (s : State) : (programTimer0 freq s).chan = s.chan := by
  rw [programTimer0_eq]

theorem startCapture_chan (n : ChanId) (edge : EdgeSel) (mode : CaptureMode) (shift : BitVec 5) {s : State}
    (h : s.cfg.hasChannel n = true) (m : ChanId) :
    (startCapture n edge mode shift s).chan.get m =
      if m = n then
        ({ s.chan.get n with capovf := 0#8, capstart := 0#32, capend := 0#32 } : Channel).armCapture edge mode shift
      else if s.cfg.hasChannel m then { s.chan.get m with capovf := 0#8, capstart := 0#32, capend := 0#32 }
      else s.chan.get m := by
  simp [startCapture, restartArray, setChan_chan, h]

/-! ### Steps -/

/-- With no word in the trace a step changes nothing. -/
theorem step_nil {s : State} (h : s.trace = []) : step s = .next s := by
  simp [step, fetch, h]

theorem step_ok {s : State} {w : Word} {rest : List Word} {i : Instr} (h : s.trace = w :: rest) (hd : decode w = .ok i) :
    step s = exec i { s with trace := rest } := by
  simp [step, fetch, h, hd]

theorem step_error {s : State} {w : Word} {rest : List Word} {e : DecodeError} (h : s.trace = w :: rest)
    (hd : decode w = .error e) : step s = .refused (refuseWord e) := by
  simp [step, fetch, h, hd]

/-- A step that goes on had no word to run, or ran the operation of the next word. -/
theorem step_eq_next {s t : State} (h : step s = .next t) :
    (s.trace = [] ∧ t = s) ∨
      ∃ w rest i, s.trace = w :: rest ∧ decode w = .ok i ∧ exec i { s with trace := rest } = .next t := by
  cases ht : s.trace with
  | nil => rw [step_nil ht] at h; exact .inl ⟨rfl, (by injection h with h; exact h.symm)⟩
  | cons w rest =>
    cases hd : decode w with
    | error e => rw [step_error ht hd] at h; cases h
    | ok i => rw [step_ok ht hd] at h; exact .inr ⟨w, rest, i, rfl, hd, h⟩

/-- The step after the host places a word runs the operation of that word. -/
theorem step_withFetchWord {s : State} {nbits w : Nat} {i : Instr} (hd : decode (tableWord nbits w) = .ok i) :
    step (s.withFetchWord nbits w) = exec i s :=
  step_ok rfl hd

end Sys2Proof.Machine
end

