-- ==== Sys2Proof/Laws/Registers.lean ====
section
/-! SUPPORT. The register space index by index: which byte of which register each index shows (R42), and how two states are
compared through the read port. -/
namespace Sys2Proof.Machine

/-- The index `B(n) + off` as a number (R42). -/
theorem chanIdx_toNat (n : ChanId) {off : Nat} (h : off < 0x20) : (chanIdx n off).toNat = 0x10 + 0x20 * n.val + off := by
  have := n.isLt
  rw [chanIdx, BitVec.toNat_ofNat, Nat.mod_eq_of_lt (by omega)]

/-- Below 0x10 stand the array registers (R42). -/
theorem reg_array (s : State) {i : Byte} (h : i.toNat < 0x10) : reg s i = s.arrayByte i.toNat := by
  simp [reg, h]

@[simp] theorem reg_ccon (s : State) : reg s 0x00#8 = s.cconByte := reg_array s (by decide)
@[simp] theorem reg_cmod (s : State) : reg s 0x01#8 = s.cmod.byte := reg_array s (by decide)
@[simp] theorem reg_cl (s : State) : reg s 0x02#8 = s.cl := reg_array s (by decide)
@[simp] theorem reg_ch (s : State) : reg s 0x03#8 = s.ch := reg_array s (by decide)
@[simp] theorem reg_route (s : State) : reg s 0x04#8 = s.route.zeroExtend 8 := reg_array s (by decide)
@[simp] theorem reg_result (s : State) : reg s 0x05#8 = s.result := reg_array s (by decide)
@[simp] theorem reg_pins (s : State) : reg s 0x06#8 = s.pinsByte := reg_array s (by decide)
@[simp] theorem reg_t0ctl (s : State) : reg s 0x08#8 = s.t0.ctlByte := reg_array s (by decide)
@[simp] theorem reg_t0rl (s : State) : reg s 0x09#8 = s.t0.rl := reg_array s (by decide)
@[simp] theorem reg_t0rh (s : State) : reg s 0x0A#8 = s.t0.rh := reg_array s (by decide)

/-- At `B(n) + off` stands channel `n`'s byte, or 0 where the channel does not exist (R42, R44). -/
theorem reg_chan (s : State) (n : ChanId) {off : Nat} (h : off < 0x20) :
    reg s (chanIdx n off) = if s.cfg.hasChannel n then (s.chan.get n).byteAt off else 0#8 := by
  have hn := n.isLt
  have hi := chanIdx_toNat n h
  have hk : (0x10 + 0x20 * n.val + off - 0x10) / 0x20 = n.val := by omega
  have ho : (0x10 + 0x20 * n.val + off - 0x10) % 0x20 = off := by omega
  unfold reg
  rw [hi]
  simp only [hk, ho, dif_pos hn, Fin.eta]
  rw [if_neg (by omega)]

/-- From 0x90 up nothing stands (R42, R44). -/
theorem reg_high (s : State) {i : Byte} (h : 0x90 ≤ i.toNat) : reg s i = 0#8 := by
  unfold reg
  rw [if_neg (by omega), dif_neg (by omega)]

/-- Every index is an array index, an index of one channel, or above the channels (R42). -/
theorem index_cases (i : Byte) :
    i.toNat < 0x10 ∨ (∃ n off, off < 0x20 ∧ i = chanIdx n off) ∨ 0x90 ≤ i.toNat := by
  by_cases h1 : i.toNat < 0x10
  · exact .inl h1
  · by_cases h2 : 0x90 ≤ i.toNat
    · exact .inr (.inr h2)
    · refine .inr (.inl ⟨⟨(i.toNat - 0x10) / 0x20, by omega⟩, (i.toNat - 0x10) % 0x20, by omega, ?_⟩)
      apply BitVec.eq_of_toNat_eq
      rw [chanIdx_toNat _ (by omega)]
      simp only
      omega

/-- Two states with the same parameters show the same byte at an index when they agree on the array register or the channel
byte that stands there. -/
theorem reg_eq_of {s t : State} {i : Byte} (hc : t.cfg = s.cfg)
    (ha : i.toNat < 0x10 → t.arrayByte i.toNat = s.arrayByte i.toNat)
    (hn : ∀ n off, off < 0x20 → i = chanIdx n off → s.cfg.hasChannel n = true →
      (t.chan.get n).byteAt off = (s.chan.get n).byteAt off) :
    reg t i = reg s i := by
  obtain h | ⟨n, off, ho, rfl⟩ | h := index_cases i
  · rw [reg_array t h, reg_array s h, ha h]
  · rw [reg_chan t n ho, reg_chan s n ho, hc]
    split
    · next hp => exact hn n off ho rfl hp
    · rfl
  · rw [reg_high t h, reg_high s h]

/-- An index names one channel and one offset. -/
theorem chanIdx_inj {m n : ChanId} {a b : Nat} (ha : a < 0x20) (hb : b < 0x20) :
    chanIdx m a = chanIdx n b ↔ m = n ∧ a = b := by
  constructor
  · intro h
    have h1 := congrArg BitVec.toNat h
    rw [chanIdx_toNat m ha, chanIdx_toNat n hb] at h1
    refine ⟨Fin.ext ?_, ?_⟩ <;> omega
  · rintro ⟨rfl, rfl⟩; rfl

/-- A channel index is no array index. -/
theorem chanIdx_ne_of_lt {n : ChanId} {off : Nat} (h : off < 0x20) {i : Byte} (hi : i.toNat < 0x10) : chanIdx n off ≠ i := by
  intro he
  have := congrArg BitVec.toNat he
  rw [chanIdx_toNat n h] at this
  omega

/-- The per-channel bits of `CCON` and `PINS` are the existing channels' bits. -/
theorem channelBits_eq_of {s t : State} {f : Channel → Bool} (hc : t.cfg = s.cfg)
    (h : ∀ n, s.cfg.hasChannel n = true → f (t.chan.get n) = f (s.chan.get n)) : t.channelBits f = s.channelBits f := by
  have hb : ∀ n, (t.cfg.hasChannel n && f (t.chan.get n)) = (s.cfg.hasChannel n && f (s.chan.get n)) := by
    intro n
    rw [hc]
    cases hp : s.cfg.hasChannel n
    · rfl
    · simp [h n hp]
  simp only [State.channelBits, hb]

/-- An index reads as before when the register that stands there is as before. -/
theorem reg_frame {s t : State} {i : Byte} (hc : t.cfg = s.cfg)
    (h0 : i = 0x00#8 → t.cf = s.cf ∧ t.cr = s.cr ∧
      ∀ n, s.cfg.hasChannel n = true → (t.chan.get n).ccf = (s.chan.get n).ccf)
    (h1 : i = 0x01#8 → t.cmod = s.cmod) (h2 : i = 0x02#8 → t.cl = s.cl) (h3 : i = 0x03#8 → t.ch = s.ch)
    (h4 : i = 0x04#8 → t.route = s.route) (h5 : i = 0x05#8 → t.result = s.result)
    (h6 : i = 0x06#8 → ∀ n, s.cfg.hasChannel n = true → (t.chan.get n).pin = (s.chan.get n).pin)
    (h8 : i = 0x08#8 ∨ i = 0x09#8 ∨ i = 0x0A#8 → t.t0 = s.t0)
    (hn : ∀ n off, off < 0x20 → i = chanIdx n off → s.cfg.hasChannel n = true →
      (t.chan.get n).byteAt off = (s.chan.get n).byteAt off) :
    reg t i = reg s i := by
  refine reg_eq_of hc (fun hi => ?_) hn
  have hv : ∀ k : Nat, k < 256 → i.toNat = k → i = BitVec.ofNat 8 k := fun k hk h =>
    BitVec.eq_of_toNat_eq (by rw [h, BitVec.toNat_ofNat, Nat.mod_eq_of_lt hk])
  unfold State.arrayByte
  split
  · next h =>
    obtain ⟨a, b, c⟩ := h0 (hv _ (by omega) h)
    simp only [State.cconByte, a, b, channelBits_eq_of hc c]
  · next h => rw [h1 (hv _ (by omega) h)]
  · next h => rw [h2 (hv _ (by omega) h)]
  · next h => rw [h3 (hv _ (by omega) h)]
  · next h => rw [h4 (hv _ (by omega) h)]
  · next h => rw [h5 (hv _ (by omega) h)]
  · next h => simp only [State.pinsByte, channelBits_eq_of hc (h6 (hv _ (by omega) h))]
  · next h => rw [h8 (.inl (hv _ (by omega) h))]
  · next h => rw [h8 (.inr (.inl (hv _ (by omega) h)))]
  · next h => rw [h8 (.inr (.inr (hv _ (by omega) h)))]
  · rfl

/-- A change of one channel shows only at that channel's indices, in `CCON` if its flag changed and in `PINS` if its pin did. -/
theorem reg_setChan {s : State} {n : ChanId} {c : Channel} {i : Byte}
    (h0 : i = 0x00#8 → c.ccf = (s.chan.get n).ccf) (h6 : i = 0x06#8 → c.pin = (s.chan.get n).pin)
    (hn : ∀ off, off < 0x20 → i = chanIdx n off → c.byteAt off = (s.chan.get n).byteAt off) :
    reg (s.setChan n c) i = reg s i := by
  refine reg_frame rfl (fun hi => ⟨rfl, rfl, fun m _ => ?_⟩) (fun _ => rfl) (fun _ => rfl) (fun _ => rfl) (fun _ => rfl)
    (fun _ => rfl) (fun hi m _ => ?_) (fun _ => rfl) (fun m off ho hi _ => ?_) <;> rw [setChan_chan] <;> split
  · next h => rw [h0 hi, h]
  · rfl
  · next h => rw [h6 hi, h]
  · rfl
  · next h => subst h; exact hn off ho hi
  · rfl

/-- An existing channel's byte. -/
theorem reg_present {s : State} {n : ChanId} (h : s.cfg.hasChannel n = true) {off : Nat} (ho : off < 0x20) :
    reg s (chanIdx n off) = (s.chan.get n).byteAt off := by
  rw [reg_chan s n ho, if_pos h]

/-- The index after `B(n) + off` (R42). -/
theorem chanIdx_succ (n : ChanId) {off : Nat} (h : off + 1 < 0x20) : chanIdx n off + 1#8 = chanIdx n (off + 1) := by
  have hn := n.isLt
  apply BitVec.eq_of_toNat_eq
  rw [BitVec.toNat_add, chanIdx_toNat n (by omega), chanIdx_toNat n h]
  simp only [BitVec.toNat_ofNat]
  omega

end Sys2Proof.Machine
end

