-- ==== Sys2Proof/Tests/Slice0.lean ====
section
/-! SUPPORT. The model's own tests: the ill-formed operations that `Instr.wf` refuses, words written out from the spec decoded, one
step per operation against the spec's worked examples and test vectors, and for every obligation with hypotheses a concrete input
that meets them. The expected values stand in 95_test_vectors.md or in the rule that a test's comment names. -/
namespace Sys2Proof.Tests
open Sys2Proof.Machine

/-! ### States to test on -/

/-- The block after INIT 0, free, 0, 0. -/
def started : State :=
  initialise 0#3 .freeRunning false 0#2 State.reset

/-- `started` with the overflow interrupt enabled (INIT 0, free, 1, 0). -/
def startedOvf : State :=
  initialise 0#3 .freeRunning true 0#2 State.reset

/-- `started` with other parameters. -/
def startedWith (c : Config) : State :=
  initialise 0#3 .freeRunning false 0#2 (State.resetWith c)

/-- Two channels, 8-bit PWM only, routes 0 and 1 only. -/
def small : Config :=
  { Config.default with
    nch := .two
    pwmWidths := { six := false, seven := false, ten := false }
    routeCodes := { r0 := true, r1 := true, r2 := false, r3 := false } }

/-- The default parameters with another system clock. -/
def clocked (f : Nat) : Config :=
  { Config.default with fCpu := f }

/-- A Continuous rising-edge capture channel with shift 0 (STARTCAP n, rise, cont, 0). -/
def capturing : Channel :=
  (Channel.reset false).armCapture .rising .continuous 0#5

/-- `s` with channel `n` as `c` and its flag set. -/
def flagged (s : State) (n : ChanId) (c : Channel) : State :=
  s.setChan n { c with ccf := true }

/-- An 8-bit PWM channel without a trigger, `high = 64` (STARTPWM n, 8, none, 64). -/
def driving : Channel :=
  (Channel.reset false).startPwm .w8 .none 64#11

/-- What `f` shows of the next state, if there is one. -/
def after {α : Type} (r : Result) (f : State → α) : Option α :=
  (nextOf r).map f

/-! ### Well-formedness: one ill-formed operation per check (R59 to R66, R70 (c)) -/

theorem test_wf_route : (Instr.init 0#3 .freeRunning false 2#2).wf small = false := by decide
theorem test_wf_route_ok : (Instr.init 0#3 .freeRunning false 1#2).wf small = true := by decide
theorem test_wf_freq : (Instr.startt0 0#28).wf Config.default = false := by decide
theorem test_wf_startcap_ch : (Instr.startcap 2 .rising .continuous 0#5).wf small = false := by decide
theorem test_wf_shift : (Instr.startcap 0 .rising .continuous 24#5).wf Config.default = false := by decide
theorem test_wf_shift_ok : (Instr.startcap 0 .rising .continuous 23#5).wf Config.default = true := by decide
theorem test_wf_startpwm_ch : (Instr.startpwm 2 .w8 .none 0#11).wf small = false := by decide
theorem test_wf_width : (Instr.startpwm 0 .w10 .none 16#11).wf small = false := by decide
theorem test_wf_high : (Instr.startpwm 0 .w8 .none 257#11).wf Config.default = false := by decide
theorem test_wf_high_ok : (Instr.startpwm 0 .w8 .none 256#11).wf Config.default = true := by decide
theorem test_wf_setduty_ch : (Instr.setduty 3 0#11).wf small = false := by decide
theorem test_wf_starttmr_ch : (Instr.starttmr 2 0#16 .timer).wf small = false := by decide
theorem test_wf_edge_ch : (Instr.edge 3 .rising).wf small = false := by decide
theorem test_config_clock : (clocked 0).wf = false ∧ (clocked 4294967296).wf = false := by decide
theorem test_config_routes :
    { Config.default with routeCodes := { r0 := false, r1 := false, r2 := false, r3 := false } }.wf = false := by decide

/-! ### Words (V-ENC, V-RSV) -/

theorem test_decode_init : decode 0b00010000000000000000000001011101#32 = .ok (.init 5#3 .gated true 2#2) := by decide
theorem test_decode_startt0 : decode 0b00100000000000000010010110000000#32 = .ok (.startt0 9600#28) := by decide
theorem test_decode_startcap :
    decode 0b00111100000000000000000010111111#32 = .ok (.startcap 3 .both .oneShot 23#5) := by decide
theorem test_decode_startpwm :
    decode 0b01000111100000000000000100101100#32 = .ok (.startpwm 1 .w10 .rising 300#11) := by decide
theorem test_decode_setduty : decode 0b01010100000000000000000011001000#32 = .ok (.setduty 1 200#11) := by decide
theorem test_decode_starttmr : decode 0b01101000000000010000000110010000#32 = .ok (.starttmr 2 400#16 .pulse) := by decide
theorem test_decode_tick : decode 0b10000000000000000000001111101000#32 = .ok (.tick 1000#16) := by decide
theorem test_decode_edge :
    decode 0b10010100000000000000000000000001#32 = .ok (.edge 1 .rising) ∧ decode 0x90000000#32 = .ok (.edge 0 .falling) := by
  decide
theorem test_decode_service : decode 0b10100000000000000000000000000000#32 = .ok .service := by decide
theorem test_decode_rd : decode 0b10110000000000000000000000011110#32 = .ok (.rd 0x1E#8) := by decide

/-- The four PWM width codes (R78; V-PWM words of widths 8, 7, 6, 10). -/
theorem test_decode_widths :
    decode 0x48C00040#32 = .ok (.startpwm 2 .w8 .both 64#11) ∧ decode 0x49C00064#32 = .ok (.startpwm 2 .w7 .both 100#11) ∧
    decode 0x4AC00020#32 = .ok (.startpwm 2 .w6 .both 32#11) ∧ decode 0x4BC0012C#32 = .ok (.startpwm 2 .w10 .both 300#11) := by
  decide

/-- U1 (V-RSV). -/
theorem test_reserved_op :
    [0x00000000#32, 0x70000000#32, 0xC0000000#32, 0xFFFFFFFF#32].map decode = List.replicate 4 (.error .reservedOp) := by
  decide

/-- U2 (V-RSV): one must-be-zero bit per format. -/
theorem test_must_be_zero :
    [0x10000080#32, 0x30000100#32, 0x32000002#32, 0x40000800#32, 0x50000800#32, 0x60020000#32, 0x80010000#32, 0x90000002#32,
      0xA0000001#32, 0xB0000100#32].map decode = List.replicate 10 (.error .mustBeZero) := by
  decide

/-- The host's entry point reads the same words; 28 bits of a SERVICE word hold no `op`. -/
theorem test_table_word :
    decodeTableWord 32 0x680101F4 = some (.starttmr 2 500#16 .pulse) ∧ decodeTableWord 28 0xA0000000 = none := by
  decide

/-- The texts of V-ENC (R79). -/
theorem test_text_commands :
    assemble "INIT 5, gated, 1, 2\nSTARTT0 9600" = some [0x1000005D#32, 0x20002580#32] ∧
    assemble "STARTCAP 2, fall, oneshot, 4" = some [0x38000025#32] ∧
    assemble "STARTPWM 1, 10, rise, 300\nSETDUTY 1, 200" = some [0x4780012C#32, 0x540000C8#32] ∧
    assemble "STARTTMR 2, 400, pulse" = some [0x68010190#32] := by
  decide

theorem test_text_events :
    assemble "TICK 1000\nEDGE 1, rise  ; an edge\nSERVICE\nRD 0x1E" =
      some [0x800003E8#32, 0x94000001#32, 0xA0000000#32, 0xB000001E#32] ∧
    assemble "TICKS 100000" = some [0x8000FFFF#32, 0x800086A1#32] ∧
    assemble "HALT" = none := by
  decide

/-! ### One step per operation -/

/-- Reset, read through the port: `PIN_RESET = (1, 0, 1, 0)` shows as 05 (V-RST). -/
theorem test_reset_pins :
    reg (State.resetWith { Config.default with pinReset := { c0 := true, c1 := false, c2 := true, c3 := false } }) 0x06#8
      = 0x05#8 := by
  decide

/-- The first step after reset runs the placed word (R80's worked example). -/
theorem test_step_init :
    after (step (State.reset.withFetchWord 32 0x10000004)) (fun t => [reg t 0x01#8, reg t 0x00#8, reg t 0x14#8])
      = some [0x08#8, 0x40#8, 0x00#8] := by
  decide

/-- INIT leaves an armed timer channel armed (V-INIT: `CCAPM[0] = 49`, `CCAP[0] = 0005`, `CHMODE[0] = 00`). -/
theorem test_init_leaves_control :
    after (exec (.init 7#3 .gated true 3#2) (started.setChan 0 ((Channel.reset false).startTimer 5#16 .timer)))
      (fun t => [reg t 0x14#8, reg t 0x10#8, reg t 0x11#8, reg t 0x01#8, reg t 0x04#8])
      = some [0x00#8, 0x49#8, 0x05#8, 0x8F#8, 0x03#8] := by
  decide

/-- V-T0 rows `freq = 1000000` and `freq = 366`. -/
theorem test_startt0_record :
    after (exec (.startt0 1000000#28) started) (fun t => [reg t 0x05#8, reg t 0x08#8, reg t 0x0A#8, reg t 0x09#8])
      = some [0x00#8, 0x01#8, 0xE8#8, 0xE8#8] ∧
    after (exec (.startt0 366#28) started) (fun t => [reg t 0x05#8, reg t 0x08#8, reg t 0x0A#8, reg t 0x09#8])
      = some [0x00#8, 0x07#8, 0xEA#8, 0xA8#8] := by
  decide

/-- V-T0: the largest divisor behind the pre-divider, and the one above it. -/
theorem test_startt0_limit :
    after (exec (.startt0 1#28) (startedWith (clocked 786432))) (fun t => [reg t 0x05#8, reg t 0x08#8, reg t 0x0A#8])
      = some [0x00#8, 0x07#8, 0x00#8] ∧
    after (exec (.startt0 1#28) (startedWith (clocked 786433))) (fun t => [reg t 0x05#8, reg t 0x08#8])
      = some [0xFE#8, 0x00#8] := by
  decide

/-- R91's worked example `STARTCAP 2, both, oneshot, 4`. -/
theorem test_startcap :
    after (exec (.startcap 2 .both .oneShot 4#5) started) (fun t => [reg t 0x50#8, reg t 0x54#8, reg t 0x55#8, reg t 0x00#8])
      = some [0x31#8, 0x09#8, 0x04#8, 0x40#8] := by
  decide

/-- U10 (V-RSV): STARTCAP before INIT. -/
theorem test_startcap_before_init :
    refusalOf (step (State.reset.withFetchWord 32 0x30000002)) = some .beforeInit := by
  decide

/-- R94's worked example `STARTPWM 0, 10, rise, 300`. -/
theorem test_startpwm :
    after (exec (.startpwm 0 .w10 .rising 300#11) started)
      (fun t => [reg t 0x11#8, reg t 0x12#8, reg t 0x13#8, reg t 0x10#8, reg t 0x14#8])
      = some [0xD4#8, 0xD4#8, 0xE8#8, 0x63#8, 0x02#8] := by
  decide

/-- V-PWM rows `W = 6, high = 0` and `W = 7, high = 100`. -/
theorem test_startpwm_narrow :
    after (exec (.startpwm 2 .w6 .both 0#11) started) (fun t => [reg t 0x51#8, reg t 0x53#8]) = some [0x00#8, 0x83#8] ∧
    after (exec (.startpwm 2 .w7 .both 100#11) started) (fun t => [reg t 0x51#8, reg t 0x53#8]) = some [0x1C#8, 0x40#8] := by
  decide

/-- V-DUTY row `W = 10, X = 300, Y = 1`. -/
theorem test_setduty :
    after (exec (.setduty 1 1#11) (started.setChan 1 ((Channel.reset false).startPwm .w10 .none 300#11)))
      (fun t => [reg t 0x31#8, reg t 0x32#8, reg t 0x33#8, reg t 0x30#8])
      = some [0xFF#8, 0xFF#8, 0xFC#8, 0x42#8] := by
  decide

/-- U7 and U6 (V-RSV). -/
theorem test_setduty_refused :
    refusalOf (exec (.setduty 0 16#11) started) = some .notPwmChannel ∧
    refusalOf (exec (.setduty 0 129#11) (started.setChan 0 ((Channel.reset false).startPwm .w7 .none 16#11)))
      = some .highOutOfRange := by
  decide

/-- R96's worked example, both submodes. -/
theorem test_starttmr :
    after (exec (.starttmr 1 1000#16 .timer) started)
      (fun t => [reg t 0x30#8, reg t 0x31#8, reg t 0x32#8, reg t 0x34#8, reg t 0x40#8, reg t 0x43#8])
      = some [0x49#8, 0xE8#8, 0x03#8, 0x03#8, 0xE8#8, 0x03#8] ∧
    after (exec (.starttmr 1 1000#16 .pulse) started) (fun t => [reg t 0x30#8, reg t 0x34#8]) = some [0x4D#8, 0x04#8] := by
  decide

/-- V-TICK: overflow and compare equality at 0 in one TICK. -/
theorem test_tick_wrap :
    after (exec (.tick 1#16) ((started.setCnt 0xFFFF#16).setChan 1 ((Channel.reset false).startTimer 0#16 .timer)))
      (fun t => [reg t 0x00#8, reg t 0x02#8, reg t 0x03#8]) = some [0xC2#8, 0x00#8, 0x00#8] := by
  decide

/-- P4: the 8-bit output with `high = 64` rises at `CNT[7:0] = C0`, and its rising-edge trigger sets the flag. -/
theorem test_tick_pwm :
    after (exec (.tick 1#16) ((started.setCnt 0x00BF#16).setChan 0 ((Channel.reset false).startPwm .w8 .rising 64#11)))
      (fun t => [reg t 0x00#8, reg t 0x06#8]) = some [0x41#8, 0x01#8] := by
  decide

/-- R114's worked example: the armed edge captures, the other does nothing. -/
theorem test_edge :
    after (exec (.edge 0 .rising) ((started.setCnt 0x03E8#16).setChan 0 capturing))
      (fun t => [reg t 0x11#8, reg t 0x12#8, reg t 0x00#8]) = some [0xE8#8, 0x03#8, 0x41#8] ∧
    after (exec (.edge 0 .falling) ((started.setCnt 0x03E8#16).setChan 0 capturing))
      (fun t => [reg t 0x11#8, reg t 0x12#8, reg t 0x00#8]) = some [0x00#8, 0x00#8, 0x40#8] := by
  decide

/-- V-EDGE: an edge on a PWM channel does nothing. -/
theorem test_edge_pwm :
    after (exec (.edge 0 .rising) (started.setChan 0 ((Channel.reset false).startPwm .w8 .both 10#11)))
      (fun t => reg t 0x00#8) = some 0x40#8 := by
  decide

/-- P5's pass: the overflow first, then channel 0 (shift 1), then channel 1. -/
theorem test_service_order :
    after (exec .service
        { flagged (flagged startedOvf 0 { capturing with shift := 1#5 }) 1 ((Channel.reset false).startTimer 0#16 .timer)
          with cf := true })
      (fun t => (t.cb, [reg t 0x00#8, reg t 0x1E#8, reg t 0x16#8, reg t 0x36#8]))
      = some ([⟨0, 32768#16⟩, ⟨1, 0#16⟩], [0x40#8, 0x01#8, 0x00#8, 0x01#8]) := by
  decide

/-- P6's pass: a one-shot capture at 300 reports once and is disarmed. -/
theorem test_service_oneshot :
    after (exec .service (flagged started 0 { capturing.setCcap 300#16 with captureMode := .oneShot }))
      (fun t => (t.cb, [reg t 0x10#8, reg t 0x14#8, reg t 0x1C#8, reg t 0x18#8]))
      = some ([⟨0, 300#16⟩], [0x00#8, 0x08#8, 0x2C#8, 0x2C#8]) := by
  decide

/-- V-RST: the base of channel 2 reads 00 when `NCH = 2`, and a channel register of channel 1 shows. -/
theorem test_rd :
    after (exec (.rd 0x50#8) (startedWith small)) State.rdOut = some [0x00#8] ∧
    after (exec (.rd 0x40#8) ((startedWith small).setChan 1 ((Channel.reset false).startTimer 1000#16 .timer))) State.rdOut
      = some [0xE8#8] := by
  decide

/-- Rows of V-DUR: a true 0xFFFF, a clamp, the negative difference at shifts 15 and 23, and bits 31:24 not tested. -/
theorem test_duration :
    durationOf 0x0001FFFE#32 1#5 = 0xFFFF#16 ∧ durationOf 0x00123456#32 4#5 = 0xFFFF#16 ∧
    durationOf 0x00123456#32 8#5 = 0x1234#16 ∧ durationOf 0xFFFFFC18#32 15#5 = 0xFFFF#16 ∧
    durationOf 0xFFFFFC18#32 23#5 = 0x01FF#16 ∧ durationOf 0x01000000#32 0#5 = 0x0000#16 := by
  decide

/-- U11 (V-RSV): SERVICE with `IRQ = 0`. -/
theorem test_service_refused : refusalOf (exec .service started) = some .serviceNotEnabled := by
  decide

/-! ### Witnesses: inputs that meet the hypotheses of the obligations

`witness_<Obligation>` gives a concrete input, or one per clause at the boundary of its range. An obligation about every state or
every word without a premise has none. -/

/-- The operation goes on, and the byte at `x` is another one after it. -/
def changes (i : Instr) (s : State) (x : Byte) : Bool :=
  match exec i s with
  | .next t => decide (reg t x ≠ reg s x)
  | .fault _ => false
  | .refused _ => false

/-- The operation goes on from mode `a` of channel `n` to mode `b`. -/
def moves (i : Instr) (s : State) (n : ChanId) (a b : ChannelMode) : Bool :=
  match exec i s with
  | .next t => decide ((s.chan.get n).mode = a ∧ (t.chan.get n).mode = b)
  | .fault _ => false
  | .refused _ => false

/-- The operation goes on. -/
def goesOn (i : Instr) (s : State) : Bool :=
  (nextOf (exec i s)).isSome

theorem witness_EncodeDecodeRoundTrip : decode 0x3C0000BF#32 = .ok (.startcap 3 .both .oneShot 23#5) := by decide

theorem witness_DecodeAcceptsExactlyTheTableWords :
    decode 0x1000007F#32 = .ok (.init 7#3 .gated true 3#2) ∧ (opcodeRows.filter fun r => r.covers 0x1000007F#32).length = 1 := by
  decide

theorem witness_StepRunsTheDecodedOperation :
    ({ started with trace := [0x800003E8#32, 0xB0000002#32] } : State).trace = 0x800003E8#32 :: [0xB0000002#32] ∧
    decode 0x800003E8#32 = .ok (.tick 1000#16) := by
  decide

/-- A word of each clause, at the edges of the ranges of `op`. -/
theorem witness_StepRefusesReservedWords :
    (0x0FFFFFFF#32).toNat / 2 ^ 28 = 0x0 ∧ (0x70000000#32).toNat / 2 ^ 28 = 0x7 ∧ 0xC ≤ (0xC0000000#32).toNat / 2 ^ 28 ∧
    (0x10000080#32).toNat / 2 ^ 28 = 0x1 ∧ (0xBFFFFFFF#32).toNat / 2 ^ 28 = 0xB ∧
    opcodeRows.all (fun r => !r.covers 0x10000080#32 && !r.covers 0xBFFFFFFF#32) = true := by
  decide

theorem witness_BlockIsInertUntilTheFirstCommand :
    (∀ i ∈ [Instr.tick 100#16, Instr.edge 3 .rising, Instr.rd 0x06#8],
      (∃ k, i = .tick k) ∨ (∃ n p, i = .edge n p ∧ Config.default.hasChannel n = true) ∨ (∃ x, i = .rd x)) ∧
    (∀ n : ChanId, (0x00#8).getLsbD n.val = (Config.default.hasChannel n && Config.default.pinReset.get n)) ∧
    (0x00#8).extractLsb' 4 4 = 0#4 := by
  refine ⟨fun i hi => ?_, by decide, by decide⟩
  simp only [List.mem_cons, List.not_mem_nil, or_false] at hi
  rcases hi with rfl | rfl | rfl
  · exact .inl ⟨_, rfl⟩
  · exact .inr (.inl ⟨3, .rising, rfl, by decide⟩)
  · exact .inr (.inr ⟨_, rfl⟩)

theorem witness_ResetKeepsTheInvariant : Config.default.wf = true ∧ small.wf = true := by decide

/-- A running block with a TICK word waiting keeps the invariant and goes on. -/
theorem witness_EveryStepKeepsTheInvariant :
    ({ started with trace := [0x80000001#32] } : State).Inv ∧
    step { started with trace := [0x80000001#32] } = .next (countOnce started) := by
  refine ⟨?_, rfl⟩
  constructor
  · decide
  · intro n hn
    constructor
    · revert n; decide
    · revert n; decide
    · revert n; decide
    · revert n; decide
    · have h : ∀ n, (started.chan.get n).mode = .unused ∧ (started.chan.get n).ccapm = disarmedControl := by decide
      show (started.chan.get n).modeInv
      rw [Channel.modeInv, (h n).1, (h n).2]
      exact List.mem_cons_self
  · intro n hn; revert n; decide
  · exact .inl rfl
  · exact .inl rfl
  · intro e he; cases he
  · intro h; cases h
  · intro _; exact ⟨rfl, rfl⟩

/-- An operation of each row but RD's that writes a register of its row; RD's row is empty. -/
theorem witness_OperationsWriteOnlyTheirWriteSet :
    changes (.init 7#3 .gated true 3#2) started 0x01#8 = true ∧ changes (.startt0 1#28) started 0x05#8 = true ∧
    changes (.startcap 3 .both .oneShot 23#5) started 0x75#8 = true ∧
    changes (.startcap 0 .both .oneShot 0#5) (started.setChan 3 { capturing with capend := 0x00FFFFFF#32 }) 0x7E#8 = true ∧
    changes (.startpwm 0 .w10 .both 0#11) started 0x13#8 = true ∧
    changes (.setduty 0 256#11) (started.setChan 0 driving) 0x12#8 = true ∧
    changes (.starttmr 3 65535#16 .pulse) started 0x83#8 = true ∧ changes (.tick 1#16) started 0x02#8 = true ∧
    changes (.edge 3 .rising) ((started.setCnt 0xFFFF#16).setChan 3 capturing) 0x72#8 = true ∧
    changes .service (flagged started 3 { capturing.setCcap 0xFFFF#16 with capovf := 255#8 }) 0x7E#8 = true := by
  decide

theorem witness_OutputsComeOnlyFromTheirOperations :
    after (exec .service (flagged started 0 capturing)) State.cb = some [⟨0, 0#16⟩] ∧
    after (exec (.rd 0x00#8) started) State.rdOut = some [0x40#8] ∧
    after (exec (.init 0#3 .freeRunning false 0#2) State.reset) State.inited = some true := by
  decide

/-- A move of each row of the table of R39. -/
theorem witness_ChannelModeFollowsItsLifecycle :
    moves (.init 0#3 .freeRunning false 0#2) (started.setChan 1 capturing) 1 .capture .unused = true ∧
    moves (.startcap 1 .none .continuous 0#5) started 1 .unused .capture = true ∧
    moves (.startpwm 1 .w8 .none 0#11) started 1 .unused .pwm = true ∧
    moves (.starttmr 1 0#16 .timer) started 1 .unused .timer = true ∧
    moves (.starttmr 1 0#16 .pulse) started 1 .unused .pulse = true ∧
    moves .service (flagged started 1 { capturing with captureMode := .oneShot }) 1 .capture .unused = true ∧
    moves .service (flagged started 1 capturing) 1 .capture .capture = true ∧
    moves (.setduty 1 0#11) (started.setChan 1 driving) 1 .pwm .pwm = true := by
  decide

theorem witness_FlagsAreClearedOnlyByService :
    goesOn (.init 0#3 .freeRunning false 0#2) { flagged started 0 capturing with cf := true } = true ∧
    (flagged started 0 capturing |>.chan.get 0).ccf = true := by
  decide

/-- A TICK, and reads beside the two indices that show the codes. -/
theorem witness_ClockAndRouteCodesAreOnlyStored :
    exec (.tick 1#16) started = .next (countOnce started) ∧ (∀ c m v r, Instr.tick 1#16 ≠ .init c m v r) ∧
    goesOn (.rd 0x00#8) started = true ∧ 0x00#8 ≠ 0x01#8 ∧ 0x05#8 ≠ 0x04#8 :=
  ⟨rfl, fun _ _ _ _ h => (by cases h), by decide, by decide, by decide⟩

/-- Each command but INIT in the reset state. -/
theorem witness_CommandsBeforeInitAreRefused :
    State.reset.inited = false ∧
    ∀ i ∈ [Instr.startt0 0#28, Instr.startcap 3 .both .oneShot 31#5, Instr.startpwm 0 .w8 .none 0#11, Instr.setduty 0 0#11,
      Instr.starttmr 0 0#16 .timer], i.isCommand = true ∧ ∀ clk m v r, i ≠ .init clk m v r := by
  refine ⟨rfl, fun i hi => ?_⟩
  simp only [List.mem_cons, List.not_mem_nil, or_false] at hi
  rcases hi with rfl | rfl | rfl | rfl | rfl <;> exact ⟨rfl, fun _ _ _ _ h => by cases h⟩

/-- Two different states that read the same at every index. -/
theorem witness_RegisterSpaceShowsTheWholeState :
    ({ started with rdOut := [1#8] } : State).cfg = started.cfg ∧ { started with rdOut := [1#8] } ≠ started ∧
    ∀ i : Byte, reg { started with rdOut := [1#8] } i = reg started i :=
  ⟨rfl, by decide, fun _ => rfl⟩

theorem witness_MultiByteRegistersAreLittleEndian :
    started.cfg.hasChannel 3 = true ∧ (startedWith small).cfg.hasChannel 1 = true := by
  decide

/-- The edges of the reserved ranges. -/
theorem witness_ReservedIndicesReadZero :
    0x07#8 ∈ [0x07#8, 0x0B#8, 0x0C#8, 0x0D#8, 0x0E#8, 0x0F#8] ∧ chanIdx 0 0x07 = 0x17#8 ∧ chanIdx 0 0x14 = 0x24#8 ∧
    chanIdx 3 0x1F = 0x8F#8 ∧ 0x10 + 0x20 * small.nch.toNat ≤ (0x50#8).toNat ∧
    0x10 + 0x20 * Config.default.nch.toNat ≤ (0x90#8).toNat := by
  decide

theorem witness_InitResetsModesAndStartsTheCounter :
    small.routeCodes.has 1#2 = true ∧ small.routeCodes.has 2#2 = false ∧ small.hasChannel 1 = true := by
  decide

/-- The divisor at both ends of every clause. -/
theorem witness_Startt0ProgramsTheRecord :
    (startedWith (clocked 1)).inited = true ∧ (1#28 ≠ 0#28) ∧ (clocked 1).fCpu / (2#28).toNat = 0 ∧
    (clocked 1).fCpu / (1#28).toNat = 1 ∧ (clocked 256).fCpu / (1#28).toNat = 256 ∧
    (clocked 257).fCpu / (1#28).toNat = 257 ∧ (clocked 65536).fCpu / (1#28).toNat = 65536 ∧
    (clocked 65537).fCpu / (1#28).toNat = 65537 ∧ (clocked 786432).fCpu / (1#28).toNat = 786432 ∧
    (clocked 786433).fCpu / (1#28).toNat = 786433 := by
  decide

/-- A successful STARTT0 in each of the three modes. -/
theorem witness_Startt0PeriodIsTheDivisor :
    after (exec (.startt0 1#28) (startedWith (clocked 256))) (fun t => [reg t 0x05#8, reg t 0x08#8])
      = some [0x00#8, 0x01#8] ∧
    after (exec (.startt0 1#28) (startedWith (clocked 65536))) (fun t => [reg t 0x05#8, reg t 0x08#8])
      = some [0x00#8, 0x03#8] ∧
    after (exec (.startt0 1#28) (startedWith (clocked 65537))) (fun t => [reg t 0x05#8, reg t 0x08#8])
      = some [0x00#8, 0x07#8] := by
  decide

theorem witness_StartcapArmsTheChannelAndRestartsTheArray :
    started.inited = true ∧ (startedWith small).cfg.hasChannel 2 = false ∧ started.cfg.hasChannel 3 = true ∧
    23 < (24#5).toNat ∧ (23#5).toNat ≤ 23 := by
  decide

/-- An absent channel and an unsupported width, each with operands that break other conditions too; a channel not in PWM mode. -/
theorem witness_RefusalsNameTheFirstReason :
    (startedWith small).inited = true ∧ (startedWith small).cfg.hasChannel 2 = false ∧
    (startedWith small).cfg.hasChannel 1 = true ∧ small.pwmWidths.has .w6 = false ∧
    ((startedWith small).chan.get 1).mode ≠ .pwm := by
  decide

/-- Every width at its largest `high`, and one above it. -/
theorem witness_StartpwmConfiguresTheOutput :
    started.inited = true ∧ (startedWith small).cfg.hasChannel 2 = false ∧ small.pwmWidths.has .w8 = true ∧
    (startedWith small).cfg.hasChannel 1 = true ∧ small.pwmWidths.has .w10 = false ∧
    started.cfg.hasChannel 3 = true ∧
    (∀ w ∈ [PwmWidth.w6, .w7, .w8, .w10], Config.default.pwmWidths.has w = true) ∧
    (64#11).toNat ≤ 2 ^ PwmWidth.w6.bits ∧ 2 ^ PwmWidth.w6.bits < (65#11).toNat ∧
    (128#11).toNat ≤ 2 ^ PwmWidth.w7.bits ∧ 2 ^ PwmWidth.w7.bits < (129#11).toNat ∧
    (256#11).toNat ≤ 2 ^ PwmWidth.w8.bits ∧ 2 ^ PwmWidth.w8.bits < (257#11).toNat ∧
    (1024#11).toNat ≤ 2 ^ PwmWidth.w10.bits ∧ 2 ^ PwmWidth.w10.bits < (1025#11).toNat := by
  decide

theorem witness_SetdutyChangesOnlyTheCompareValue :
    (started.setChan 0 driving).inited = true ∧ (started.setChan 0 driving).cfg.hasChannel 0 = true ∧
    PwmWidth.ofCode ((reg (started.setChan 0 driving) (chanIdx 0 0x03)).extractLsb' 6 2) = .w8 ∧
    ((started.setChan 0 driving).chan.get 0).mode = .pwm ∧ (started.chan.get 0).mode ≠ .pwm ∧
    PwmWidth.ofCode ((reg started (chanIdx 0 0x03)).extractLsb' 6 2) = .w8 ∧
    (startedWith small).cfg.hasChannel 2 = false ∧
    PwmWidth.ofCode ((reg (startedWith small) (chanIdx 2 0x03)).extractLsb' 6 2) = .w8 ∧
    (256#11).toNat ≤ 2 ^ PwmWidth.w8.bits ∧ 2 ^ PwmWidth.w8.bits < (257#11).toNat := by
  decide

theorem witness_SetdutyAfterStartpwmIsStartpwm :
    started.inited = true ∧ started.cfg.hasChannel 0 = true ∧ started.cfg.pwmWidths.has .w10 = true ∧
    (0#11).toNat ≤ 2 ^ PwmWidth.w10.bits ∧ (1024#11).toNat ≤ 2 ^ PwmWidth.w10.bits := by
  decide

/-- The lowest and the highest `high`. -/
theorem witness_PwmOutputIsHighForHighCounts :
    exec (.startpwm 0 .w10 .none 0#11) started =
      .next (started.setChan 0 ((started.chan.get 0).startPwm .w10 .none 0#11)) ∧
    exec (.startpwm 0 .w10 .none 1024#11) started =
      .next (started.setChan 0 ((started.chan.get 0).startPwm .w10 .none 1024#11)) :=
  ⟨rfl, rfl⟩

theorem witness_StarttmrSetsPeriodAndFirstCompare :
    started.inited = true ∧ (startedWith small).cfg.hasChannel 2 = false ∧ (startedWith small).cfg.hasChannel 1 = true := by
  decide

/-- A period ahead of the counter, and one equal to it (R164). -/
theorem witness_TimerFirstMatchComesAtItsDistance :
    exec (.starttmr 1 5#16 .pulse) started = .next (started.setChan 1 ((started.chan.get 1).startTimer 5#16 .pulse)) ∧
    exec (.starttmr 1 0#16 .timer) started = .next (started.setChan 1 ((started.chan.get 1).startTimer 0#16 .timer)) ∧
    started.cr = true ∧ (started.chan.get 1).ccf = false ∧
    (if (5#16 : Half) = started.cnt then 65536 else (5#16 - started.cnt).toNat) = 5 ∧
    (if (0#16 : Half) = started.cnt then 65536 else (0#16 - started.cnt).toNat) = 65536 := by
  refine ⟨rfl, rfl, ?_⟩
  decide

/-- A served timer whose accumulator has wrapped: 0x9000 + 0x9000 (V-TMR). -/
theorem witness_TimerValuesStayOnThePeriodGrid :
    ((flagged started 0 ((Channel.reset false).startTimer 0x9000#16 .timer)).chan.get 0).tmrval
      = BitVec.ofNat 16 (1 * 0x9000) ∧
    after (step { flagged started 0 ((Channel.reset false).startTimer 0x9000#16 .timer) with trace := [0xA0000000#32] })
      (fun t => (t.chan.get 0).tmrval) = some 0x2000#16 := by
  decide

theorem witness_TickDoesNothingWhileStopped : State.reset.cr = false ∧ started.cr = true := by decide

theorem witness_TickAdvancesTheCounter : (started.setCnt 0xFFFF#16).cr = true := by decide

/-- A channel of each clause: no comparator, an equality, and a PWM output. -/
theorem witness_OneCountMatchesAndDrivesThePins :
    started.cr = true ∧ started.cfg.hasChannel 1 = true ∧ capturing.ccapm.ecom = false ∧
    (let c := (Channel.reset false).startTimer 1#16 .pulse
     c.ccapm.ecom = true ∧ c.ccapm.mat = true ∧ c.ccapm.pwm = false ∧ started.cnt + 1#16 = c.ccap ∧ c.ccapm.tog = true) ∧
    (let c := (Channel.reset false).startTimer 2#16 .timer
     c.ccapm.ecom = true ∧ c.ccapm.mat = true ∧ c.ccapm.pwm = false ∧ started.cnt + 1#16 ≠ c.ccap) ∧
    driving.ccapm.ecom = true ∧ driving.ccapm.mat = false ∧ driving.ccapm.pwm = true := by
  decide

theorem witness_TickWordsCompose : (65535#16).toNat + (0#16).toNat < 65536 ∧ (1#16).toNat + (65534#16).toNat < 65536 := by decide

/-- Two blocks that differ in another channel, in `CMOD` and in their flags. -/
theorem witness_TicksKeepChannelsIndependent :
    let s := started.setChan 0 driving
    let s' := { (startedOvf.setChan 0 driving).setChan 1 capturing with cf := true }
    s.cfg.hasChannel 0 = s'.cfg.hasChannel 0 ∧ s.cr = s'.cr ∧ s.cnt = s'.cnt ∧ s.chan.get 0 = s'.chan.get 0 ∧ s ≠ s' ∧
    goesOn (.tick 2#16) s = true ∧ goesOn (.tick 2#16) s' = true := by
  decide

theorem witness_EdgeCapturesTheCounterWhenArmed :
    (startedWith small).cfg.hasChannel 2 = false ∧ started.cfg.hasChannel 0 = true ∧
    (reg (started.setChan 0 capturing) (chanIdx 0 0x00)).getLsbD 5 = true ∧
    (reg (started.setChan 0 capturing) (chanIdx 0 0x00)).getLsbD 1 = false ∧
    (reg (started.setChan 0 capturing) (chanIdx 0 0x00)).getLsbD 4 = false ∧
    (reg (started.setChan 0 driving) (chanIdx 0 0x00)).getLsbD 1 = true := by
  decide

theorem witness_SecondCaptureOverwritesTheFirst :
    (started.setChan 0 capturing).cfg.hasChannel 0 = true ∧ capturing.captures .rising = true ∧ capturing.mode = .capture ∧
    capturing.ccapm.eccf = true := by
  decide

theorem witness_ServiceIsEnabledExactlyByIrq : irq (flagged started 0 capturing) = true ∧ irq started = false := by decide

theorem witness_ServiceClearsEveryFlag : irq { startedOvf with cf := true } = true := by decide

/-- With and without an overflow, for an active and an Unused channel without a flag. -/
theorem witness_ServiceCountsOneOverflowPerActiveChannel :
    (let s := { startedOvf.setChan 0 { driving with capovf := 255#8 } with cf := true }
     irq s = true ∧ s.cfg.hasChannel 0 = true ∧ (s.chan.get 0).ccf = false ∧ (s.chan.get 0).mode ≠ .unused ∧
     (s.chan.get 1).ccf = false ∧ (s.chan.get 1).mode = .unused) ∧
    (let s := (flagged started 0 capturing).setChan 1 driving
     irq s = true ∧ s.cf = false ∧ (s.chan.get 1).ccf = false) := by
  decide

/-- Both capture modes, with and without an overflow served in the same pass. -/
theorem witness_ServiceCaptureArm :
    (let s := { flagged startedOvf 0 capturing with cf := true }
     irq s = true ∧ s.cfg.hasChannel 0 = true ∧ (s.chan.get 0).ccf = true ∧ (s.chan.get 0).mode = .capture ∧
     (s.chan.get 0).captureMode = .continuous ∧ reg s (chanIdx 0 0x06) + 1#8 = 1#8) ∧
    (let s := flagged started 3 { capturing with captureMode := .oneShot, capovf := 255#8 }
     irq s = true ∧ s.cf = false ∧ (s.chan.get 3).ccf = true ∧ (s.chan.get 3).mode = .capture ∧
     (s.chan.get 3).captureMode = .oneShot ∧ reg s (chanIdx 3 0x06) = 255#8) := by
  decide

theorem witness_ServiceTimerArm :
    (let s := flagged started 0 ((Channel.reset false).startTimer 5#16 .timer)
     irq s = true ∧ s.cfg.hasChannel 0 = true ∧ (s.chan.get 0).ccf = true ∧ (s.chan.get 0).mode = .timer) ∧
    (let s := flagged started 3 ((Channel.reset false).startTimer 65535#16 .pulse)
     irq s = true ∧ s.cfg.hasChannel 3 = true ∧ (s.chan.get 3).ccf = true ∧ (s.chan.get 3).mode = .pulse) := by
  decide

/-- A PWM channel with a trigger, and a channel that INIT left flagged and armed. -/
theorem witness_ServicePwmAndUnusedArms :
    (let s := flagged started 0 ((Channel.reset false).startPwm .w8 .both 64#11)
     irq s = true ∧ s.cfg.hasChannel 0 = true ∧ (s.chan.get 0).ccf = true ∧ (s.chan.get 0).mode = .pwm) ∧
    (let s := flagged started 1 { (Channel.reset false).startTimer 5#16 .timer with mode := .unused }
     irq s = true ∧ s.cfg.hasChannel 1 = true ∧ (s.chan.get 1).ccf = true ∧ (s.chan.get 1).mode = .unused) := by
  decide

theorem witness_ServiceCallbacksAscend : irq (flagged (flagged started 2 capturing) 1 capturing) = true := by decide

/-- The smallest and the largest shifted count of each clause. -/
theorem witness_DurationShiftsAndSaturates :
    (0x00010000#32).toNat / 2 ^ (0#5).toNat / 2 ^ 16 % 2 ^ 8 ≠ 0 ∧ (0x00FFFFFF#32).toNat / 2 ^ (0#5).toNat / 2 ^ 16 % 2 ^ 8 ≠ 0 ∧
    (0x0000FFFF#32).toNat / 2 ^ (0#5).toNat / 2 ^ 16 % 2 ^ 8 = 0 ∧ (0x01000000#32).toNat / 2 ^ (0#5).toNat / 2 ^ 16 % 2 ^ 8 = 0 := by
  decide

/-- An equal pair, and a negative difference at the shifts where the clauses meet. -/
theorem witness_DurationOfASnapshotDifference :
    (0x00FFFFFF#32).toNat < 2 ^ 24 ∧ (0x0000FFFF#32).toNat < 2 ^ 16 ∧ (23#5).toNat ≤ 23 ∧
    (0x0000FFFF#32).toNat ≤ (0x0000FFFF#32).toNat ∧ (0x0000FFFE#32).toNat < (0x0000FFFF#32).toNat ∧
    (15#5).toNat ≤ 15 ∧ 16 ≤ (16#5).toNat := by
  decide

theorem witness_StartcapBeginsAMeasuredInterval :
    startedOvf.inited = true ∧ startedOvf.cfg.hasChannel 3 = true ∧ (23#5).toNat ≤ 23 ∧ startedOvf.cmod.ecf = true ∧
    startedOvf.cf = false ∧ (startedOvf.chan.get 3).ccf = false := by
  decide

/-- A channel that measures from an edge at 0xFFFE; the counter stands there. -/
def measuring : State :=
  (startedOvf.setCnt 0xFFFE#16).setChan 0 { capturing with capstart := 0x0000FFFE#32 }

/-- An interval with a wrap: two TICKs, the SERVICE that counts the overflow, five more TICKs, and the captured edge. -/
theorem witness_PromptCaptureReportsTheExactTicks :
    Measuring 0 .rising 0#5 0 measuring ∧ selects .rising .rising = true ∧
    (∀ i ∈ [Instr.tick 2#16, Instr.service, Instr.tick 5#16], leavesInterval 0 .rising i = true) ∧
    (∃ u, runOps [.tick 2#16, .service, .tick 5#16] measuring = .next u) ∧
    promptOps ([.tick 2#16, .service, .tick 5#16] ++ [.edge 0 .rising]) measuring ∧
    (measuring.chan.get 0).capstart.toNat + 0 + totalTicks [.tick 2#16, .service, .tick 5#16] < 2 ^ 24 := by
  refine ⟨?_, rfl, by decide, ⟨_, rfl⟩, ?_, by decide⟩
  · constructor <;> decide
  · refine promptOps_cons (by decide) (fun k hk => ?_) rfl <| promptOps_cons (fun _ => rfl) (fun k hk => by cases hk) rfl <|
      promptOps_cons (by decide) (fun k hk => ?_) rfl <| promptOps_cons (by decide) (fun k hk => by cases hk) rfl trivial
    · cases hk; exact ⟨by decide, trivial⟩
    · cases hk; exact ⟨by decide, by decide, by decide, by decide, trivial⟩

theorem witness_StaleOverflowSurvivesStartcap :
    ({ started with cf := true } : State).inited = true ∧ started.cfg.hasChannel 0 = true ∧ (0#5).toNat ≤ 23 ∧
    ({ started with cf := true } : State).cf = true ∧ selects .rising .rising = true := by
  decide

end Sys2Proof.Tests
end

/-! PROOFS. The invariant at reset (R6, R32, R38). -/
section
namespace Sys2Proof.Machine

@[simp] theorem resetWith_cfg (c : Config) : (State.resetWith c).cfg = c := rfl

/-- The reset value of each channel: its pin is `PIN_RESET`, an absent channel's is low (R38). -/
@[simp] theorem resetWith_chan (c : Config) (n : ChanId) :
    (State.resetWith c).chan.get n = Channel.reset (c.hasChannel n && c.pinReset.get n) :=
  PerChannel.get_tabulate _ _

/-- A channel at reset keeps the channel invariant whatever its pin level is: its snapshots and shift are zero, its width code
names the width 8 that every block supports (R6), and it is Unused with a disarmed control byte. -/
theorem channelReset_inv (cfg : Config) (pin : Bool) : (Channel.reset pin).Inv cfg where
  startTop := show (0#32).toNat < 2 ^ 16 by decide
  endTop := show (0#32).toNat < 2 ^ 24 by decide
  shiftRange := show (0#5).toNat ≤ 23 by decide
  widthSupported := rfl
  modeFits := show disarmedControl ∈ disarmedControl :: _ from List.mem_cons_self

/-- The reset state of a block with legal parameters keeps the invariant. -/
theorem resetWith_inv {c : Config} (h : c.wf = true) : (State.resetWith c).Inv where
  cfgWf := h
  chanInv n _ := by
    rw [resetWith_chan]
    exact channelReset_inv _ _
  absentZero n hn := by
    have habsent : c.hasChannel n = false := hn
    rw [resetWith_chan, habsent, Bool.false_and]
  resultCode := .inl rfl
  timer0Legal := .inl rfl
  callbacksExist e he := absurd he List.not_mem_nil
  beforeInit _ := rfl
  afterInit hinit := absurd hinit Bool.false_ne_true

/-- Settles O10: reset keeps the invariant for all legal parameters, and the default parameters are legal. -/
theorem resetKeepsTheInvariant : Obligations.ResetKeepsTheInvariant :=
  ⟨fun _ hwf => resetWith_inv hwf, resetWith_inv (by decide)⟩

end Sys2Proof.Machine
end

/-! PROOFS. What each operation leaves: the fields beside the registers, and the state of each channel in closed form (R39, R40). -/
section
namespace Sys2Proof.Machine

/-! ### Fields an effect does not write -/

/-- INIT writes the counter, the run control, `CMOD`, `ROUTE`, the INIT mark and the channels, nothing else (R40, R80). -/
theorem initialise_eq (clk : BitVec 3) (cmode : CounterMode) (ovfie : Bool) (route : BitVec 2) (s : State) :
    initialise clk cmode ovfie route s =
      { s with cr := true, cl := 0#8, ch := 0#8, cmod := { cmode := cmode, cps := clk, ecf := ovfie }, route := route
               inited := true, chan := (initialise clk cmode ovfie route s).chan } := rfl

/-- STARTCAP writes the counter, the run control and the channels, nothing else (R40, R91). -/
theorem startCapture_eq (n : ChanId) (edge : EdgeSel) (mode : CaptureMode) (shift : BitVec 5) (s : State) :
    startCapture n edge mode shift s =
      { s with cr := true, cl := 0#8, ch := 0#8, chan := (startCapture n edge mode shift s).chan } := rfl

/-- Counting writes the overflow flag, the counter and the channels, nothing else (R40, R110). -/
theorem countTimes_eq (k : Nat) (s : State) :
    countTimes k s =
      { s with cf := (countTimes k s).cf, cl := (countTimes k s).cl, ch := (countTimes k s).ch
               chan := (countTimes k s).chan } := by
  induction k generalizing s with
  | zero => rfl
  | succ k ih =>
    rw [countTimes_succ, ih]
    simp

/-! ### What stands beside the register space -/

/-- The events an operation appends to the callback output: those of one pass of the demultiplexer for SERVICE (R126). -/
def callbacksOf (i : Instr) (s : State) : List CallbackEvent :=
  match i with
  | .service => s.cfg.channels.flatMap fun n => ((serveOverflow s).chan.get n).servedEvents n
  | _ => []

/-- The bytes an operation appends to the read port's answers: the addressed byte for RD (R43). -/
def answersOf (i : Instr) (s : State) : List Byte :=
  match i with
  | .rd x => [reg s x]
  | _ => []

/-- The operation is an INIT. -/
def isInit : Instr → Bool
  | .init _ _ _ _ => true
  | _ => false

theorem isInit_eq_true {i : Instr} : isInit i = true ↔ ∃ clk m v r, i = .init clk m v r := by
  cases i <;> simp [isInit]

theorem service_of_callbacksOf_ne_nil {i : Instr} {s : State} (h : callbacksOf i s ≠ []) : i = .service := by
  cases i <;> simp_all [callbacksOf]

theorem rd_of_answersOf_ne_nil {i : Instr} {s : State} (h : answersOf i s ≠ []) : ∃ x, i = .rd x := by
  cases i <;> simp_all [answersOf]

/-- A callback event names an existing channel (R126). -/
theorem hasChannel_of_mem_callbacksOf {i : Instr} {s : State} {e : CallbackEvent} (h : e ∈ callbacksOf i s) :
    s.cfg.hasChannel e.channel = true := by
  cases service_of_callbacksOf_ne_nil (List.ne_nil_of_mem h)
  obtain ⟨n, hn, he⟩ := List.mem_flatMap.1 h
  rw [channel_of_mem_servedEvents he]
  exact mem_channels.1 hn

/-- What an operation does beside the register space. -/
theorem exec_besides {i : Instr} {s t : State} (h : exec i s = .next t) :
    t.cfg = s.cfg ∧ t.trace = s.trace ∧ t.cb = s.cb ++ callbacksOf i s ∧ t.rdOut = s.rdOut ++ answersOf i s ∧
      t.inited = (s.inited || isInit i) := by
  cases i with
  | init =>
    obtain ⟨-, rfl⟩ := exec_init_eq_next.1 h
    rw [initialise_eq]
    simp [callbacksOf, answersOf, isInit]
  | startt0 =>
    obtain ⟨-, -, rfl⟩ := exec_startt0_eq_next.1 h
    rw [programTimer0_eq]
    simp [callbacksOf, answersOf, isInit]
  | startcap =>
    obtain ⟨-, -, -, rfl⟩ := exec_startcap_eq_next.1 h
    rw [startCapture_eq]
    simp [callbacksOf, answersOf, isInit]
  | startpwm => obtain ⟨-, -, -, -, rfl⟩ := exec_startpwm_eq_next.1 h; simp [callbacksOf, answersOf, isInit]
  | setduty => obtain ⟨-, -, -, -, rfl⟩ := exec_setduty_eq_next.1 h; simp [callbacksOf, answersOf, isInit]
  | starttmr => obtain ⟨-, -, rfl⟩ := exec_starttmr_eq_next.1 h; simp [callbacksOf, answersOf, isInit]
  | tick =>
    obtain rfl := exec_tick_eq_next.1 h
    rw [countTimes_eq]
    simp [callbacksOf, answersOf, isInit]
  | edge => obtain ⟨-, rfl⟩ := exec_edge_eq_next.1 h; simp [callbacksOf, answersOf, isInit]
  | service => obtain ⟨-, rfl⟩ := exec_service_eq_next.1 h; simp [callbacksOf, answersOf, isInit, takeInterrupt_cb]
  | rd => obtain rfl := exec_rd_eq_next.1 h; simp [callbacksOf, answersOf, isInit]

theorem exec_cfg {i : Instr} {s t : State} (h : exec i s = .next t) : t.cfg = s.cfg :=
  (exec_besides h).1

/-- Settles O13: `callbacksOf` is empty but for SERVICE, `answersOf` but for RD, and `isInit` false but for INIT. -/
theorem outputsComeOnlyFromTheirOperations : Obligations.OutputsComeOnlyFromTheirOperations := by
  intro i s t h
  obtain ⟨hcfg, htrace, hcb, hrd, hinited⟩ := exec_besides h
  refine ⟨hcfg, htrace, ⟨_, hcb, service_of_callbacksOf_ne_nil⟩, ⟨_, hrd, rd_of_answersOf_ne_nil⟩, fun hs => ?_, fun ht => ?_⟩
  · rw [hinited, hs, Bool.true_or]
  · rw [hinited, Bool.or_eq_true] at ht
    exact ht.imp_right isInit_eq_true.1

/-! ### What an event does to a channel -/

/-- Counting changes a channel's flag and pin only, and clears no flag (R40, R110). -/
theorem countTimes_chan (k : Nat) (s : State) (n : ChanId) :
    ∃ flag pin, (countTimes k s).chan.get n = { s.chan.get n with ccf := flag, pin := pin } ∧
      ((s.chan.get n).ccf = true → flag = true) := by
  induction k with
  | zero => exact ⟨_, _, rfl, id⟩
  | succ k ih =>
    obtain ⟨flag, pin, hc, hmono⟩ := ih
    rw [countTimes_succ_last]
    generalize countTimes k s = u at hc
    cases hr : u.cr with
    | false => rw [countOnce_stopped hr]; exact ⟨flag, pin, hc, hmono⟩
    | true =>
      rw [countOnce_chan hr]
      split
      · rw [hc, count_eq]
        exact ⟨_, _, rfl, fun hf => count_ccf_mono (hmono hf)⟩
      · exact ⟨flag, pin, hc, hmono⟩

/-- A captured edge changes the capture pair and sets the flag; any other edge changes nothing (R114). -/
theorem edge_cases (pol : Polarity) (cl ch : Byte) (c : Channel) :
    c.edge pol cl ch = c ∨
      c.captures pol = true ∧ c.edge pol cl ch = { c with ccapl := cl, ccaph := ch, ccf := true } := by
  unfold Channel.edge
  split
  · next hcap => exact .inr ⟨hcap, rfl⟩
  · exact .inl rfl

/-- The overflow tracker changes a channel's overflow count only (R119). -/
theorem serveOverflow_chan_eq (s : State) (n : ChanId) :
    ∃ ovf, (serveOverflow s).chan.get n = { s.chan.get n with capovf := ovf } := by
  rw [serveOverflow_chan]
  split
  · exact ⟨_, countOverflow_eq _⟩
  · exact ⟨_, rfl⟩

/-- What the scan of SERVICE can do to a channel: nothing without a flag; with one, the arm of its mode (R120 to R125). -/
theorem served_cases (c : Channel) :
    c.ccf = false ∧ c.served = c ∨
    c.ccf = true ∧
      (c.mode = .capture ∧ c.captureMode = .oneShot ∧
          c.served = { c with ccf := false, mode := .unused, ccapm := disarmedControl, capend := c.endSnapshot
                              capstart := c.startSnapshot, capovf := 0#8 } ∨
        c.mode = .capture ∧ c.captureMode = .continuous ∧
          c.served = { c with ccf := false, capend := c.endSnapshot, capstart := c.startSnapshot, capovf := 0#8 } ∨
        (c.mode = .timer ∨ c.mode = .pulse) ∧
          c.served = { c.setCcap (c.tmrval + c.tmrper) with ccf := false, tmrval := c.tmrval + c.tmrper } ∨
        (c.mode = .pwm ∨ c.mode = .unused) ∧ c.served = { c with ccf := false }) := by
  obtain ⟨ccf, _, _, _, _, _, mode, captureMode, _, _, _, _, _, _⟩ := c
  cases ccf with
  | false => exact .inl ⟨rfl, rfl⟩
  | true =>
    refine .inr ⟨rfl, ?_⟩
    cases mode with
    | capture =>
      cases captureMode with
      | oneShot => exact .inl ⟨rfl, rfl, rfl⟩
      | continuous => exact .inr (.inl ⟨rfl, rfl, rfl⟩)
    | timer => exact .inr (.inr (.inl ⟨.inl rfl, rfl⟩))
    | pulse => exact .inr (.inr (.inl ⟨.inr rfl, rfl⟩))
    | pwm => exact .inr (.inr (.inr ⟨.inl rfl, rfl⟩))
    | unused => exact .inr (.inr (.inr ⟨.inr rfl, rfl⟩))

end Sys2Proof.Machine
end

/-! PROOFS. Each existing channel after an operation, in closed form: its mode follows the lifecycle table (R39) and its flag is
cleared by SERVICE only (R133). -/
section
namespace Sys2Proof.Machine

/-! ### The channels after an operation -/

/-- The state of an existing channel `n` after the operation. -/
def channelAfter (i : Instr) (s : State) (n : ChanId) : Channel :=
  match i with
  | .init _ _ _ _ => { s.chan.get n with mode := .unused }
  | .startcap m edge mode shift =>
    let cleared : Channel := { s.chan.get n with capovf := 0#8, capstart := 0#32, capend := 0#32 }
    if n = m then cleared.armCapture edge mode shift else cleared
  | .startpwm m w trig high => if n = m then (s.chan.get n).startPwm w trig high else s.chan.get n
  | .setduty m high => if n = m then (s.chan.get n).setPwmCompare (s.chan.get n).pcapwm.ebs high else s.chan.get n
  | .starttmr m period out => if n = m then (s.chan.get n).startTimer period out else s.chan.get n
  | .tick count => (countTimes count.toNat s).chan.get n
  | .edge m pol => if n = m then (s.chan.get n).edge pol s.cl s.ch else s.chan.get n
  | .service => ((serveOverflow s).chan.get n).served
  | .startt0 _ | .rd _ => s.chan.get n

/-- An operation on one existing channel leaves every other slot. -/
theorem setChan_chan_of_present {s : State} {m : ChanId} (hm : s.cfg.hasChannel m = true) (f : Channel → Channel) (n : ChanId) :
    (s.setChan m (f (s.chan.get m))).chan.get n =
      if s.cfg.hasChannel n then if n = m then f (s.chan.get n) else s.chan.get n else s.chan.get n := by
  rw [setChan_chan]
  by_cases h : n = m
  · rw [h, hm]; rfl
  · simp [h]

/-- Counting leaves the slot of an absent channel (R110). -/
theorem countTimes_chan_absent {s : State} {n : ChanId} (hn : s.cfg.hasChannel n = false) (k : Nat) :
    (countTimes k s).chan.get n = s.chan.get n := by
  have key : (countTimes k s).cfg = s.cfg ∧ (countTimes k s).chan.get n = s.chan.get n := by
    refine countTimes_keeps (P := fun u => u.cfg = s.cfg ∧ u.chan.get n = s.chan.get n) ?_ k ⟨rfl, rfl⟩
    rintro u ⟨hcfg, hchan⟩
    refine ⟨by rw [countOnce_cfg, hcfg], ?_⟩
    cases hr : u.cr with
    | false => rw [countOnce_stopped hr, hchan]
    | true => rw [countOnce_chan hr, hcfg, hn, if_neg Bool.false_ne_true, hchan]
  exact key.2

/-- Every slot after an operation: an existing channel's in closed form, an absent one's untouched (R90 (a)). -/
theorem exec_chan_get {i : Instr} {s t : State} (h : exec i s = .next t) (n : ChanId) :
    t.chan.get n = if s.cfg.hasChannel n then channelAfter i s n else s.chan.get n := by
  cases i with
  | init => obtain ⟨-, rfl⟩ := exec_init_eq_next.1 h; exact initialise_chan _ _ _ _ _ _
  | startt0 => obtain ⟨-, -, rfl⟩ := exec_startt0_eq_next.1 h; simp [channelAfter]
  | startcap m =>
    obtain ⟨-, hm, -, rfl⟩ := exec_startcap_eq_next.1 h
    rw [startCapture_chan _ _ _ _ hm]
    by_cases hnm : n = m
    · simp [channelAfter, hnm, hm]
    · simp [channelAfter, hnm]
  | startpwm m w trig high =>
    obtain ⟨-, hm, -, -, rfl⟩ := exec_startpwm_eq_next.1 h
    exact setChan_chan_of_present hm (·.startPwm w trig high) n
  | setduty m high =>
    obtain ⟨-, hm, -, -, rfl⟩ := exec_setduty_eq_next.1 h
    exact setChan_chan_of_present hm (fun c => c.setPwmCompare c.pcapwm.ebs high) n
  | starttmr m period out =>
    obtain ⟨-, hm, rfl⟩ := exec_starttmr_eq_next.1 h
    exact setChan_chan_of_present hm (·.startTimer period out) n
  | tick count =>
    obtain rfl := exec_tick_eq_next.1 h
    split
    · rfl
    · next hn => exact countTimes_chan_absent (Bool.eq_false_iff.2 hn) _
  | edge m pol =>
    obtain ⟨hm, rfl⟩ := exec_edge_eq_next.1 h
    exact setChan_chan_of_present hm (·.edge pol s.cl s.ch) n
  | service => obtain ⟨-, rfl⟩ := exec_service_eq_next.1 h; exact takeInterrupt_chan s n
  | rd => obtain rfl := exec_rd_eq_next.1 h; simp [channelAfter]

theorem exec_chan {i : Instr} {s t : State} {n : ChanId} (h : exec i s = .next t) (hn : s.cfg.hasChannel n = true) :
    t.chan.get n = channelAfter i s n := by
  rw [exec_chan_get h, if_pos hn]

theorem exec_chan_absent {i : Instr} {s t : State} {n : ChanId} (h : exec i s = .next t) (hn : s.cfg.hasChannel n = false) :
    t.chan.get n = s.chan.get n := by
  rw [exec_chan_get h, hn, if_neg Bool.false_ne_true]

/-! ### Modes -/

@[simp] theorem countTimes_mode (k : Nat) (s : State) (n : ChanId) :
    ((countTimes k s).chan.get n).mode = (s.chan.get n).mode := by
  obtain ⟨_, _, hc, -⟩ := countTimes_chan k s n
  rw [hc]

@[simp] theorem edge_mode (pol : Polarity) (cl ch : Byte) (c : Channel) : (c.edge pol cl ch).mode = c.mode := by
  obtain hc | ⟨-, hc⟩ := edge_cases pol cl ch c <;> rw [hc]

/-- The scan moves a flagged OneShot Capture channel back to Unused and leaves every other mode (R39, R121). -/
theorem served_mode (c : Channel) :
    c.served.mode = if c.mode = .capture ∧ c.captureMode = .oneShot ∧ c.ccf = true then .unused else c.mode := by
  obtain ⟨hf, hc⟩ | ⟨hf, ⟨hm, hs, hc⟩ | ⟨hm, hs, hc⟩ | ⟨hm, hc⟩ | ⟨hm, hc⟩⟩ := served_cases c
  · simp [hc, hf]
  · simp [hc, hf, hm, hs]
  · simp [hc, hm, hs]
  · obtain hm | hm := hm <;> simp [hc, hm]
  · obtain hm | hm := hm <;> simp [hc, hm]

theorem service_mode (s : State) (n : ChanId) :
    ((serveOverflow s).chan.get n).served.mode =
      if (s.chan.get n).mode = .capture ∧ (s.chan.get n).captureMode = .oneShot ∧ (s.chan.get n).ccf = true then .unused
      else (s.chan.get n).mode := by
  obtain ⟨_, hc⟩ := serveOverflow_chan_eq s n
  rw [served_mode, hc]

/-- Settles O14: the mode of each closed form of `channelAfter`. -/
theorem channelModeFollowsItsLifecycle : Obligations.ChannelModeFollowsItsLifecycle := by
  intro i s t n h hn
  rw [exec_chan h hn]
  cases i with
  | init => rfl
  | startt0 => rfl
  | startcap => exact apply_ite Channel.mode _ _ _
  | startpwm => exact apply_ite Channel.mode _ _ _
  | setduty => exact (apply_ite Channel.mode _ _ _).trans (ite_self _)
  | starttmr _ _ out => cases out <;> exact apply_ite Channel.mode _ _ _
  | tick => exact countTimes_mode _ _ _
  | edge => simp [channelAfter, apply_ite Channel.mode]
  | service => exact service_mode s n
  | rd => rfl

/-! ### Flags -/

/-- Outside SERVICE a set channel flag stays set: TICK and EDGE only set flags, the commands leave them (R133). -/
theorem channelAfter_ccf_mono {i : Instr} (hi : i ≠ .service) {s : State} {n : ChanId} (hf : (s.chan.get n).ccf = true) :
    (channelAfter i s n).ccf = true := by
  cases i with
  | init => exact hf
  | startt0 => exact hf
  | startcap => exact (apply_ite Channel.ccf _ _ _).trans ((ite_self _).trans hf)
  | startpwm => exact (apply_ite Channel.ccf _ _ _).trans ((ite_self _).trans hf)
  | setduty => exact (apply_ite Channel.ccf _ _ _).trans ((ite_self _).trans hf)
  | starttmr => exact (apply_ite Channel.ccf _ _ _).trans ((ite_self _).trans hf)
  | tick count =>
    obtain ⟨flag, pin, hc, hmono⟩ := countTimes_chan count.toNat s n
    rw [channelAfter, hc]
    exact hmono hf
  | edge m pol =>
    simp only [channelAfter]
    split
    · obtain hc | ⟨-, hc⟩ := edge_cases pol s.cl s.ch (s.chan.get n) <;> rw [hc]
      exact hf
    · exact hf
  | service => exact absurd rfl hi
  | rd => exact hf

/-- Counting never clears the overflow flag (R110). -/
theorem countTimes_cf_mono {s : State} (k : Nat) (hf : s.cf = true) : (countTimes k s).cf = true := by
  refine countTimes_keeps (P := fun u => u.cf = true) (fun u hu => ?_) k hf
  cases hr : u.cr with
  | false => rw [countOnce_stopped hr, hu]
  | true => rw [countOnce_cf hr, hu, Bool.true_or]

/-- Outside SERVICE a set overflow flag stays set (R133). -/
theorem exec_cf_mono {i : Instr} {s t : State} (h : exec i s = .next t) (hi : i ≠ .service) (hf : s.cf = true) :
    t.cf = true := by
  cases i with
  | init => obtain ⟨-, rfl⟩ := exec_init_eq_next.1 h; exact hf
  | startt0 => obtain ⟨-, -, rfl⟩ := exec_startt0_eq_next.1 h; rw [programTimer0_eq]; exact hf
  | startcap => obtain ⟨-, -, -, rfl⟩ := exec_startcap_eq_next.1 h; exact hf
  | startpwm => obtain ⟨-, -, -, -, rfl⟩ := exec_startpwm_eq_next.1 h; exact hf
  | setduty => obtain ⟨-, -, -, -, rfl⟩ := exec_setduty_eq_next.1 h; exact hf
  | starttmr => obtain ⟨-, -, rfl⟩ := exec_starttmr_eq_next.1 h; exact hf
  | tick count => obtain rfl := exec_tick_eq_next.1 h; exact countTimes_cf_mono _ hf
  | edge => obtain ⟨-, rfl⟩ := exec_edge_eq_next.1 h; exact hf
  | service => exact absurd rfl hi
  | rd => obtain rfl := exec_rd_eq_next.1 h; exact hf

/-- Settles O15: `CF` by `exec_cf_mono`, a channel's flag by its closed form. -/
theorem flagsAreClearedOnlyByService : Obligations.FlagsAreClearedOnlyByService := by
  intro i s t h hi
  refine ⟨exec_cf_mono h hi, fun n hf => ?_⟩
  rw [exec_chan_get h]
  split
  · exact channelAfter_ccf_mono hi hf
  · exact hf

end Sys2Proof.Machine
end

/-! PROOFS. Every step keeps the invariant of the block: each channel effect keeps the channel invariant, and before the first INIT
nothing but the read port's answers changes (R32, R73, R138, R152). -/
section
namespace Sys2Proof.Machine

/-! ### The mode invariant, mode by mode -/

/-- All control bytes of R73. -/
def legalControls : List Ccapm :=
  disarmedControl :: (captureControls ++ pwmControls ++ timerControls)

theorem modeInv_unused {c : Channel} (hm : c.mode = .unused) : c.modeInv ↔ c.ccapm ∈ legalControls := by
  rw [Channel.modeInv, hm]; rfl

theorem modeInv_capture {c : Channel} (hm : c.mode = .capture) : c.modeInv ↔ c.ccapm ∈ captureControls := by
  rw [Channel.modeInv, hm]

theorem modeInv_pwm {c : Channel} (hm : c.mode = .pwm) :
    c.modeInv ↔ c.ccapm ∈ pwmControls ∧ c.ccapl = c.ccaph ∧ c.pcapwm.xl = c.pcapwm.xh ∧ c.pcapwm.epcl = c.pcapwm.epch := by
  rw [Channel.modeInv, hm]

theorem modeInv_timer {c : Channel} (hm : c.mode = .timer) :
    c.modeInv ↔ c.ccapm = timerControl .timer ∧ c.ccap = c.tmrval := by
  rw [Channel.modeInv, hm]

theorem modeInv_pulse {c : Channel} (hm : c.mode = .pulse) :
    c.modeInv ↔ c.ccapm = timerControl .pulse ∧ c.ccap = c.tmrval := by
  rw [Channel.modeInv, hm]

theorem captureControl_mem (edge : EdgeSel) : captureControl edge ∈ captureControls := by
  cases edge <;> decide

theorem pwmControl_mem (trig : EdgeSel) : pwmControl trig ∈ pwmControls := by
  cases trig <;> decide

/-- In every mode the control byte is one of R73. -/
theorem ccapm_mem_legalControls {c : Channel} (h : c.modeInv) : c.ccapm ∈ legalControls := by
  have hcap : captureControls ⊆ legalControls := by decide
  have hpwm : pwmControls ⊆ legalControls := by decide
  cases hm : c.mode with
  | unused => exact (modeInv_unused hm).1 h
  | capture => exact hcap ((modeInv_capture hm).1 h)
  | pwm => exact hpwm ((modeInv_pwm hm).1 h).1
  | timer => rw [((modeInv_timer hm).1 h).1]; decide
  | pulse => rw [((modeInv_pulse hm).1 h).1]; decide

/-- Only an Unused or a Capture channel captures an edge: the other modes' control bytes have `PWM` set or no edge (R73, R114). -/
theorem mode_of_captures {c : Channel} (h : c.modeInv) {pol : Polarity} (hcap : c.captures pol = true) :
    c.mode = .unused ∨ c.mode = .capture := by
  cases hm : c.mode with
  | unused => exact .inl rfl
  | capture => exact .inr rfl
  | pwm =>
    have hset : ∀ r ∈ pwmControls, r.pwm = true := by decide
    have hpwm := hset _ ((modeInv_pwm hm).1 h).1
    simp [Channel.captures, hpwm] at hcap
  | timer =>
    have hctl := ((modeInv_timer hm).1 h).1
    cases pol <;> simp [Channel.captures, hctl, timerControl, disarmedControl] at hcap
  | pulse =>
    have hctl := ((modeInv_pulse hm).1 h).1
    cases pol <;> simp [Channel.captures, hctl, timerControl, disarmedControl] at hcap

/-! ### Channel effects that keep the channel invariant -/

section
variable {cfg : Config} {c : Channel}

/-- INIT: an Unused channel may hold any control byte (R81). -/
theorem inv_setUnused (hc : c.Inv cfg) : ({ c with mode := .unused } : Channel).Inv cfg where
  startTop := hc.startTop
  endTop := hc.endTop
  shiftRange := hc.shiftRange
  widthSupported := hc.widthSupported
  modeFits := show c.ccapm ∈ legalControls from ccapm_mem_legalControls hc.modeFits

/-- STARTCAP clears every channel's capture bookkeeping (R91). -/
theorem inv_clearCapture (hc : c.Inv cfg) :
    ({ c with capovf := 0#8, capstart := 0#32, capend := 0#32 } : Channel).Inv cfg where
  startTop := show (0#32).toNat < 2 ^ 16 by decide
  endTop := show (0#32).toNat < 2 ^ 24 by decide
  shiftRange := hc.shiftRange
  widthSupported := hc.widthSupported
  modeFits := hc.modeFits

theorem inv_armCapture (hc : c.Inv cfg) (edge : EdgeSel) (mode : CaptureMode) {shift : BitVec 5} (hshift : shift.toNat ≤ 23) :
    (c.armCapture edge mode shift).Inv cfg where
  startTop := hc.startTop
  endTop := hc.endTop
  shiftRange := hshift
  widthSupported := hc.widthSupported
  modeFits := captureControl_mem edge

theorem inv_startPwm (hc : c.Inv cfg) {w : PwmWidth} (hw : cfg.pwmWidths.has w = true) (trig : EdgeSel) (high : BitVec 11) :
    (c.startPwm w trig high).Inv cfg where
  startTop := hc.startTop
  endTop := hc.endTop
  shiftRange := hc.shiftRange
  widthSupported := hw
  modeFits := ⟨pwmControl_mem trig, rfl, rfl, rfl⟩

/-- SETDUTY keeps the width and writes both copies alike (R95). -/
theorem inv_setPwmCompare (hc : c.Inv cfg) (hm : c.mode = .pwm) (high : BitVec 11) :
    (c.setPwmCompare c.pcapwm.ebs high).Inv cfg where
  startTop := hc.startTop
  endTop := hc.endTop
  shiftRange := hc.shiftRange
  widthSupported := hc.widthSupported
  modeFits := (modeInv_pwm (c := c.setPwmCompare c.pcapwm.ebs high) hm).2
    ⟨((modeInv_pwm hm).1 hc.modeFits).1, rfl, rfl, rfl⟩

/-- STARTTMR: the first compare value is the period (R96). -/
theorem inv_startTimer (hc : c.Inv cfg) (period : Half) (out : TimerOutput) : (c.startTimer period out).Inv cfg where
  startTop := hc.startTop
  endTop := hc.endTop
  shiftRange := hc.shiftRange
  widthSupported := hc.widthSupported
  modeFits := by
    cases out with
    | timer => exact ⟨rfl, setCcap_ccap c period⟩
    | pulse => exact ⟨rfl, setCcap_ccap c period⟩

/-- TICK writes a channel's flag and pin only (R40). -/
theorem inv_setFlagPin (hc : c.Inv cfg) (flag pin : Bool) : ({ c with ccf := flag, pin := pin } : Channel).Inv cfg where
  startTop := hc.startTop
  endTop := hc.endTop
  shiftRange := hc.shiftRange
  widthSupported := hc.widthSupported
  modeFits := hc.modeFits

/-- EDGE: no channel whose mode binds its compare pair captures (R114). -/
theorem inv_edge (hc : c.Inv cfg) (pol : Polarity) (cl ch : Byte) : (c.edge pol cl ch).Inv cfg := by
  obtain heq | ⟨hcap, heq⟩ := edge_cases pol cl ch c
  · rw [heq]; exact hc
  · have hmode : (c.edge pol cl ch).modeInv := by
      obtain hm | hm := mode_of_captures hc.modeFits hcap
      · rw [modeInv_unused (by rw [edge_mode, hm]), heq]
        exact (modeInv_unused hm).1 hc.modeFits
      · rw [modeInv_capture (by rw [edge_mode, hm]), heq]
        exact (modeInv_capture hm).1 hc.modeFits
    rw [heq] at hmode ⊢
    exact ⟨hc.startTop, hc.endTop, hc.shiftRange, hc.widthSupported, hmode⟩

/-- Step 1 of SERVICE writes a channel's overflow count only (R119). -/
theorem inv_setOverflow (hc : c.Inv cfg) (ovf : Byte) : ({ c with capovf := ovf } : Channel).Inv cfg where
  startTop := hc.startTop
  endTop := hc.endTop
  shiftRange := hc.shiftRange
  widthSupported := hc.widthSupported
  modeFits := hc.modeFits

/-- The start snapshot holds 16 bits (R27, R121). -/
theorem startSnapshot_lt (c : Channel) : c.startSnapshot.toNat < 2 ^ 16 := by
  rw [startSnapshot_toNat]
  exact c.ccap.isLt

/-- The end snapshot holds 24 bits (R27, R121). -/
theorem endSnapshot_lt (c : Channel) : c.endSnapshot.toNat < 2 ^ 24 := by
  have hovf := c.capovf.isLt
  have hccap := c.ccap.isLt
  rw [endSnapshot_toNat]
  omega

/-- Additive reload moves the compare pair with the accumulator (R123). -/
theorem modeInv_reload (hm : c.mode = .timer ∨ c.mode = .pulse) (h : c.modeInv) (v : Half) :
    ({ c.setCcap v with ccf := false, tmrval := v } : Channel).modeInv := by
  obtain hm | hm := hm
  · exact (modeInv_timer (c := { c.setCcap v with ccf := false, tmrval := v }) hm).2
      ⟨((modeInv_timer hm).1 h).1, setCcap_ccap c v⟩
  · exact (modeInv_pulse (c := { c.setCcap v with ccf := false, tmrval := v }) hm).2
      ⟨((modeInv_pulse hm).1 h).1, setCcap_ccap c v⟩

/-- Step 2 of SERVICE, arm by arm (R120 to R125). -/
theorem inv_served (hc : c.Inv cfg) : c.served.Inv cfg := by
  obtain ⟨-, heq⟩ | ⟨-, ⟨-, -, heq⟩ | ⟨-, -, heq⟩ | ⟨hm, heq⟩ | ⟨-, heq⟩⟩ := served_cases c <;> rw [heq]
  · exact hc
  · exact ⟨startSnapshot_lt c, endSnapshot_lt c, hc.shiftRange, hc.widthSupported, List.mem_cons_self⟩
  · exact ⟨startSnapshot_lt c, endSnapshot_lt c, hc.shiftRange, hc.widthSupported, hc.modeFits⟩
  · exact ⟨hc.startTop, hc.endTop, hc.shiftRange, hc.widthSupported, modeInv_reload hm hc.modeFits _⟩
  · exact inv_setFlagPin hc false c.pin

end

/-- Every operation that goes on keeps the invariant of an existing channel. -/
theorem channelAfter_inv {i : Instr} {s t : State} (h : exec i s = .next t) {n : ChanId} (hc : (s.chan.get n).Inv s.cfg) :
    (channelAfter i s n).Inv s.cfg := by
  cases i with
  | init => exact inv_setUnused hc
  | startt0 => exact hc
  | startcap m edge mode shift =>
    obtain ⟨-, -, hshift, -⟩ := exec_startcap_eq_next.1 h
    simp only [channelAfter]
    split
    · exact inv_armCapture (inv_clearCapture hc) edge mode hshift
    · exact inv_clearCapture hc
  | startpwm m w trig high =>
    obtain ⟨-, -, hw, -⟩ := exec_startpwm_eq_next.1 h
    simp only [channelAfter]
    split
    · exact inv_startPwm hc hw trig high
    · exact hc
  | setduty m high =>
    obtain ⟨-, -, hm, -⟩ := exec_setduty_eq_next.1 h
    simp only [channelAfter]
    split
    · next hnm => exact inv_setPwmCompare hc (hnm ▸ hm) high
    · exact hc
  | starttmr m period out =>
    simp only [channelAfter]
    split
    · exact inv_startTimer hc period out
    · exact hc
  | tick count =>
    obtain ⟨flag, pin, heq, -⟩ := countTimes_chan count.toNat s n
    rw [channelAfter, heq]
    exact inv_setFlagPin hc flag pin
  | edge m pol =>
    simp only [channelAfter]
    split
    · exact inv_edge hc pol s.cl s.ch
    · exact hc
  | service =>
    obtain ⟨ovf, heq⟩ := serveOverflow_chan_eq s n
    rw [channelAfter, heq]
    exact inv_served (inv_setOverflow hc ovf)
  | rd => exact hc

/-! ### The array's fields -/

/-- What STARTT0 leaves: a record of R82 and the code of success, or the old record and a code of failure (R82, R138). -/
theorem programTimer0_cases (freq : BitVec 28) (s : State) :
    ((∃ d, 1 ≤ d ∧ d ≤ 786432 ∧ (programTimer0 freq s).t0 = timer0Record d) ∧ (programTimer0 freq s).result = 0x00#8) ∨
    (programTimer0 freq s).t0 = s.t0 ∧
      ((programTimer0 freq s).result = 0xFF#8 ∨ (programTimer0 freq s).result = 0xFE#8) := by
  simp only [programTimer0]
  split
  · exact .inr ⟨rfl, .inl rfl⟩
  · next hzero =>
    split
    · exact .inr ⟨rfl, .inr rfl⟩
    · next hlarge => exact .inl ⟨⟨_, Nat.one_le_iff_ne_zero.2 hzero, Nat.le_of_not_lt hlarge, rfl⟩, rfl⟩

/-- What an operation does to the run control, the routing code and Timer 0's record: INIT starts the counter on a supported route,
STARTCAP starts it too, and STARTT0 alone programs the record (R40). -/
theorem exec_array {i : Instr} {s t : State} (h : exec i s = .next t) :
    (t.cr = true ∧ s.cfg.routeCodes.has t.route = true ∨ isInit i = false ∧ t.route = s.route ∧ (t.cr = s.cr ∨ t.cr = true)) ∧
    (t.t0 = s.t0 ∧ t.result = s.result ∨ ∃ freq, t = programTimer0 freq s) := by
  cases i with
  | init => obtain ⟨hroute, rfl⟩ := exec_init_eq_next.1 h; exact ⟨.inl ⟨rfl, hroute⟩, .inl ⟨rfl, rfl⟩⟩
  | startt0 freq =>
    obtain ⟨-, -, rfl⟩ := exec_startt0_eq_next.1 h
    refine ⟨.inr ⟨rfl, ?_⟩, .inr ⟨freq, rfl⟩⟩
    rw [programTimer0_eq]
    exact ⟨rfl, .inl rfl⟩
  | startcap => obtain ⟨-, -, -, rfl⟩ := exec_startcap_eq_next.1 h; exact ⟨.inr ⟨rfl, rfl, .inr rfl⟩, .inl ⟨rfl, rfl⟩⟩
  | startpwm => obtain ⟨-, -, -, -, rfl⟩ := exec_startpwm_eq_next.1 h; exact ⟨.inr ⟨rfl, rfl, .inl rfl⟩, .inl ⟨rfl, rfl⟩⟩
  | setduty => obtain ⟨-, -, -, -, rfl⟩ := exec_setduty_eq_next.1 h; exact ⟨.inr ⟨rfl, rfl, .inl rfl⟩, .inl ⟨rfl, rfl⟩⟩
  | starttmr => obtain ⟨-, -, rfl⟩ := exec_starttmr_eq_next.1 h; exact ⟨.inr ⟨rfl, rfl, .inl rfl⟩, .inl ⟨rfl, rfl⟩⟩
  | tick =>
    obtain rfl := exec_tick_eq_next.1 h
    rw [countTimes_eq]
    exact ⟨.inr ⟨rfl, rfl, .inl rfl⟩, .inl ⟨rfl, rfl⟩⟩
  | edge => obtain ⟨-, rfl⟩ := exec_edge_eq_next.1 h; exact ⟨.inr ⟨rfl, rfl, .inl rfl⟩, .inl ⟨rfl, rfl⟩⟩
  | service =>
    obtain ⟨-, rfl⟩ := exec_service_eq_next.1 h
    rw [takeInterrupt_eq]
    exact ⟨.inr ⟨rfl, rfl, .inl rfl⟩, .inl ⟨rfl, rfl⟩⟩
  | rd => obtain rfl := exec_rd_eq_next.1 h; exact ⟨.inr ⟨rfl, rfl, .inl rfl⟩, .inl ⟨rfl, rfl⟩⟩

/-! ### Before the first INIT -/

/-- No flag is set at reset, so the block requests no service (R38, R131). -/
@[simp] theorem resetWith_irq (c : Config) : irq (State.resetWith c) = false := by
  rw [Bool.eq_false_iff, ne_eq, irq_eq_true]
  rintro (⟨hcf, -⟩ | ⟨n, -, hccf, -⟩)
  · cases hcf
  · rw [resetWith_chan] at hccf
    cases hccf

/-- A block that stands as reset left it keeps standing so under every operation but INIT: the counter is stopped, no channel
captures, SERVICE is not enabled, and the other commands are refused (R152, R153). -/
theorem exec_before_init {i : Instr} {s t : State} (h : exec i s = .next t) (hi : isInit i = false) (hs : s.inited = false)
    (hreset : { s with rdOut := [], trace := [] } = State.resetWith s.cfg) :
    { t with rdOut := [], trace := [] } = { s with rdOut := [], trace := [] } := by
  have refused {P : Prop} (hinit : s.inited = true) : P := absurd (hs.symm.trans hinit) Bool.false_ne_true
  cases i with
  | init => cases hi
  | startt0 => exact refused (exec_startt0_eq_next.1 h).1
  | startcap => exact refused (exec_startcap_eq_next.1 h).1
  | startpwm => exact refused (exec_startpwm_eq_next.1 h).1
  | setduty => exact refused (exec_setduty_eq_next.1 h).1
  | starttmr => exact refused (exec_starttmr_eq_next.1 h).1
  | tick count =>
    obtain rfl := exec_tick_eq_next.1 h
    have hstopped : s.cr = false := congrArg State.cr hreset
    rw [countTimes_stopped hstopped]
  | edge n pol =>
    obtain ⟨-, rfl⟩ := exec_edge_eq_next.1 h
    have hchan : s.chan = (State.resetWith s.cfg).chan := by rw [← hreset]
    have hkeep : (s.chan.get n).edge pol s.cl s.ch = s.chan.get n := by
      rw [hchan, resetWith_chan]
      cases pol <;> rfl
    rw [hkeep, setChan_self]
  | service =>
    have hirq : irq s = false := by rw [← resetWith_irq s.cfg, ← hreset]; rfl
    exact absurd (hirq.symm.trans (exec_service_eq_next.1 h).1) Bool.false_ne_true
  | rd => obtain rfl := exec_rd_eq_next.1 h; rfl

/-! ### The block -/

/-- Every operation that goes on keeps the invariant of the block. -/
theorem exec_inv {i : Instr} {s t : State} (hs : s.Inv) (h : exec i s = .next t) : t.Inv := by
  obtain ⟨hcfg, -, hcb, -, hinited⟩ := exec_besides h
  obtain ⟨hrun, htimer⟩ := exec_array h
  constructor
  case cfgWf => rw [hcfg]; exact hs.cfgWf
  case chanInv =>
    intro n hn
    rw [hcfg] at hn ⊢
    rw [exec_chan h hn]
    exact channelAfter_inv h (hs.chanInv n hn)
  case absentZero =>
    intro n hn
    rw [hcfg] at hn
    rw [exec_chan_absent h hn]
    exact hs.absentZero n hn
  case resultCode =>
    obtain ⟨-, hresult⟩ | ⟨freq, rfl⟩ := htimer
    · rw [hresult]; exact hs.resultCode
    · exact (programTimer0_cases freq s).imp And.right And.right
  case timer0Legal =>
    obtain ⟨ht0, -⟩ | ⟨freq, rfl⟩ := htimer
    · rw [ht0]; exact hs.timer0Legal
    · obtain ⟨hrecord, -⟩ | ⟨ht0, -⟩ := programTimer0_cases freq s
      · exact .inr hrecord
      · rw [ht0]; exact hs.timer0Legal
  case callbacksExist =>
    intro e he
    rw [hcb, List.mem_append] at he
    rw [hcfg]
    exact he.elim (hs.callbacksExist e) hasChannel_of_mem_callbacksOf
  case beforeInit =>
    intro ht
    rw [hinited, Bool.or_eq_false_iff] at ht
    obtain ⟨hsi, hi⟩ := ht
    have hreset := hs.beforeInit hsi
    rw [(exec_before_init h hi hsi hreset).trans hreset, hcfg]
  case afterInit =>
    intro ht
    rw [hcfg]
    obtain hnew | ⟨hi, hroute, hcr⟩ := hrun
    · exact hnew
    · rw [hinited, hi, Bool.or_false] at ht
      obtain ⟨hrunning, hsupported⟩ := hs.afterInit ht
      exact ⟨hcr.elim (·.trans hrunning) id, by rw [hroute]; exact hsupported⟩

/-- The invariant does not read the trace. -/
theorem inv_setTrace {s : State} (hs : s.Inv) (rest : List Word) : ({ s with trace := rest } : State).Inv :=
  ⟨hs.cfgWf, hs.chanInv, hs.absentZero, hs.resultCode, hs.timer0Legal, hs.callbacksExist, hs.beforeInit, hs.afterInit⟩

/-- Settles O11: a step changes nothing, or takes a word off the trace and runs an operation that keeps the invariant. -/
theorem everyStepKeepsTheInvariant : Obligations.EveryStepKeepsTheInvariant := by
  intro s t hs h
  obtain ⟨-, rfl⟩ | ⟨w, rest, i, -, -, hexec⟩ := step_eq_next h
  · exact hs
  · exact exec_inv (inv_setTrace hs rest) hexec

end Sys2Proof.Machine
end

/-! PROOFS. The registers at reset (R38), and the write sets of the operations, read through the read port (R40). -/
section
namespace Sys2Proof.Machine

/-! ### The per-channel bits of `CCON` and `PINS` -/

/-- A nibble put together from four flags gives each flag back at its bit. -/
theorem ofBool_append_getLsbD (b3 b2 b1 b0 : Bool) :
    let v : BitVec 4 := BitVec.ofBool b3 ++ BitVec.ofBool b2 ++ BitVec.ofBool b1 ++ BitVec.ofBool b0
    v.getLsbD 0 = b0 ∧ v.getLsbD 1 = b1 ∧ v.getLsbD 2 = b2 ∧ v.getLsbD 3 = b3 := by
  revert b3 b2 b1 b0
  decide

/-- Bit `n` is channel `n`'s (R71, R76). -/
@[simp] theorem channelBits_getLsbD (s : State) (f : Channel → Bool) (n : ChanId) :
    (s.channelBits f).getLsbD n.val = (s.cfg.hasChannel n && f (s.chan.get n)) := by
  obtain ⟨h0, h1, h2, h3⟩ := ofBool_append_getLsbD (s.cfg.hasChannel 3 && f (s.chan.get 3))
    (s.cfg.hasChannel 2 && f (s.chan.get 2)) (s.cfg.hasChannel 1 && f (s.chan.get 1)) (s.cfg.hasChannel 0 && f (s.chan.get 0))
  match n with
  | 0 => exact h0
  | 1 => exact h1
  | 2 => exact h2
  | 3 => exact h3

theorem channelBits_of_clear {s : State} {f : Channel → Bool} (h : ∀ n, f (s.chan.get n) = false) : s.channelBits f = 0#4 := by
  simp [State.channelBits, h]

theorem pinsByte_getLsbD (s : State) (n : ChanId) :
    s.pinsByte.getLsbD n.val = (s.cfg.hasChannel n && (s.chan.get n).pin) := by
  rw [← channelBits_getLsbD]
  show (0#4 ++ s.channelBits Channel.pin).getLsbD n.val = _
  rw [BitVec.getLsbD_append, if_pos n.isLt]

theorem pinsByte_high (s : State) : s.pinsByte.extractLsb' 4 4 = 0#4 :=
  BitVec.extractLsb'_append_eq_left

/-! ### Reset -/

theorem channelReset_byteAt (pin : Bool) (off : Nat) : (Channel.reset pin).byteAt off = 0#8 := by
  unfold Channel.byteAt
  cases pin <;> split <;> decide

theorem resetWith_cconByte (c : Config) : (State.resetWith c).cconByte = 0#8 := by
  rw [State.cconByte, channelBits_of_clear fun n => by rw [resetWith_chan]; rfl]
  exact show BitVec.ofBool false ++ BitVec.ofBool false ++ 0#2 ++ 0#4 = 0#8 by decide

theorem resetWith_arrayByte (c : Config) {k : Nat} (hk : k ≠ 0x06) : (State.resetWith c).arrayByte k = 0#8 := by
  unfold State.arrayByte
  split
  case h_1 => exact resetWith_cconByte c
  case h_2 => exact show State.reset.cmod.byte = 0#8 by decide
  case h_7 => exact absurd rfl hk
  case h_8 => exact show State.reset.t0.ctlByte = 0#8 by decide
  all_goals rfl

/-- At reset every register but `PINS` is zero (R38). -/
theorem resetWith_reg (c : Config) {i : Byte} (hi : i ≠ 0x06#8) : reg (State.resetWith c) i = 0#8 := by
  obtain h | ⟨n, off, ho, rfl⟩ | h := index_cases i
  · rw [reg_array _ h]
    exact resetWith_arrayByte c fun hk => hi (BitVec.eq_of_toNat_eq hk)
  · rw [reg_chan _ n ho, resetWith_chan, channelReset_byteAt, ite_self]
  · exact reg_high _ h

/-- Settles O8: `resetWith_reg` for every index but that of `PINS`, whose bits are the pins' reset levels. -/
theorem resetRegistersZero : Obligations.ResetRegistersZero := by
  intro c
  refine ⟨fun i hi => resetWith_reg c hi, fun n => ?_, ?_, fun n => ?_, rfl, resetWith_irq c⟩
  · rw [reg_pins, pinsByte_getLsbD, resetWith_cfg, resetWith_chan]
    exact Bool.and_self_left ..
  · rw [reg_pins, pinsByte_high]
  · rw [resetWith_chan]
    exact ⟨rfl, rfl⟩

/-! ### The bytes a channel effect changes -/

/-- A byte of a channel that reads differently shows a register that differs (R42). -/
theorem byteAt_changed {c d : Channel} {off : Nat} (h : d.byteAt off ≠ c.byteAt off) :
    off = 0x00 ∧ d.ccapm ≠ c.ccapm ∨ off = 0x01 ∧ d.ccapl ≠ c.ccapl ∨ off = 0x02 ∧ d.ccaph ≠ c.ccaph ∨
    off = 0x03 ∧ d.pcapwm ≠ c.pcapwm ∨ off = 0x04 ∧ d.mode ≠ c.mode ∨ off = 0x04 ∧ d.captureMode ≠ c.captureMode ∨
    off = 0x05 ∧ d.shift ≠ c.shift ∨ off = 0x06 ∧ d.capovf ≠ c.capovf ∨
    (0x08 ≤ off ∧ off ≤ 0x0B) ∧ d.capstart ≠ c.capstart ∨ (0x0C ≤ off ∧ off ≤ 0x0F) ∧ d.capend ≠ c.capend ∨
    (0x10 ≤ off ∧ off ≤ 0x11) ∧ d.tmrper ≠ c.tmrper ∨ (0x12 ≤ off ∧ off ≤ 0x13) ∧ d.tmrval ≠ c.tmrval := by
  by_contra hno
  simp only [ne_eq, not_or, not_and, not_not] at hno
  obtain ⟨hccapm, hccapl, hccaph, hpcapwm, hmode, hcmode, hshift, hcapovf, hcapstart, hcapend, htmrper, htmrval⟩ := hno
  refine h ?_
  unfold Channel.byteAt
  split <;> simp [Channel.chmodeByte, *]

section
variable {c : Channel} {off : Nat}

theorem setUnused_changed (h : ({ c with mode := .unused } : Channel).byteAt off ≠ c.byteAt off) : off = 0x04 := by
  have := byteAt_changed h
  simp at this
  omega

theorem clearCapture_changed
    (h : ({ c with capovf := 0#8, capstart := 0#32, capend := 0#32 } : Channel).byteAt off ≠ c.byteAt off) :
    off = 0x06 ∨ 0x08 ≤ off ∧ off ≤ 0x0F := by
  have := byteAt_changed h
  simp at this
  omega

theorem armCapture_changed {edge : EdgeSel} {mode : CaptureMode} {shift : BitVec 5}
    (h : (c.armCapture edge mode shift).byteAt off ≠ c.byteAt off) : off ∈ [0x00, 0x04, 0x05] := by
  have := byteAt_changed h
  simp [Channel.armCapture] at this ⊢
  omega

theorem setPwmCompare_changed {w : PwmWidth} {high : BitVec 11}
    (h : (c.setPwmCompare w high).byteAt off ≠ c.byteAt off) : off ∈ [0x01, 0x02, 0x03] := by
  have := byteAt_changed h
  simp [Channel.setPwmCompare] at this ⊢
  omega

theorem startPwm_changed {w : PwmWidth} {trig : EdgeSel} {high : BitVec 11}
    (h : (c.startPwm w trig high).byteAt off ≠ c.byteAt off) : off ∈ [0x00, 0x01, 0x02, 0x03, 0x04] := by
  have := byteAt_changed h
  simp [Channel.startPwm, Channel.setPwmCompare] at this ⊢
  omega

theorem startTimer_changed {period : Half} {out : TimerOutput}
    (h : (c.startTimer period out).byteAt off ≠ c.byteAt off) :
    off ∈ [0x00, 0x01, 0x02, 0x04, 0x10, 0x11, 0x12, 0x13] := by
  have := byteAt_changed h
  simp [Channel.startTimer] at this ⊢
  omega

theorem edge_changed {pol : Polarity} {cl ch : Byte} (h : (c.edge pol cl ch).byteAt off ≠ c.byteAt off) :
    off ∈ [0x01, 0x02] := by
  obtain heq | ⟨-, heq⟩ := edge_cases pol cl ch c <;> rw [heq] at h
  · exact absurd rfl h
  · have := byteAt_changed h
    simp at this ⊢
    omega

theorem setOverflow_changed {ovf : Byte} (h : ({ c with capovf := ovf } : Channel).byteAt off ≠ c.byteAt off) :
    off = 0x06 := by
  have := byteAt_changed h
  simp at this
  omega

theorem served_changed (h : c.served.byteAt off ≠ c.byteAt off) :
    off ∈ [0x00, 0x01, 0x02, 0x04, 0x06, 0x12, 0x13] ∨ 0x08 ≤ off ∧ off ≤ 0x0F := by
  obtain ⟨-, heq⟩ | ⟨-, ⟨-, -, heq⟩ | ⟨-, -, heq⟩ | ⟨-, heq⟩ | ⟨-, heq⟩⟩ := served_cases c <;>
    (rw [heq] at h; have := byteAt_changed h; simp at this ⊢)
  all_goals omega

end

/-! ### The write sets -/

/-- An index of channel `n` that reads differently shows a byte of its closed form that differs. -/
theorem channelAfter_changed {i : Instr} {s t : State} (h : exec i s = .next t) {n : ChanId} (hn : s.cfg.hasChannel n = true)
    {off : Nat} (hb : (t.chan.get n).byteAt off ≠ (s.chan.get n).byteAt off) :
    (channelAfter i s n).byteAt off ≠ (s.chan.get n).byteAt off :=
  exec_chan h hn ▸ hb

/-- A change of one channel that keeps its flag and its pin shows only at that channel's own indices, at the offsets `offs` where its
bytes may differ. -/
theorem reg_setChan_changed {s : State} {n : ChanId} {c : Channel} {x : Byte} {offs : List Nat}
    (hx : reg (s.setChan n c) x ≠ reg s x) (hccf : c.ccf = (s.chan.get n).ccf) (hpin : c.pin = (s.chan.get n).pin)
    (hoffs : ∀ off, c.byteAt off ≠ (s.chan.get n).byteAt off → off ∈ offs) :
    x ∈ offs.map (chanIdx n) := by
  by_contra hmem
  refine hx (reg_setChan (fun _ => hccf) (fun _ => hpin) fun off _ hoff => ?_)
  by_contra hb
  exact hmem (hoff ▸ List.mem_map_of_mem (hoffs off hb))

@[simp] theorem edge_pin (pol : Polarity) (cl ch : Byte) (c : Channel) : (c.edge pol cl ch).pin = c.pin := by
  obtain heq | ⟨-, heq⟩ := edge_cases pol cl ch c <;> rw [heq]

@[simp] theorem served_pin (c : Channel) : c.served.pin = c.pin := by
  obtain ⟨-, heq⟩ | ⟨-, ⟨-, -, heq⟩ | ⟨-, -, heq⟩ | ⟨-, heq⟩ | ⟨-, heq⟩⟩ := served_cases c <;> rw [heq]
  rfl

theorem service_pin (s : State) (n : ChanId) : (channelAfter .service s n).pin = (s.chan.get n).pin := by
  obtain ⟨_, heq⟩ := serveOverflow_chan_eq s n
  rw [channelAfter, served_pin, heq]

/-- The bytes SERVICE changes: the overflow count in step 1, those of `served_changed` in step 2. -/
theorem channelAfter_service_changed {s : State} {n : ChanId} {off : Nat}
    (hb : (channelAfter .service s n).byteAt off ≠ (s.chan.get n).byteAt off) :
    off ∈ [0x00, 0x01, 0x02, 0x04, 0x06, 0x12, 0x13] ∨ 0x08 ≤ off ∧ off ≤ 0x0F := by
  by_cases hovf : ((serveOverflow s).chan.get n).byteAt off = (s.chan.get n).byteAt off
  · rw [← hovf] at hb
    exact served_changed hb
  · obtain ⟨_, heq⟩ := serveOverflow_chan_eq s n
    rw [heq] at hovf
    simp [setOverflow_changed hovf]

theorem init_writeSet {clk : BitVec 3} {cmode : CounterMode} {ovfie : Bool} {route : BitVec 2} {s t : State} {x : Byte}
    (h : exec (.init clk cmode ovfie route) s = .next t) (hx : reg t x ≠ reg s x) :
    x ∈ [0x00#8, 0x01#8, 0x02#8, 0x03#8, 0x04#8] ∨ ∃ m, x = chanIdx m 0x04 := by
  by_contra hmem
  simp only [List.mem_cons, List.not_mem_nil, or_false, not_or, not_exists] at hmem
  obtain ⟨⟨h0, h1, h2, h3, h4⟩, hmode⟩ := hmem
  have hchan {n : ChanId} := exec_chan (n := n) h
  obtain ⟨-, rfl⟩ := exec_init_eq_next.1 h
  refine hx (reg_frame rfl (absurd · h0) (absurd · h1) (absurd · h2) (absurd · h3) (absurd · h4) (fun _ => rfl)
    (fun _ n hn => by rw [hchan hn]; rfl) (fun _ => rfl) fun n off _ hoff hn => ?_)
  by_contra hb
  exact hmode n (setUnused_changed (channelAfter_changed h hn hb) ▸ hoff)

theorem startt0_writeSet {freq : BitVec 28} {s t : State} {x : Byte} (h : exec (.startt0 freq) s = .next t)
    (hx : reg t x ≠ reg s x) : x ∈ [0x05#8, 0x08#8, 0x09#8, 0x0A#8] := by
  by_contra hmem
  simp only [List.mem_cons, List.not_mem_nil, or_false, not_or] at hmem
  obtain ⟨h5, h8, h9, hA⟩ := hmem
  obtain ⟨-, -, rfl⟩ := exec_startt0_eq_next.1 h
  rw [programTimer0_eq] at hx
  exact hx (reg_frame rfl (fun _ => ⟨rfl, rfl, fun _ _ => rfl⟩) (fun _ => rfl) (fun _ => rfl) (fun _ => rfl) (fun _ => rfl)
    (absurd · h5) (fun _ _ _ => rfl) (absurd · (by simp [h8, h9, hA])) fun _ _ _ _ _ => rfl)

/-- The bytes STARTCAP changes: in its own channel the control byte, the mode and the shift, in every channel the overflow count
and the snapshots (R91). -/
theorem channelAfter_startcap_changed {m n : ChanId} {edge : EdgeSel} {mode : CaptureMode} {shift : BitVec 5} {s : State}
    {off : Nat} (hb : (channelAfter (.startcap m edge mode shift) s n).byteAt off ≠ (s.chan.get n).byteAt off) :
    n = m ∧ off ∈ [0x00, 0x04, 0x05] ∨ off = 0x06 ∨ 0x08 ≤ off ∧ off ≤ 0x0F := by
  by_cases hclear : ({ s.chan.get n with capovf := 0#8, capstart := 0#32, capend := 0#32 } : Channel).byteAt off
      = (s.chan.get n).byteAt off
  · rw [← hclear] at hb
    simp only [channelAfter] at hb
    split at hb
    · next hnm => exact .inl ⟨hnm, armCapture_changed hb⟩
    · exact absurd rfl hb
  · exact .inr (clearCapture_changed hclear)

theorem startcap_writeSet {m : ChanId} {edge : EdgeSel} {mode : CaptureMode} {shift : BitVec 5} {s t : State} {x : Byte}
    (h : exec (.startcap m edge mode shift) s = .next t) (hx : reg t x ≠ reg s x) :
    x ∈ [0x00#8, 0x02#8, 0x03#8, chanIdx m 0x00, chanIdx m 0x04, chanIdx m 0x05] ∨
      ∃ n off, x = chanIdx n off ∧ (off = 0x06 ∨ 0x08 ≤ off ∧ off ≤ 0x0F) := by
  by_contra hmem
  obtain ⟨hlist, hall⟩ := not_or.1 hmem
  have hown : x ∉ [0x00, 0x04, 0x05].map (chanIdx m) := fun hm => hlist (List.mem_append_right [0x00#8, 0x02#8, 0x03#8] hm)
  simp only [List.mem_cons, List.not_mem_nil, or_false, not_or] at hlist
  obtain ⟨h0, h2, h3, -⟩ := hlist
  have hpin {n : ChanId} (hn : s.cfg.hasChannel n = true) : (t.chan.get n).pin = (s.chan.get n).pin := by
    rw [exec_chan h hn]
    exact (apply_ite Channel.pin _ _ _).trans (ite_self _)
  have hcfg := exec_cfg h
  obtain ⟨-, -, -, heq⟩ := exec_startcap_eq_next.1 h
  rw [startCapture_eq] at heq
  subst heq
  refine hx (reg_frame hcfg (absurd · h0) (fun _ => rfl) (absurd · h2) (absurd · h3) (fun _ => rfl) (fun _ => rfl)
    (fun _ _ hn => hpin hn) (fun _ => rfl) fun n off _ hoff hn => ?_)
  by_contra hb
  obtain ⟨rfl, hoffs⟩ | hoffs := channelAfter_startcap_changed (channelAfter_changed h hn hb)
  · exact hown (hoff ▸ List.mem_map_of_mem hoffs)
  · exact hall ⟨n, off, hoff, hoffs⟩

theorem tick_writeSet {count : Half} {s t : State} {x : Byte} (h : exec (.tick count) s = .next t) (hx : reg t x ≠ reg s x) :
    x ∈ [0x00#8, 0x02#8, 0x03#8, 0x06#8] := by
  by_contra hmem
  simp only [List.mem_cons, List.not_mem_nil, or_false, not_or] at hmem
  obtain ⟨h0, h2, h3, h6⟩ := hmem
  have hbyte (n : ChanId) (off : Nat) :
      ((countTimes count.toNat s).chan.get n).byteAt off = (s.chan.get n).byteAt off := by
    obtain ⟨flag, pin, heq, -⟩ := countTimes_chan count.toNat s n
    rw [heq]
    rfl
  obtain rfl := exec_tick_eq_next.1 h
  rw [countTimes_eq] at hx
  exact hx (reg_frame rfl (absurd · h0) (fun _ => rfl) (absurd · h2) (absurd · h3) (fun _ => rfl) (fun _ => rfl)
    (absurd · h6) (fun _ => rfl) fun n off _ _ _ => hbyte n off)

theorem edge_writeSet {n : ChanId} {pol : Polarity} {s t : State} {x : Byte} (h : exec (.edge n pol) s = .next t)
    (hx : reg t x ≠ reg s x) : x ∈ [0x00#8, chanIdx n 0x01, chanIdx n 0x02] := by
  by_contra hmem
  have hown : x ∉ [0x01, 0x02].map (chanIdx n) := fun hm => hmem (List.mem_cons_of_mem _ hm)
  obtain ⟨-, rfl⟩ := exec_edge_eq_next.1 h
  refine hx (reg_setChan (fun h0 => absurd (h0 ▸ List.mem_cons_self) hmem) (fun _ => edge_pin ..) fun off _ hoff => ?_)
  by_contra hb
  exact hown (hoff ▸ List.mem_map_of_mem (edge_changed hb))

theorem service_writeSet {s t : State} {x : Byte} (h : exec .service s = .next t) (hx : reg t x ≠ reg s x) :
    x = 0x00#8 ∨ ∃ m off, x = chanIdx m off ∧
      (off ∈ [0x00, 0x01, 0x02, 0x04, 0x06, 0x12, 0x13] ∨ 0x08 ≤ off ∧ off ≤ 0x0F) := by
  by_contra hmem
  obtain ⟨h0, hall⟩ := not_or.1 hmem
  have hchan {n : ChanId} := exec_chan (n := n) h
  obtain ⟨-, rfl⟩ := exec_service_eq_next.1 h
  refine hx (reg_frame (takeInterrupt_cfg s) (absurd · h0) (fun _ => takeInterrupt_cmod s) (fun _ => takeInterrupt_cl s)
    (fun _ => takeInterrupt_ch s) (fun _ => takeInterrupt_route s) (fun _ => takeInterrupt_result s)
    (fun _ n hn => by rw [hchan hn]; exact service_pin s n) (fun _ => takeInterrupt_t0 s) fun n off _ hoff hn => ?_)
  by_contra hb
  exact hall ⟨n, off, hoff, channelAfter_service_changed (channelAfter_changed h hn hb)⟩

theorem rd_reg {idx : Byte} {s t : State} (h : exec (.rd idx) s = .next t) (x : Byte) : reg t x = reg s x := by
  obtain rfl := exec_rd_eq_next.1 h
  rfl

/-- Settles O12, operation by operation. -/
theorem operationsWriteOnlyTheirWriteSet : Obligations.OperationsWriteOnlyTheirWriteSet := by
  intro i s t x h hx
  cases i with
  | init => exact init_writeSet h hx
  | startt0 => exact startt0_writeSet h hx
  | startcap => exact startcap_writeSet h hx
  | startpwm =>
    obtain ⟨-, -, -, -, rfl⟩ := exec_startpwm_eq_next.1 h
    exact (reg_setChan_changed hx rfl rfl fun _ => startPwm_changed :)
  | setduty =>
    obtain ⟨-, -, -, -, rfl⟩ := exec_setduty_eq_next.1 h
    exact (reg_setChan_changed hx rfl rfl fun _ => setPwmCompare_changed :)
  | starttmr =>
    obtain ⟨-, -, rfl⟩ := exec_starttmr_eq_next.1 h
    exact (reg_setChan_changed hx rfl rfl fun _ => startTimer_changed :)
  | tick => exact tick_writeSet h hx
  | edge => exact edge_writeSet h hx
  | service => exact service_writeSet h hx
  | rd => exact hx (rd_reg h x)

end Sys2Proof.Machine
end

/-! PROOFS. The counter mode, the clock code and the routing code are only stored: operations commute with replacing them (R17, R18,
R115). -/
section
namespace Sys2Proof.Machine

/-- `s` with another counter mode, clock source code and routing code. -/
def State.recode (m : CounterMode) (clk : BitVec 3) (route : BitVec 2) (s : State) : State :=
  { s with cmod := { s.cmod with cmode := m, cps := clk }, route := route }

section
variable (m : CounterMode) (clk : BitVec 3) (route : BitVec 2) (s : State)

@[simp] theorem recode_cr : (s.recode m clk route).cr = s.cr := rfl

theorem countOnce_recode : countOnce (s.recode m clk route) = (countOnce s).recode m clk route := by
  cases hr : s.cr with
  | false => rw [countOnce_stopped hr, countOnce_stopped (by rw [recode_cr, hr])]
  | true =>
    rw [countOnce_running hr, countOnce_running (by rw [recode_cr, hr])]
    rfl

theorem countTimes_recode (k : Nat) : countTimes k (s.recode m clk route) = (countTimes k s).recode m clk route := by
  induction k generalizing s with
  | zero => rfl
  | succ k ih => rw [countTimes_succ, countTimes_succ, countOnce_recode, ih]

theorem serveOverflow_recode : serveOverflow (s.recode m clk route) = (serveOverflow s).recode m clk route := by
  simp only [serveOverflow, apply_ite (State.recode m clk route)]
  rfl

/-- The request reads the overflow enable of `CMOD` and none of the codes (R131). -/
theorem irq_recode : irq (s.recode m clk route) = irq s := rfl

theorem takeInterrupt_recode : takeInterrupt (s.recode m clk route) = (takeInterrupt s).recode m clk route := by
  rw [takeInterrupt_eq, takeInterrupt_eq, serveOverflow_recode]
  rfl

theorem programTimer0_recode (freq : BitVec 28) :
    programTimer0 freq (s.recode m clk route) = (programTimer0 freq s).recode m clk route := by
  simp only [programTimer0, apply_ite (State.recode m clk route)]
  rfl

/-- Only `CMOD` and `ROUTE` show the codes (R42). -/
theorem reg_recode {x : Byte} (h1 : x ≠ 0x01#8) (h4 : x ≠ 0x04#8) : reg (s.recode m clk route) x = reg s x :=
  reg_frame rfl (fun _ => ⟨rfl, rfl, fun _ _ => rfl⟩) (absurd · h1) (fun _ => rfl) (fun _ => rfl) (absurd · h4)
    (fun _ => rfl) (fun _ _ _ => rfl) (fun _ => rfl) fun _ _ _ _ _ => rfl

end

/-- Settles O16: every effect but INIT's commutes with `State.recode`, and no check reads the codes. -/
theorem clockAndRouteCodesAreOnlyStored : Obligations.ClockAndRouteCodesAreOnlyStored := by
  intro i s t m clk route h hinit hrd
  show exec i (s.recode m clk route) = .next (t.recode m clk route)
  cases i with
  | init c cm v r => exact absurd rfl (hinit c cm v r)
  | startt0 freq =>
    obtain ⟨hinited, hfreq, rfl⟩ := exec_startt0_eq_next.1 h
    exact exec_startt0_eq_next.2 ⟨hinited, hfreq, programTimer0_recode m clk route s freq⟩
  | startcap =>
    obtain ⟨hinited, hn, hshift, rfl⟩ := exec_startcap_eq_next.1 h
    exact exec_startcap_eq_next.2 ⟨hinited, hn, hshift, rfl⟩
  | startpwm =>
    obtain ⟨hinited, hn, hw, hhigh, rfl⟩ := exec_startpwm_eq_next.1 h
    exact exec_startpwm_eq_next.2 ⟨hinited, hn, hw, hhigh, rfl⟩
  | setduty =>
    obtain ⟨hinited, hn, hm, hhigh, rfl⟩ := exec_setduty_eq_next.1 h
    exact exec_setduty_eq_next.2 ⟨hinited, hn, hm, hhigh, rfl⟩
  | starttmr =>
    obtain ⟨hinited, hn, rfl⟩ := exec_starttmr_eq_next.1 h
    exact exec_starttmr_eq_next.2 ⟨hinited, hn, rfl⟩
  | tick count =>
    obtain rfl := exec_tick_eq_next.1 h
    exact exec_tick_eq_next.2 (countTimes_recode m clk route s count.toNat)
  | edge =>
    obtain ⟨hn, rfl⟩ := exec_edge_eq_next.1 h
    exact exec_edge_eq_next.2 ⟨hn, rfl⟩
  | service =>
    obtain ⟨hirq, rfl⟩ := exec_service_eq_next.1 h
    exact exec_service_eq_next.2 ⟨(irq_recode m clk route s).trans hirq, takeInterrupt_recode m clk route s⟩
  | rd x =>
    obtain rfl := exec_rd_eq_next.1 h
    obtain ⟨h1, h4⟩ := hrd x rfl
    rw [exec_rd_eq_next, reg_recode m clk route s h1 h4]
    rfl

end Sys2Proof.Machine
end

/-! PROOFS. The register space as a view of the state: what the read port shows at the reserved indices and of the multi-byte
registers (R42 to R45), and that the bytes of all indices determine the state (R41). -/
section
namespace Sys2Proof

/-! ### Concatenations and codes determine their parts -/

/-- A concatenation determines its parts. -/
theorem append_eq_append_iff {a b : Nat} {x x' : BitVec a} {y y' : BitVec b} : x ++ y = x' ++ y' ↔ x = x' ∧ y = y' := by
  constructor
  · intro h
    obtain rfl : y = y' := by
      simpa only [BitVec.extractLsb'_append_eq_right] using congrArg (BitVec.extractLsb' 0 b) h
    exact ⟨(BitVec.append_left_inj y).1 h, rfl⟩
  · rintro ⟨rfl, rfl⟩; rfl

theorem CounterMode.bit_injective : Function.Injective CounterMode.bit :=
  Function.LeftInverse.injective CounterMode.ofBit_bit

theorem CaptureMode.bit_injective : Function.Injective CaptureMode.bit :=
  Function.LeftInverse.injective CaptureMode.ofBit_bit

theorem PwmWidth.code_injective : Function.Injective PwmWidth.code :=
  Function.LeftInverse.injective PwmWidth.ofCode_code

/-- A byte that shows a shorter field with zero bits above it determines the field. -/
theorem zeroExtend_injective {v w : Nat} (h : v ≤ w) : Function.Injective (BitVec.zeroExtend w : BitVec v → BitVec w) := by
  intro a b hab
  exact BitVec.eq_of_toNat_eq (by simpa [BitVec.toNat_setWidth_of_le h] using congrArg BitVec.toNat hab)

end Sys2Proof

namespace Sys2Proof.Machine

/-! ### The read port -/

/-- Settles O5: `step_ok`. -/
theorem stepRunsTheDecodedOperation : Obligations.StepRunsTheDecodedOperation :=
  fun _ _ _ _ htrace hdecode => step_ok htrace hdecode

/-- RD goes on, and only its list of answers grows (R43, R49). -/
theorem exec_rd (x : Byte) (s : State) : exec (.rd x) s = .next { s with rdOut := s.rdOut ++ [reg s x] } :=
  exec_rd_eq_next.2 rfl

/-- Settles O22: the list of answers is neither a register nor read by the request line. -/
theorem readReturnsTheRegisterAndChangesNone : Obligations.ReadReturnsTheRegisterAndChangesNone :=
  fun s x => ⟨_, exec_rd x s, rfl, rd_reg (exec_rd x s), rfl, rfl, rfl, rfl, rfl⟩

/-! ### Reserved indices -/

/-- No register of a channel stands at the offsets 0x07 and 0x14 to 0x1F (R42, R44). -/
theorem byteAt_reserved (c : Channel) {off : Nat} (h : off = 0x07 ∨ 0x14 ≤ off) : c.byteAt off = 0#8 := by
  unfold Channel.byteAt
  split
  case h_20 => rfl
  all_goals omega

/-- Channel numbers from `NCH` up do not exist (R6). -/
theorem hasChannel_of_nch_le {c : Config} {n : ChanId} (h : c.nch.toNat ≤ n.val) : c.hasChannel n = false :=
  decide_eq_false (Nat.not_lt.2 h)

/-- The indices of a channel that does not exist read 0 (R42, R44). -/
theorem reg_absent {s : State} {n : ChanId} (h : s.cfg.hasChannel n = false) {off : Nat} (ho : off < 0x20) :
    reg s (chanIdx n off) = 0#8 := by
  rw [reg_chan s n ho, h]
  rfl

/-- From the base of the first absent channel up every index reads 0 (R42, R44). -/
theorem reg_above_channels {s : State} {x : Byte} (h : 0x10 + 0x20 * s.cfg.nch.toNat ≤ x.toNat) : reg s x = 0#8 := by
  obtain hlow | ⟨n, off, ho, rfl⟩ | hhigh := index_cases x
  · omega
  · rw [chanIdx_toNat n ho] at h
    exact reg_absent (hasChannel_of_nch_le (by omega)) ho
  · exact reg_high s hhigh

/-- Settles O21: an index reserved by R42 shows no register, so RD answers 0x00. -/
theorem reservedIndicesReadZero : Obligations.ReservedIndicesReadZero := by
  intro s x hx
  have hzero : reg s x = 0#8 := by
    obtain harray | ⟨n, off, rfl, hoff⟩ | habove := hx
    · simp only [List.mem_cons, List.not_mem_nil, or_false] at harray
      obtain rfl | rfl | rfl | rfl | rfl | rfl := harray <;> exact reg_array s (by decide)
    · rw [reg_chan s n (by omega), byteAt_reserved _ (by omega), ite_self]
    · exact reg_above_channels habove
  rw [exec_rd, hzero]

/-! ### Multi-byte registers -/

/-- The value read from index `i` up is `v` without its lowest `lo` bits, when the indices show the bytes of `v` from bit `lo` up,
low byte first (R45). -/
theorem memRead_of_bytes_from {w : Nat} (v : BitVec w) (s : State) (k : Nat) {i : Byte} {lo : Nat}
    (h : ∀ j < k, reg s (i + BitVec.ofNat 8 j) = v.extractLsb' (lo + 8 * j) 8) :
    memRead s i k = v.toNat / 2 ^ lo % 256 ^ k := by
  induction k generalizing i lo with
  | zero => exact (Nat.mod_one _).symm
  | succ k ih =>
    have hfirst : reg s i = v.extractLsb' lo 8 := by simpa using h 0 (by omega)
    have hrest : memRead s (i + 1#8) k = v.toNat / 2 ^ (lo + 8) % 256 ^ k := ih fun j hj => by
      have hnext := h (j + 1) (by omega)
      rw [Nat.add_comm j 1, BitVec.ofNat_add, ← BitVec.add_assoc] at hnext
      rw [hnext, Nat.mul_add, ← Nat.add_assoc]
    have hpow : 256 ^ (k + 1) = 2 ^ 8 * 256 ^ k := Nat.pow_succ'
    rw [memRead, hfirst, hrest, BitVec.extractLsb'_toNat, Nat.shiftRight_eq_div_pow, hpow, Nat.mod_mul, Nat.pow_add,
      Nat.div_div_eq_div_mul]
    rfl

/-- Indices that show the bytes of `v`, low byte first, read as `v` (R45). -/
theorem memRead_of_bytes {k : Nat} (v : BitVec (8 * k)) (s : State) {i : Byte}
    (h : ∀ j < k, reg s (i + BitVec.ofNat 8 j) = v.extractLsb' (8 * j) 8) : memRead s i k = v.toNat := by
  rw [memRead_of_bytes_from (lo := 0) v s k (by simpa using h), Nat.pow_zero, Nat.div_one, Nat.mod_eq_of_lt]
  simpa [Nat.pow_mul] using v.isLt

/-- The index `off + j` of a channel, counted from the index `off` (R42). -/
theorem chanIdx_add (n : ChanId) {off j : Nat} (h : off + j < 0x20) : chanIdx n off + BitVec.ofNat 8 j = chanIdx n (off + j) := by
  apply BitVec.eq_of_toNat_eq
  have hn := n.isLt
  rw [BitVec.toNat_add, chanIdx_toNat n (by omega), chanIdx_toNat n h, BitVec.toNat_ofNat]
  omega

/-- A channel's register of `k` bytes at the offset `off` reads low byte first (R42, R45). -/
theorem memRead_chan {s : State} {n : ChanId} (hn : s.cfg.hasChannel n = true) {k off : Nat} (v : BitVec (8 * k))
    (hoff : off + k ≤ 0x20) (h : ∀ j < k, (s.chan.get n).byteAt (off + j) = v.extractLsb' (8 * j) 8) :
    memRead s (chanIdx n off) k = v.toNat :=
  memRead_of_bytes v s fun j hj => by
    rw [chanIdx_add n (by omega), reg_present hn (by omega), h j hj]

/-! The offsets of the four multi-byte registers (R42). -/

theorem byteAt_capstart (c : Channel) : ∀ j < 4, c.byteAt (0x08 + j) = c.capstart.extractLsb' (8 * j) 8
  | 0, _ | 1, _ | 2, _ | 3, _ => rfl

theorem byteAt_capend (c : Channel) : ∀ j < 4, c.byteAt (0x0C + j) = c.capend.extractLsb' (8 * j) 8
  | 0, _ | 1, _ | 2, _ | 3, _ => rfl

theorem byteAt_tmrper (c : Channel) : ∀ j < 2, c.byteAt (0x10 + j) = c.tmrper.extractLsb' (8 * j) 8
  | 0, _ | 1, _ => rfl

theorem byteAt_tmrval (c : Channel) : ∀ j < 2, c.byteAt (0x12 + j) = c.tmrval.extractLsb' (8 * j) 8
  | 0, _ | 1, _ => rfl

/-- The indices of `T0RL` and `T0RH` show the bytes of the reload pair (R42). -/
theorem reg_t0reload (s : State) : ∀ j < 2, reg s (0x09#8 + BitVec.ofNat 8 j) = (s.t0.rh ++ s.t0.rl).extractLsb' (8 * j) 8
  | 0, _ => BitVec.extractLsb'_append_eq_right.symm
  | 1, _ => BitVec.extractLsb'_append_eq_left.symm

/-- Settles O20: `memRead_chan` for each register of a channel, `memRead_of_bytes` for the reload pair. -/
theorem multiByteRegistersAreLittleEndian : Obligations.MultiByteRegistersAreLittleEndian := by
  intro s n hn
  exact ⟨memRead_chan (k := 4) hn (s.chan.get n).capstart (by decide) (byteAt_capstart _),
    memRead_chan (k := 4) hn (s.chan.get n).capend (by decide) (byteAt_capend _),
    memRead_chan (k := 2) hn (s.chan.get n).tmrper (by decide) (byteAt_tmrper _),
    memRead_chan (k := 2) hn (s.chan.get n).tmrval (by decide) (byteAt_tmrval _),
    memRead_of_bytes (k := 2) (s.t0.rh ++ s.t0.rl) s (reg_t0reload s)⟩

/-! ### What a byte says about its register -/

theorem ChannelMode.code_injective : Function.Injective ChannelMode.code := by
  intro a b h
  cases a <;> cases b <;> simp [ChannelMode.code] at h ⊢

theorem Ccapm.byte_injective : Function.Injective Ccapm.byte := by
  intro a b h
  have hparts := append_eq_append_iff.1 h
  simp only [append_eq_append_iff, BitVec.ofBool_eq_iff_eq] at hparts
  exact (Ccapm.mk.injEq ..).mpr (by simpa only [and_assoc, true_and] using hparts)

theorem Pcapwm.byte_injective : Function.Injective Pcapwm.byte := by
  intro a b h
  have hparts := append_eq_append_iff.1 h
  simp only [append_eq_append_iff, BitVec.ofBool_eq_iff_eq, PwmWidth.code_injective.eq_iff] at hparts
  exact (Pcapwm.mk.injEq ..).mpr (by simpa only [and_assoc, true_and] using hparts)

theorem Cmod.byte_injective : Function.Injective Cmod.byte := by
  intro a b h
  have hparts := append_eq_append_iff.1 h
  simp only [append_eq_append_iff, BitVec.ofBool_eq_iff_eq, CounterMode.bit_injective.eq_iff] at hparts
  exact (Cmod.mk.injEq ..).mpr (by simpa only [and_assoc, true_and] using hparts)

/-- The three bytes of the Timer-0 record determine it (R76). -/
theorem timer0_eq_of_bytes {a b : Timer0} (hctl : a.ctlByte = b.ctlByte) (hrl : a.rl = b.rl) (hrh : a.rh = b.rh) : a = b := by
  have hparts := append_eq_append_iff.1 hctl
  simp only [append_eq_append_iff, BitVec.ofBool_eq_iff_eq, true_and] at hparts
  obtain ⟨⟨hdiv12, hm16⟩, hrun⟩ := hparts
  exact (Timer0.mk.injEq ..).mpr ⟨hrun, hm16, hdiv12, hrl, hrh⟩

/-- `CHMODE` determines the channel mode and the capture mode (R75). -/
theorem modes_eq_of_chmodeByte {c d : Channel} (h : d.chmodeByte = c.chmodeByte) :
    d.mode = c.mode ∧ d.captureMode = c.captureMode := by
  obtain ⟨hhigh, hmode⟩ := append_eq_append_iff.1 h
  simp only [append_eq_append_iff, BitVec.ofBool_eq_iff_eq, CaptureMode.bit_injective.eq_iff] at hhigh
  exact ⟨ChannelMode.code_injective hmode, hhigh.2⟩

/-- `CCON` determines the overflow flag, the run control and the existing channels' flags (R71). -/
theorem flags_eq_of_cconByte {s t : State} (h : t.cconByte = s.cconByte) :
    t.cf = s.cf ∧ t.cr = s.cr ∧ t.channelBits Channel.ccf = s.channelBits Channel.ccf := by
  obtain ⟨hhigh, hflags⟩ := append_eq_append_iff.1 h
  simp only [append_eq_append_iff, BitVec.ofBool_eq_iff_eq] at hhigh
  exact ⟨hhigh.1.1, hhigh.1.2, hflags⟩

/-- `PINS` determines the existing channels' pins (R76). -/
theorem pins_eq_of_pinsByte {s t : State} (h : t.pinsByte = s.pinsByte) :
    t.channelBits Channel.pin = s.channelBits Channel.pin :=
  (append_eq_append_iff.1 h).2

/-- A nibble of per-channel bits determines the bit of each existing channel. -/
theorem channelBits_eq_get {s t : State} {f : Channel → Bool} (hbits : t.channelBits f = s.channelBits f)
    (hcfg : t.cfg = s.cfg) {n : ChanId} (hn : s.cfg.hasChannel n = true) : f (t.chan.get n) = f (s.chan.get n) := by
  have hbit := congrArg (·.getLsbD n.val) hbits
  simpa only [channelBits_getLsbD, hcfg, hn, Bool.true_and] using hbit

/-! ### What all indices say about the state -/

section
variable {s t : State} (hcfg : t.cfg = s.cfg) (hreg : ∀ i : Byte, reg t i = reg s i)
include hreg

theorem memRead_eq_of_reg_eq (k : Nat) (i : Byte) : memRead t i k = memRead s i k := by
  induction k generalizing i with
  | zero => rfl
  | succ k ih => rw [memRead, memRead, hreg, ih]

include hcfg

theorem byteAt_eq_of_reg_eq {n : ChanId} (hn : s.cfg.hasChannel n = true) {off : Nat} (ho : off < 0x20) :
    (t.chan.get n).byteAt off = (s.chan.get n).byteAt off := by
  have ht : t.cfg.hasChannel n = true := by rw [hcfg, hn]
  rw [← reg_present ht ho, ← reg_present hn ho, hreg]

/-- Two states that read alike have the same values in the multi-byte registers of an existing channel: the little-endian reads
determine them. -/
theorem multiByte_eq_of_reg_eq {n : ChanId} (hn : s.cfg.hasChannel n = true) :
    (t.chan.get n).capstart = (s.chan.get n).capstart ∧ (t.chan.get n).capend = (s.chan.get n).capend ∧
    (t.chan.get n).tmrper = (s.chan.get n).tmrper ∧ (t.chan.get n).tmrval = (s.chan.get n).tmrval := by
  have ht : t.cfg.hasChannel n = true := by rw [hcfg, hn]
  obtain ⟨hstart, hend, hper, hval, -⟩ := multiByteRegistersAreLittleEndian s n hn
  obtain ⟨hstart', hend', hper', hval', -⟩ := multiByteRegistersAreLittleEndian t n ht
  simp only [memRead_eq_of_reg_eq hreg] at hstart' hend' hper' hval'
  exact ⟨BitVec.eq_of_toNat_eq (hstart'.symm.trans hstart), BitVec.eq_of_toNat_eq (hend'.symm.trans hend),
    BitVec.eq_of_toNat_eq (hper'.symm.trans hper), BitVec.eq_of_toNat_eq (hval'.symm.trans hval)⟩

/-- Two states that read alike agree on every existing channel. -/
theorem chan_eq_of_reg_eq {n : ChanId} (hn : s.cfg.hasChannel n = true) : t.chan.get n = s.chan.get n := by
  have hbyte : ∀ off < 0x20, (t.chan.get n).byteAt off = (s.chan.get n).byteAt off := fun off ho =>
    byteAt_eq_of_reg_eq hcfg hreg hn ho
  obtain ⟨-, -, hflags⟩ := flags_eq_of_cconByte (hreg 0x00#8)
  have hccf := channelBits_eq_get hflags hcfg hn
  have hpin := channelBits_eq_get (pins_eq_of_pinsByte (hreg 0x06#8)) hcfg hn
  have hccapm := Ccapm.byte_injective (hbyte 0x00 (by decide))
  have hccapl := hbyte 0x01 (by decide)
  have hccaph := hbyte 0x02 (by decide)
  have hpcapwm := Pcapwm.byte_injective (hbyte 0x03 (by decide))
  obtain ⟨hmode, hcaptureMode⟩ := modes_eq_of_chmodeByte (hbyte 0x04 (by decide))
  have hshift := zeroExtend_injective (by decide) (hbyte 0x05 (by decide))
  have hcapovf := hbyte 0x06 (by decide)
  obtain ⟨hcapstart, hcapend, htmrper, htmrval⟩ := multiByte_eq_of_reg_eq hcfg hreg hn
  exact (Channel.mk.injEq ..).mpr ⟨hccf, hccapm, hccapl, hccaph, hpcapwm, hpin, hmode, hcaptureMode, hshift, hcapovf,
    hcapstart, hcapend, htmrper, htmrval⟩

end

/-- Settles O18, index by index: each byte determines the register it shows. -/
theorem registerSpaceShowsTheWholeState : Obligations.RegisterSpaceShowsTheWholeState := by
  intro s t hcfg hreg
  obtain ⟨hcf, hcr, -⟩ := flags_eq_of_cconByte (hreg 0x00#8)
  exact ⟨hcf, hcr, Cmod.byte_injective (hreg 0x01#8), hreg 0x02#8, hreg 0x03#8, zeroExtend_injective (by decide) (hreg 0x04#8),
    hreg 0x05#8, timer0_eq_of_bytes (hreg 0x08#8) (hreg 0x09#8) (hreg 0x0A#8), fun _ => chan_eq_of_reg_eq hcfg hreg⟩

end Sys2Proof.Machine
end

/-! PROOFS. The operation words: every operation is read back from its word, every accepted word is rebuilt from its operation, and
the accepted words are those of the opcode table (R55, R56, R59 to R70). -/
section
namespace Sys2Proof

/-! ### Fields and masks -/

/-- A field read from a word and put back in its place keeps the word's bits there and no others (R69). -/
theorem placeAt_fieldAt (w : Word) (lo len : Nat) :
    placeAt (fieldAt w lo len) lo = w &&& placeAt (BitVec.allOnes len) lo := by
  apply BitVec.eq_of_getLsbD_eq
  intro i hi
  simp only [placeAt, fieldAt, BitVec.getLsbD_shiftLeft, BitVec.getLsbD_setWidth, BitVec.getLsbD_extractLsb', BitVec.getLsbD_and,
    BitVec.getLsbD_allOnes]
  by_cases hlo : i < lo
  · simp [hlo]
  · rw [Nat.add_sub_cancel' (Nat.le_of_not_lt hlo)]
    ac_rfl

/-- A placed field has no bit in common with a mask that is zero at its place. -/
theorem placeAt_and_eq_zero {len : Nat} (v : BitVec len) {lo : Nat} {m : Word} (hm : fieldAt m lo len = 0#len) :
    placeAt v lo &&& m = 0#32 := by
  apply BitVec.eq_of_getLsbD_eq
  intro i hi
  simp only [placeAt, BitVec.getLsbD_shiftLeft, BitVec.getLsbD_setWidth, BitVec.getLsbD_and, BitVec.getLsbD_zero]
  by_cases hfield : lo ≤ i ∧ i < lo + len
  · have hbit : (fieldAt m lo len).getLsbD (i - lo) = m.getLsbD i := by
      simp [fieldAt, Nat.add_sub_cancel' hfield.1, show i - lo < len by omega]
    simp [← hbit, hm]
  · by_cases hlo : i < lo
    · simp [hlo]
    · simp [BitVec.getLsbD_of_ge v (i - lo) (by omega)]

/-- A bit is a field of length one. -/
theorem ofBool_getLsbD (w : Word) (k : Nat) : BitVec.ofBool (w.getLsbD k) = fieldAt w k 1 := by
  apply BitVec.eq_of_getLsbD_eq
  intro i hi
  obtain rfl : i = 0 := by omega
  simp [fieldAt]

theorem getElem_eq_fieldAt (w : Word) {k : Nat} (h : k < 32) : w[k] = (fieldAt w k 1)[0] := by
  simp [fieldAt, BitVec.getLsbD_eq_getElem h]

theorem and_or_and_not (w m : Word) : w &&& m ||| w &&& ~~~m = w := by
  rw [← BitVec.and_or_distrib_left, BitVec.or_not_self, BitVec.and_allOnes]

/-- The mask of the field `op` (R55). -/
def opMask : Word := placeAt 0xF#4 28

/-- The field `op` in its place is the word's bits under its mask (R55). -/
theorem placeAt_opField (w : Word) : placeAt (opField w) 28 = w &&& opMask :=
  placeAt_fieldAt w 28 4

/-- `op` as the numeric top digit of the word (R55). -/
theorem opField_toNat (w : Word) : (opField w).toNat = w.toNat / 2 ^ 28 := by
  rw [opField, fieldAt, BitVec.extractLsb'_toNat, Nat.shiftRight_eq_div_pow, Nat.mod_eq_of_lt]
  omega

theorem opField_encode (i : Instr) : opField (encode i) = i.opcode := by
  cases i
  case init => exact Laws.OpField.init ..
  case startt0 => exact Laws.OpField.startt0 ..
  case startcap => exact Laws.OpField.startcap ..
  case startpwm => exact Laws.OpField.startpwm ..
  case setduty => exact Laws.OpField.setduty ..
  case starttmr => exact Laws.OpField.starttmr ..
  case tick => exact Laws.OpField.tick ..
  case edge => exact Laws.OpField.edge ..
  case service => exact Laws.OpField.service
  case rd => exact Laws.OpField.rd ..

/-! ### The row of an operation -/

/-- The bits that must be zero in the word of an operation (R56, R59 to R68). -/
def Instr.zeros : Instr → Word
  | .init _ _ _ _ => 0x0FFFFF80#32
  | .startt0 _ => 0x00000000#32
  | .startcap _ _ _ _ => 0x03FFFF00#32
  | .startpwm _ _ _ _ => 0x003FF800#32
  | .setduty _ _ => 0x03FFF800#32
  | .starttmr _ _ _ => 0x03FE0000#32
  | .tick _ => 0x0FFF0000#32
  | .edge _ _ => 0x03FFFFFE#32
  | .service => 0x0FFFFFFF#32
  | .rd _ => 0x0FFFFF00#32

/-- The row of the opcode table that an operation belongs to. -/
def Instr.row (i : Instr) : OpcodeRow :=
  { mnemonic := i.mnemonic, pattern := placeAt i.opcode 28, mask := opMask ||| i.zeros }

theorem row_mem (i : Instr) : i.row ∈ opcodeRows := by
  cases i <;> simp [Instr.row, Instr.mnemonic, Instr.opcode, Instr.zeros, opcodeRows, opMask, placeAt]

/-- Every row is the row of some operation. -/
theorem exists_row_eq {r : OpcodeRow} (h : r ∈ opcodeRows) : ∃ i : Instr, i.row = r := by
  simp only [opcodeRows, List.mem_cons, List.not_mem_nil, or_false] at h
  obtain rfl | rfl | rfl | rfl | rfl | rfl | rfl | rfl | rfl | rfl := h
  · exact ⟨.init 0#3 .freeRunning false 0#2, by decide⟩
  · exact ⟨.startt0 0#28, by decide⟩
  · exact ⟨.startcap 0 .none .continuous 0#5, by decide⟩
  · exact ⟨.startpwm 0 .w8 .none 0#11, by decide⟩
  · exact ⟨.setduty 0 0#11, by decide⟩
  · exact ⟨.starttmr 0 0#16 .timer, by decide⟩
  · exact ⟨.tick 0#16, by decide⟩
  · exact ⟨.edge 0 .falling, by decide⟩
  · exact ⟨.service, by decide⟩
  · exact ⟨.rd 0#8, by decide⟩

/-- No two rows share an `op`. -/
theorem row_eq_of_opcode_eq {i j : Instr} (h : i.opcode = j.opcode) : i.row = j.row := by
  have hrows : ∀ r ∈ opcodeRows, ∀ r' ∈ opcodeRows, r.pattern = r'.pattern → r = r' := by decide
  exact hrows _ (row_mem i) _ (row_mem j) (congrArg (placeAt · 28) h)

/-- The must-be-zero bits lie below `op`. -/
theorem opField_zeros (i : Instr) : opField i.zeros = 0#4 := by
  cases i <;> simp only [Instr.zeros] <;> decide

/-- A word is the row's exactly when it has the row's `op` and none of its must-be-zero bits (R55, R56). -/
theorem row_covers_iff {i : Instr} {w : Word} : i.row.covers w = true ↔ opField w = i.opcode ∧ w &&& i.zeros = 0#32 := by
  have hdef : i.row.covers w = true ↔ placeAt (opField w) 28 ||| w &&& i.zeros = placeAt i.opcode 28 := by
    rw [placeAt_opField, ← BitVec.and_or_distrib_left]
    exact decide_eq_true_iff
  have hop (v : BitVec 4) : placeAt v 28 &&& i.zeros = 0#32 := placeAt_and_eq_zero v (opField_zeros i)
  rw [hdef]
  constructor
  · intro h
    have hzero : w &&& i.zeros = 0#32 := by
      simpa only [BitVec.and_or_distrib_right, hop, BitVec.and_assoc, BitVec.and_self, BitVec.zero_or]
        using congrArg (· &&& i.zeros) h
    rw [hzero, BitVec.or_zero] at h
    exact ⟨by simpa only [Laws.OpField.field_op] using congrArg opField h, hzero⟩
  · rintro ⟨hop, hzero⟩
    rw [hop, hzero, BitVec.or_zero]

/-! ### What the decoder reads -/

/-- The values of `op` that name no operation (R70 (a)). -/
def ReservedOp (op : BitVec 4) : Prop :=
  op.toNat = 0x0 ∨ op.toNat = 0x7 ∨ 0xC ≤ op.toNat

theorem opcode_not_reserved (i : Instr) : ¬ ReservedOp i.opcode := by
  cases i <;> simp [ReservedOp, Instr.opcode]

theorem decode_of_reserved {w : Word} (h : ReservedOp (opField w)) : decode w = .error .reservedOp := by
  unfold ReservedOp at h
  unfold decode
  split
  case h_11 => rfl
  all_goals omega

theorem withZeros_eq_ok {w zeros : Word} {i j : Instr} : withZeros w zeros i = .ok j ↔ w &&& zeros = 0#32 ∧ i = j := by
  unfold withZeros
  split <;> simp [*]

/-- What the decoder makes of a word whose `op` names an operation: it checks that operation's must-be-zero bits, and the operation
read from the word puts every other bit below `op` back in its place (R55, R56, R69). -/
structure Spells (w : Word) (i : Instr) : Prop where
  opcode_eq : i.opcode = opField w
  decode_eq : decode w = withZeros w i.zeros i
  operandBits_eq : operandBits i = w &&& ~~~(opMask ||| i.zeros)

theorem exists_spells {w : Word} (h : ¬ ReservedOp (opField w)) : ∃ i, Spells w i := by
  have hspells {n : Nat} {zeros : Word} {i : Instr} (hd : decode w = withZeros w zeros i) (hn : (opField w).toNat = n)
      (hop : i.opcode = BitVec.ofNat 4 n) (hzeros : i.zeros = zeros) (hbits : operandBits i = w &&& ~~~(opMask ||| i.zeros)) :
      ∃ i, Spells w i :=
    ⟨i, by rw [hop, ← hn, BitVec.ofNat_toNat, BitVec.setWidth_eq], by rw [hd, hzeros], hbits⟩
  generalize hd : decode w = d at hspells
  unfold decode at hd
  split at hd
  case h_11 =>
    have hlt := (opField w).isLt
    grind [ReservedOp]
  -- SERVICE has no operand, and every bit below its `op` must be zero.
  case h_9 hn =>
    refine hspells hd.symm hn rfl rfl ?_
    rw [show ~~~(opMask ||| Instr.service.zeros) = 0#32 by decide, BitVec.and_zero, operandBits]
  -- In the other arms the operand fields cover exactly the bits that are neither `op` nor must-be-zero.
  all_goals
    refine hspells hd.symm (by assumption) rfl rfl ?_
    simp only [operandBits, ofBool_getLsbD, CounterMode.bit_ofBit, chCode_chField, EdgeSel.code_ofCode, CaptureMode.bit_ofBit,
      PwmWidth.code_ofCode, TimerOutput.bit_ofBit, Polarity.bit_ofBit, placeAt_fieldAt, ← BitVec.and_or_distrib_left]
    exact congrArg (w &&& ·) (by simp only [Instr.zeros]; decide)

theorem Spells.encode_eq {w : Word} {i : Instr} (h : Spells w i) (hzero : w &&& i.zeros = 0#32) : encode i = w :=
  calc encode i = placeAt (opField w) 28 ||| operandBits i := by rw [encode, h.opcode_eq]
    _ = w &&& (opMask ||| i.zeros) ||| w &&& ~~~(opMask ||| i.zeros) := by
      rw [placeAt_opField, h.operandBits_eq, BitVec.and_or_distrib_left (y := opMask), hzero, BitVec.or_zero]
    _ = w := and_or_and_not ..

/-- A word that decodes has the `op` of its operation and none of its must-be-zero bits (R70). -/
theorem spells_of_decode {w : Word} {i : Instr} (h : decode w = .ok i) : Spells w i ∧ w &&& i.zeros = 0#32 := by
  have hop : ¬ ReservedOp (opField w) := fun hr => by
    rw [decode_of_reserved hr] at h
    cases h
  obtain ⟨j, hj⟩ := exists_spells hop
  rw [hj.decode_eq] at h
  obtain ⟨hzero, rfl⟩ := withZeros_eq_ok.1 h
  exact ⟨hj, hzero⟩

/-- Settles O2: the fields of the operation and its `op` make up every bit of the word that may be one. -/
theorem encodeDecodeRoundTrip : Obligations.EncodeDecodeRoundTrip := by
  intro w i h
  obtain ⟨hspells, hzero⟩ := spells_of_decode h
  exact hspells.encode_eq hzero

/-! ### The opcode table and the decoder -/

theorem row_covers_of_decode {w : Word} {i : Instr} (h : decode w = .ok i) : i.row.covers w = true := by
  obtain ⟨hspells, hzero⟩ := spells_of_decode h
  exact row_covers_iff.2 ⟨hspells.opcode_eq.symm, hzero⟩

theorem decode_of_row_covers {w : Word} {j : Instr} (h : j.row.covers w = true) : ∃ i, decode w = .ok i ∧ i.row = j.row := by
  have hop : opField w = j.opcode := (row_covers_iff.1 h).1
  obtain ⟨i, hi⟩ := exists_spells (hop ▸ opcode_not_reserved j)
  have hrow : i.row = j.row := row_eq_of_opcode_eq (hi.opcode_eq.trans hop)
  obtain ⟨-, hzero⟩ := row_covers_iff.1 (hrow ▸ h)
  exact ⟨i, by rw [hi.decode_eq, withZeros_eq_ok.2 ⟨hzero, rfl⟩], hrow⟩

/-- Settles O3: a word decodes exactly when the row of its `op` covers it, and every row is an operation's. -/
theorem decodeAcceptsExactlyTheTableWords : Obligations.DecodeAcceptsExactlyTheTableWords := by
  refine fun w => ⟨fun i h => ⟨i.row, row_mem i, row_covers_of_decode h, rfl⟩, fun r hr hcovers => ?_⟩
  obtain ⟨j, rfl⟩ := exists_row_eq hr
  obtain ⟨i, hdecode, hrow⟩ := decode_of_row_covers hcovers
  exact ⟨i, hdecode, congrArg OpcodeRow.mnemonic hrow⟩

/-- A word that no row covers, whose `op` is an operation's, breaks a must-be-zero bit (R70 (b)). -/
theorem decode_of_not_covered {w : Word} (hop : ¬ ReservedOp (opField w)) (hrows : ∀ r ∈ opcodeRows, r.covers w = false) :
    decode w = .error .mustBeZero := by
  obtain ⟨i, hi⟩ := exists_spells hop
  have hzero : ¬ w &&& i.zeros = 0#32 := fun hzero => by
    have hcovers := row_covers_iff.2 ⟨hi.opcode_eq.symm, hzero⟩
    rw [hrows _ (row_mem i)] at hcovers
    cases hcovers
  rw [hi.decode_eq, withZeros, if_neg hzero]

/-- Settles O6: the decoder's error is the step's refusal. -/
theorem stepRefusesReservedWords : Obligations.StepRefusesReservedWords := by
  intro s w rest htrace
  rw [← opField_toNat]
  refine ⟨fun hop => Machine.step_error htrace (decode_of_reserved hop), fun h0 h7 hC hrows => ?_⟩
  exact Machine.step_error htrace (decode_of_not_covered (fun hr => by unfold ReservedOp at hr; omega) hrows)

/-! ### Reading back an encoded operation -/

/-- Below bit 28 the word of an operation holds its operand fields (R56). -/
theorem fieldAt_encode (i : Instr) {lo len : Nat} (h : lo + len ≤ 28) :
    fieldAt (encode i) lo len = fieldAt (operandBits i) lo len := by
  rw [encode, fieldAt_or, fieldAt_placeAt_of_disjoint _ _ _ _ (.inl h), BitVec.zero_or]

/-- The word of an operation has none of its must-be-zero bits (R56). -/
theorem encode_and_zeros (i : Instr) : encode i &&& i.zeros = 0#32 := by
  have hoperands : operandBits i &&& i.zeros = 0#32 := by
    cases i <;>
      simp (disch := decide) only [operandBits, Instr.zeros, BitVec.and_or_distrib_right, placeAt_and_eq_zero, BitVec.or_zero,
        BitVec.zero_and]
  rw [encode, BitVec.and_or_distrib_right, placeAt_and_eq_zero _ (opField_zeros i), hoperands, BitVec.or_zero]

/-- Settles O1: the `op` of the word selects the operation's arm, the word passes its must-be-zero check, and each field of the arm
reads the operand placed there, since the fields do not overlap. -/
theorem decodeEncodeRoundTrip : Obligations.DecodeEncodeRoundTrip := by
  intro i
  have hcheck (j : Instr) : withZeros (encode i) i.zeros j = .ok j := withZeros_eq_ok.2 ⟨encode_and_zeros i, rfl⟩
  rw [decode, opField_encode]
  cases i
  all_goals
    refine (hcheck _).trans (congrArg Except.ok ?_)
    simp (disch := decide) [chField, chCode, getElem_eq_fieldAt, fieldAt_encode, operandBits, fieldAt_or, fieldAt_placeAt,
      fieldAt_placeAt_of_disjoint]

/-- Settles O4: ten closed words. -/
theorem specWordsDecode : Obligations.SpecWordsDecode := by
  unfold Obligations.SpecWordsDecode
  decide

end Sys2Proof
end

/-! PROOFS. TICK words: counts compose, so a TICK advances the counter by its operand and TICKS runs as its counts (R58, R79, R110,
R116). -/
section
namespace Sys2Proof.Machine

theorem exec_tick (count : Half) (s : State) : exec (.tick count) s = .next (countTimes count.toNat s) := rfl

/-- Settles O34: a stopped counter takes no count, and TICK 0 asks for none. -/
theorem tickDoesNothingWhileStopped : Obligations.TickDoesNothingWhileStopped := by
  rintro s k (hstopped | rfl)
  · rw [exec_tick, countTimes_stopped hstopped]
  · rfl

/-- Settles O37 by the composition of counts: the sum of the operands does not wrap. -/
theorem tickWordsCompose : Obligations.TickWordsCompose := by
  intro s a b hsum
  refine ⟨_, exec_tick a s, ?_⟩
  rw [exec_tick, exec_tick, ← countTimes_add, BitVec.toNat_add_of_lt hsum]

/-! ### The pseudo-operation TICKS -/

/-- A run of equal TICK words counts each word's operand (R58). -/
theorem runOps_replicate_tick (m : Nat) (c : Half) (s : State) :
    runOps (List.replicate m (.tick c)) s = .next (countTimes (m * c.toNat) s) := by
  induction m generalizing s with
  | zero => simp
  | succ m ih => rw [List.replicate_succ, runOps_cons_next (exec_tick c s), ih, ← countTimes_add, Nat.succ_mul, Nat.add_comm]

/-- The last word of TICKS counts the remainder, if there is one (R79). -/
theorem runOps_remainder_tick {r : Nat} (hr : r < 65536) (s : State) :
    runOps (if 0 < r then [.tick (BitVec.ofNat 16 r)] else []) s = .next (countTimes r s) := by
  split
  · rw [runOps_cons_next (exec_tick _ s), BitVec.toNat_ofNat, Nat.mod_eq_of_lt hr, runOps_nil]
  · next hzero => rw [Nat.eq_zero_of_not_pos hzero]; rfl

/-- Settles O7: the full words and the remainder add up to `k` by division with remainder. -/
theorem ticksPseudoOperationRunsItsCounts : Obligations.TicksPseudoOperationRunsItsCounts := by
  intro k s
  have hr : k % 65535 < 65535 := Nat.mod_lt _ (by decide)
  refine ⟨?_, ?_, fun i hi => ?_⟩
  · refine runOps_append.2 ⟨_, runOps_replicate_tick _ _ s, ?_⟩
    rw [runOps_remainder_tick (by omega), ← countTimes_add]
    congr 2
    exact Nat.div_add_mod' k 65535
  · rw [expandTicks, List.length_append, List.length_replicate]
    obtain hzero | hpos := Nat.eq_zero_or_pos (k % 65535)
    · simp [hzero]
    · simp [hpos, hpos.ne']
  · obtain hfull | hlast := List.mem_append.1 hi
    · exact ⟨_, List.eq_of_mem_replicate hfull, by decide⟩
    · split at hlast
      · next hpos =>
        refine ⟨_, List.mem_singleton.1 hlast, fun hzero => ?_⟩
        have := congrArg BitVec.toNat hzero
        rw [BitVec.toNat_ofNat, Nat.mod_eq_of_lt (by omega)] at this
        exact hpos.ne' this
      · cases hlast

/-! ### The counter and the overflow flag under a whole TICK word -/

@[simp] theorem countTimes_cr (k : Nat) (s : State) : (countTimes k s).cr = s.cr := by
  rw [countTimes_eq]

theorem countTimes_besides (k : Nat) (s : State) : BesidesKept s (countTimes k s) := by
  rw [countTimes_eq]
  exact ⟨rfl, rfl, rfl, rfl, rfl⟩

/-- `k` counts advance a running counter by `k` modulo 65536 (R110). -/
theorem countTimes_cnt {s : State} (hrun : s.cr = true) (k : Nat) : (countTimes k s).cnt = s.cnt + BitVec.ofNat 16 k := by
  induction k with
  | zero => simp
  | succ k ih => rw [countTimes_succ_last, countOnce_cnt (by rw [countTimes_cr, hrun]), ih, BitVec.add_assoc, ← BitVec.ofNat_add]

/-- Within one turn of the counter, counting sets the overflow flag exactly when the sum reaches 65536 (R110). -/
theorem countTimes_cf {s : State} (hrun : s.cr = true) {k : Nat} (hk : k < 65536) :
    (countTimes k s).cf = (s.cf || decide (65536 ≤ s.cnt.toNat + k)) := by
  induction k with
  | zero => simp [show ¬ 65536 ≤ s.cnt.toNat by have := s.cnt.isLt; omega]
  | succ k ih =>
    have hwraps : wraps ((countTimes k s).cnt + 1#16) = decide (s.cnt.toNat + (k + 1) = 65536) := by
      rw [wraps, countTimes_cnt hrun, decide_eq_decide]
      bv_omega
    rw [countTimes_succ_last, countOnce_cf (by rw [countTimes_cr, hrun]), ih (by omega), hwraps, Bool.or_assoc, ← Bool.decide_or]
    congr 2
    rw [eq_iff_iff]
    omega

/-- Settles O35: the counter and `CF` after `k` counts, the channels' flags kept, and the write set of TICK for the frame. -/
theorem tickAdvancesTheCounter : Obligations.TickAdvancesTheCounter := by
  intro s k hrun
  have hexec := exec_tick k s
  refine ⟨_, hexec, ?_, countTimes_cf hrun k.isLt, (countTimes_cr _ s).trans hrun, fun n hf => ?_, fun i hi => ?_,
    countTimes_besides _ s⟩
  · rw [countTimes_cnt hrun, BitVec.ofNat_toNat, BitVec.setWidth_eq]
  · obtain ⟨flag, pin, heq, hmono⟩ := countTimes_chan k.toNat s n
    rw [heq]
    exact hmono hf
  · by_contra hne
    exact hi (tick_writeSet hexec hne)

end Sys2Proof.Machine
end

/-! PROOFS. The bits of `CCON` (R71), and which reason a refusal names (R70 (c), R90 (a)). -/
section
namespace Sys2Proof.Machine

/-- The fixed places of `CCON` above its flags (R71). -/
theorem ccon_layout (cf cr : Bool) (flags : BitVec 4) :
    let v : Byte := BitVec.ofBool cf ++ BitVec.ofBool cr ++ 0#2 ++ flags
    v.getLsbD 7 = cf ∧ v.getLsbD 6 = cr ∧ v.extractLsb' 4 2 = 0#2 := by
  revert cf cr flags
  decide

theorem cconByte_getLsbD (s : State) (n : ChanId) :
    s.cconByte.getLsbD n.val = (s.cfg.hasChannel n && (s.chan.get n).ccf) := by
  rw [State.cconByte, BitVec.getLsbD_append, if_pos n.isLt, channelBits_getLsbD]

/-- Settles O19: `CF`, `CR` and the zero bits stand above the per-channel flags. -/
theorem cconShowsTheFlags : Obligations.CconShowsTheFlags := by
  intro s
  rw [reg_ccon]
  obtain ⟨hcf, hcr, hzero⟩ := ccon_layout s.cf s.cr (s.channelBits Channel.ccf)
  exact ⟨hcf, hcr, hzero, cconByte_getLsbD s⟩

theorem require_of_false {ok : Bool} (h : ok = false) (r : Refusal) (k : Result) : require ok r k = .refused r := by
  rw [h, require_false]

theorem afterInit_of_inited {s : State} (h : s.inited = true) (k : Result) : afterInit s k = k := by
  rw [afterInit, h, require_true]

theorem onChannel_of_absent {s : State} {n : ChanId} (h : s.cfg.hasChannel n = false) (k : Result) :
    onChannel s n k = .refused .channelAbsent :=
  require_of_false h _ _

theorem onChannel_of_present {s : State} {n : ChanId} (h : s.cfg.hasChannel n = true) (k : Result) : onChannel s n k = k := by
  rw [onChannel, h, require_true]

/-- Settles O54: the checks run in the order INIT, channel, the operation's own conditions, and the first that fails is named. -/
theorem refusalsNameTheFirstReason : Obligations.RefusalsNameTheFirstReason := by
  refine fun s n hinit => ⟨fun habsent => ?_, fun hpresent => ?_⟩
  · have hstop (k : Result) : afterInit s (onChannel s n k) = .refused .channelAbsent := by
      rw [afterInit_of_inited hinit, onChannel_of_absent habsent]
    exact ⟨fun _ _ _ => hstop _, fun _ _ _ => hstop _, fun _ => hstop _⟩
  · have hpass (k : Result) : afterInit s (onChannel s n k) = k := by
      rw [afterInit_of_inited hinit, onChannel_of_present hpresent]
    exact ⟨fun _ _ _ hwidth => (hpass _).trans (require_of_false hwidth _ _),
      fun _ hmode => (hpass _).trans (require_of_false (decide_eq_false hmode) _ _)⟩

end Sys2Proof.Machine
end

/-! PROOFS. The array commands: what INIT leaves of `CHMODE` and `CCON` (R80), and STARTT0's result code, record and period by its
divisor (R82, R83). -/
section
namespace Sys2Proof.Machine

/-! ### INIT -/

/-- Mode Unused clears the mode code of `CHMODE` and keeps the bits above it (R75, R80). -/
theorem chmodeByte_setUnused (c : Channel) : ({ c with mode := .unused } : Channel).chmodeByte = c.chmodeByte &&& 0xF8#8 := by
  have hbits (v : BitVec 1) (m : BitVec 3) : 0#4 ++ v ++ 0#3 = (0#4 ++ v ++ m) &&& 0xF8#8 := by
    revert v m
    decide
  exact hbits _ _

/-- Starting the counter sets bit 6 of `CCON`; with the flags kept, no other bit changes (R71). -/
theorem cconByte_of_started {s t : State} (hcfg : t.cfg = s.cfg) (hcr : t.cr = true) (hcf : t.cf = s.cf)
    (hccf : ∀ n, s.cfg.hasChannel n = true → (t.chan.get n).ccf = (s.chan.get n).ccf) : t.cconByte = s.cconByte ||| 0x40#8 := by
  have hbits (cf cr : Bool) (flags : BitVec 4) : BitVec.ofBool cf ++ BitVec.ofBool true ++ 0#2 ++ flags
      = (BitVec.ofBool cf ++ BitVec.ofBool cr ++ 0#2 ++ flags) ||| 0x40#8 := by
    revert cf cr flags
    decide
  rw [State.cconByte, hcf, hcr, channelBits_eq_of hcfg hccf]
  exact hbits _ _ _

/-- Settles O23: `chmodeByte_setUnused` and `cconByte_of_started` for the bytes INIT changes in part, its write set for the rest. -/
theorem initResetsModesAndStartsTheCounter : Obligations.InitResetsModesAndStartsTheCounter := by
  intro s clk cmode ovfie route
  refine ⟨fun hroute => ?_, fun hroute => require_of_false hroute _ _⟩
  have h := exec_init_eq_next (clk := clk) (cmode := cmode) (ovfie := ovfie).2 ⟨hroute, rfl⟩
  refine ⟨_, h, fun n hn => ?_, reg_cmod _, ?_, reg_cl _, reg_ch _, ?_, fun i hlist hmode => ?_, rfl, rfl, rfl, rfl, rfl⟩
  · have hchan := exec_chan h hn
    refine ⟨by rw [hchan]; rfl, ?_⟩
    rw [reg_present (s := s) hn (by decide), reg_present (s := initialise ..) hn (by decide), hchan]
    exact chmodeByte_setUnused _
  · have hbits (r : BitVec 2) : r.zeroExtend 8 = 0#6 ++ r := by
      revert r
      decide
    exact (reg_route _).trans (hbits route)
  · rw [reg_ccon, reg_ccon]
    exact cconByte_of_started rfl rfl rfl fun n hn => by rw [exec_chan h hn]; rfl
  · by_contra hx
    exact (init_writeSet h hx).elim hlist fun ⟨n, hn⟩ => hmode n hn

/-! ### STARTT0's effect by the divisor (R82) -/

section
variable {freq : BitVec 28} {s : State}

theorem programTimer0_of_zero (h : s.cfg.fCpu / freq.toNat = 0) : programTimer0 freq s = { s with result := 0xFF#8 } :=
  if_pos h

theorem programTimer0_of_large (h : 786432 < s.cfg.fCpu / freq.toNat) :
    programTimer0 freq s = { s with result := 0xFE#8 } :=
  (if_neg (Nat.ne_of_gt (Nat.zero_lt_of_lt h))).trans (if_pos h)

theorem programTimer0_of_fits (hpos : 1 ≤ s.cfg.fCpu / freq.toNat) (hle : s.cfg.fCpu / freq.toNat ≤ 786432) :
    programTimer0 freq s = { s with t0 := timer0Record (s.cfg.fCpu / freq.toNat), result := 0x00#8 } :=
  (if_neg (Nat.ne_of_gt hpos)).trans (if_neg (Nat.not_lt.2 hle))

end

/-! ### The record by the divisor (R76, R82) -/

section
variable {d : Nat}

/-- `T0CTL` as a number: `run`, `m16` and `div12` from bit 0 up (R76). -/
theorem ctlByte_eq (r : Timer0) : r.ctlByte = BitVec.ofNat 8 (r.run.toNat + 2 * r.m16.toNat + 4 * r.div12.toNat) := by
  have hbits (run m16 div12 : Bool) : 0#5 ++ BitVec.ofBool div12 ++ BitVec.ofBool m16 ++ BitVec.ofBool run
      = BitVec.ofNat 8 (run.toNat + 2 * m16.toNat + 4 * div12.toNat) := by
    revert run m16 div12
    decide
  exact hbits _ _ _

theorem timer0Record_of_le_256 (hd : d ≤ 256) :
    (timer0Record d).ctlByte = 0x01#8 ∧ (timer0Record d).rl.toNat = (256 - d) % 256 ∧
      (timer0Record d).rh = (timer0Record d).rl := by
  rw [timer0Record, if_pos hd]
  exact ⟨ctlByte_eq _, BitVec.toNat_ofNat .., rfl⟩

/-- The two bytes of a 16-bit reload value stand for it. -/
theorem reload_bytes (r : Nat) :
    ((BitVec.ofNat 16 r).extractLsb' 8 8 ++ (BitVec.ofNat 16 r).extractLsb' 0 8).toNat = r % 65536 := by
  rw [toNat_append_eq, BitVec.extractLsb'_toNat, BitVec.extractLsb'_toNat, BitVec.toNat_ofNat]
  omega

theorem timer0Record_of_le_65536 (hlow : 257 ≤ d) (hd : d ≤ 65536) :
    (timer0Record d).ctlByte = 0x03#8 ∧ ((timer0Record d).rh ++ (timer0Record d).rl).toNat = (65536 - d) % 65536 := by
  rw [timer0Record, if_neg (by omega), if_pos hd]
  exact ⟨ctlByte_eq _, reload_bytes _⟩

theorem timer0Record_of_gt_65536 (hd : 65537 ≤ d) :
    (timer0Record d).ctlByte = 0x07#8 ∧ ((timer0Record d).rh ++ (timer0Record d).rl).toNat = (65536 - d / 12) % 65536 := by
  rw [timer0Record, if_neg (by omega), if_neg (by omega)]
  exact ⟨ctlByte_eq _, reload_bytes _⟩

end

theorem memRead_t0reload (s : State) : memRead s 0x09#8 2 = (s.t0.rh ++ s.t0.rl).toNat :=
  memRead_of_bytes (k := 2) (s.t0.rh ++ s.t0.rl) s (reg_t0reload s)

/-! ### The two statements on STARTT0 -/

/-- Settles O24: `programTimer0` and `timer0Record` by the divisor, STARTT0's write set for the rest. -/
theorem startt0ProgramsTheRecord : Obligations.Startt0ProgramsTheRecord := by
  intro s freq hinit
  refine ⟨fun hzero => (afterInit_of_inited hinit _).trans (require_of_false (by simp [hzero]) _ _), fun hfreq => ?_⟩
  have h := exec_startt0_eq_next.2 ⟨hinit, hfreq, rfl⟩
  refine ⟨_, h, fun i hi => by_contra fun hx => hi (startt0_writeSet h hx), ?_, fun hd => ?_, fun hd => ?_, fun hd => ?_,
    fun hpos hle => ?_, fun hpos hle => ?_, fun hlow hle => ?_, fun hlow hle => ?_⟩
  · rw [programTimer0_eq]
    exact ⟨rfl, rfl, rfl, rfl, rfl⟩
  · rw [programTimer0_of_zero hd, reg_result]
  · rw [programTimer0_of_large hd, reg_result]
  · obtain hd | hd := hd
    · rw [programTimer0_of_zero hd]
      exact ⟨rfl, rfl, rfl⟩
    · rw [programTimer0_of_large hd]
      exact ⟨rfl, rfl, rfl⟩
  · rw [programTimer0_of_fits hpos hle, reg_result]
  · rw [programTimer0_of_fits hpos (by omega), reg_t0ctl, reg_t0rl, reg_t0rh]
    exact timer0Record_of_le_256 hle
  · rw [programTimer0_of_fits (by omega) (by omega), reg_t0ctl, memRead_t0reload]
    exact timer0Record_of_le_65536 hlow hle
  · rw [programTimer0_of_fits (by omega) hle, reg_t0ctl, memRead_t0reload]
    exact timer0Record_of_gt_65536 hlow

/-- A timer of `m` counts reloaded with `m - d` overflows every `d` input clocks; a distance of `m` is the reload value 0 (R83). -/
theorem overflow_distance {m d : Nat} (hpos : 1 ≤ d) (hle : d ≤ m) : m - (m - d) % m = d := by
  rw [Nat.mod_eq_of_lt (by omega), Nat.sub_sub_self hle]

/-- Settles O25: the record stands for `d` input clocks, behind the pre-divider for `d / 12` of twelve system clocks each. -/
theorem startt0PeriodIsTheDivisor : Obligations.Startt0PeriodIsTheDivisor := by
  intro s freq hinit hfreq
  obtain ⟨t, h, -, -, hzero, hlarge, -, -, h8bit, h16bit, hdiv12⟩ := (startt0ProgramsTheRecord s freq hinit).2 hfreq
  refine ⟨t, h, fun hok => ⟨_, rfl, ?_⟩⟩
  generalize s.cfg.fCpu / freq.toNat = d at *
  have hpos : 1 ≤ d := Nat.one_le_iff_ne_zero.2 fun hd => absurd (hok.symm.trans (hzero hd)) (by decide)
  have hle : d ≤ 786432 := Nat.le_of_not_lt fun hd => absurd (hok.symm.trans (hlarge hd)) (by decide)
  obtain hd | ⟨hlow, hd⟩ | hlow : d ≤ 256 ∨ (257 ≤ d ∧ d ≤ 65536) ∨ 65537 ≤ d := by omega
  · obtain ⟨hctl, hreload, -⟩ := h8bit hpos hd
    rw [hctl, hreload, overflow_distance hpos hd]
    simp
  · obtain ⟨hctl, hreload⟩ := h16bit hlow hd
    rw [hctl, hreload, overflow_distance hpos hd]
    simp
  · obtain ⟨hctl, hreload⟩ := hdiv12 hlow hle
    rw [hctl, hreload, overflow_distance (by omega) (by omega)]
    exact ⟨Nat.mul_div_le d 12, show d - 12 * (d / 12) ≤ 11 by omega, nofun⟩

end Sys2Proof.Machine
end

/-! PROOFS. What the proofs on the four channel commands share, and STARTCAP: the bytes it writes in its channel and in the whole
array, and its frame (R90, R91). -/
section
namespace Sys2Proof.Machine

/-! ### What the four commands share -/

/-- After an INIT an operation on an existing channel passes its first two checks (R90 (a), R153). -/
theorem afterInit_onChannel {s : State} {n : ChanId} (hinit : s.inited = true) (hn : s.cfg.hasChannel n = true) (k : Result) :
    afterInit s (onChannel s n k) = k := by
  rw [afterInit_of_inited hinit, onChannel_of_present hn]

/-- The byte of an existing channel after an operation, by the channel's closed form. -/
theorem reg_channelAfter {i : Instr} {s t : State} (h : exec i s = .next t) {n : ChanId} (hn : s.cfg.hasChannel n = true)
    {off : Nat} (ho : off < 0x20) : reg t (chanIdx n off) = (channelAfter i s n).byteAt off := by
  rw [reg_present (by rw [exec_cfg h, hn]) ho, exec_chan h hn]

/-- The byte of an existing channel that a command has replaced. -/
theorem reg_setChan_self {s : State} {n : ChanId} (hn : s.cfg.hasChannel n = true) (c : Channel) {off : Nat} (ho : off < 0x20) :
    reg (s.setChan n c) (chanIdx n off) = c.byteAt off := by
  rw [reg_present (s := s.setChan n c) hn ho, setChan_chan_self]

/-- A change of the mode alone keeps bit 3 of `CHMODE` and replaces the code below it (R75). -/
theorem chmodeByte_of_mode {c d : Channel} {m : ChannelMode} (hmode : d.mode = m) (hcapture : d.captureMode = c.captureMode) :
    d.chmodeByte = (c.chmodeByte &&& 0x08#8) ||| (0#5 ++ m.code) := by
  have hbits (v : BitVec 1) (old new : BitVec 3) :
      0#4 ++ v ++ new = ((0#4 ++ v ++ old) &&& 0x08#8) ||| (0#5 ++ new) := by
    revert v old new
    decide
  rw [Channel.chmodeByte, hmode, hcapture]
  exact hbits _ _ _

/-! ### STARTCAP -/

/-- `CCAPM` of a capture channel, bit by bit (R73, R91). -/
theorem captureControl_byte (edge : EdgeSel) :
    (captureControl edge).byte =
      (if edge.selectsRising then 0x20#8 else 0#8) + (if edge.selectsFalling then 0x10#8 else 0#8) + 0x01#8 := by
  cases edge <;> decide

/-- STARTCAP clears the overflow count and both snapshots of every channel; an absent channel's read 0 anyway (R91). -/
theorem reg_startcap_bookkeeping {m n : ChanId} {edge : EdgeSel} {mode : CaptureMode} {shift : BitVec 5} {s t : State}
    (h : exec (.startcap m edge mode shift) s = .next t) {off : Nat} (hoff : off = 0x06 ∨ 0x08 ≤ off ∧ off ≤ 0x0F) :
    reg t (chanIdx n off) = 0x00#8 := by
  cases hn : s.cfg.hasChannel n with
  | false => exact reg_absent (by rw [exec_cfg h, hn]) (by omega)
  | true =>
    have hclear (c : Channel) (hovf : c.capovf = 0#8) (hstart : c.capstart = 0#32) (hend : c.capend = 0#32) :
        c.byteAt off = 0x00#8 := by
      obtain rfl | ⟨hlow, hhigh⟩ := hoff
      · exact hovf
      · by_cases hsplit : off < 0x0C
        · obtain ⟨j, rfl⟩ := Nat.exists_eq_add_of_le hlow
          rw [byteAt_capstart c j (by omega), hstart, BitVec.extractLsb'_zero]
        · obtain ⟨j, rfl⟩ := Nat.exists_eq_add_of_le (Nat.le_of_not_lt hsplit)
          rw [byteAt_capend c j (by omega), hend, BitVec.extractLsb'_zero]
    rw [reg_channelAfter h hn (by omega)]
    simp only [channelAfter]
    split <;> exact hclear _ rfl rfl rfl

/-- Settles O26: the control, mode and shift bytes of the armed channel, the restarted array, and STARTCAP's write set for the
rest. -/
theorem startcapArmsTheChannelAndRestartsTheArray : Obligations.StartcapArmsTheChannelAndRestartsTheArray := by
  intro s n edge mode shift hinit
  refine ⟨fun hbad => exec_refused_of_not_next fun t ht => ?_,
    fun habsent _ => ((refusalsNameTheFirstReason s n hinit).1 habsent).1 edge mode shift,
    fun hn hshift => (afterInit_onChannel hinit hn _).trans (require_of_false (decide_eq_false (Nat.not_le.2 hshift)) _ _),
    fun hn hshift => ?_⟩
  · obtain ⟨-, hn, hshift, -⟩ := exec_startcap_eq_next.1 ht
    simp [hn, Nat.not_lt.2 hshift] at hbad
  · have h := exec_startcap_eq_next (edge := edge) (mode := mode).2 ⟨hinit, hn, hshift, rfl⟩
    have hown {off : Nat} (ho : off < 0x20) := (reg_channelAfter h hn ho).trans
      (congrArg (Channel.byteAt · off) (if_pos rfl))
    refine ⟨_, h, ?_, ?_, ?_, reg_cl _, reg_ch _, ?_, fun m off hoff => reg_startcap_bookkeeping h hoff, fun i hlist hall => ?_,
      rfl, rfl, rfl, rfl, rfl⟩
    · exact (hown (by decide)).trans (captureControl_byte edge)
    · exact hown (by decide)
    · have hbits (v : BitVec 5) : v.zeroExtend 8 = 0#3 ++ v := by
        revert v
        decide
      exact (hown (by decide)).trans (hbits shift)
    · rw [reg_ccon, reg_ccon]
      exact cconByte_of_started rfl rfl rfl fun m hm => by
        rw [exec_chan h hm]
        exact (apply_ite Channel.ccf _ _ _).trans (ite_self _)
    · by_contra hx
      exact (startcap_writeSet h hx).elim hlist fun ⟨m, off, hi, hoff⟩ => hall m off hoff hi

end Sys2Proof.Machine
end

/-! PROOFS. The PWM commands: the fields of the compare value `2^W - high`, the bytes STARTPWM and SETDUTY write, and the output they
give (R93 to R95, R98, R112). -/
section
namespace Sys2Proof.Machine

/-! ### The fields of the compare value (R93) -/

/-- `low` holds the compare value's lowest `min(W, 8)` bits. -/
theorem pwmCompare_low (w : PwmWidth) (high : BitVec 11) :
    (pwmCompare w high).low.toNat = (2 ^ w.bits - high.toNat) % 2 ^ min w.bits 8 := by
  have hpow : 2 ^ min w.bits 8 ≤ 2 ^ 8 := Nat.pow_le_pow_right (by decide) (Nat.min_le_right _ _)
  have hlow : (2 ^ w.bits - high.toNat) % 2 ^ min w.bits 8 < 2 ^ min w.bits 8 := Nat.mod_lt _ (Nat.two_pow_pos _)
  exact (BitVec.toNat_ofNat ..).trans (Nat.mod_eq_of_lt (hlow.trans_le hpow))

/-- `x` holds bits 9:8 of a 10-bit compare value. -/
theorem pwmCompare_x (w : PwmWidth) (high : BitVec 11) :
    (pwmCompare w high).x.toNat = if w = .w10 then (2 ^ w.bits - high.toNat) / 2 ^ 8 % 2 ^ 2 else 0 := by
  simp only [pwmCompare, apply_ite BitVec.toNat]
  split
  · exact BitVec.toNat_ofNat ..
  · rfl

/-- Bit `W` of the compare value is set only when the output is never high. -/
theorem pwmCompare_e (w : PwmWidth) (high : BitVec 11) : (pwmCompare w high).e = decide (high = 0#11) := by
  have hpow : 0 < 2 ^ w.bits := Nat.two_pow_pos _
  by_cases hzero : high = 0#11
  · subst hzero
    exact Nat.testBit_two_pow_self
  · have hpos : 0 < high.toNat := Nat.pos_of_ne_zero fun h => hzero (BitVec.eq_of_toNat_eq h)
    rw [decide_eq_false hzero]
    exact Nat.testBit_lt_two_pow (by omega)

/-! ### What a new compare value leaves of a channel -/

section
variable (c : Channel) (w : PwmWidth) (trig : EdgeSel) (high : BitVec 11)

/-- The auxiliary byte: the width code, and each extra field in both copies (R74, R94). -/
theorem setPwmCompare_auxByte :
    (c.setPwmCompare w high).pcapwm.byte =
      w.code ++ (pwmCompare w high).x ++ (pwmCompare w high).x ++ BitVec.ofBool (decide (high = 0#11))
        ++ BitVec.ofBool (decide (high = 0#11)) := by
  rw [← pwmCompare_e w high]
  rfl

/-- The active fields put together are the compare value again (R93, R112). -/
theorem setPwmCompare_pwmCmp : (c.setPwmCompare w high).pwmCmp = 2 ^ w.bits - high.toNat := by
  have he : (pwmCompare w high).e.toNat = (2 ^ w.bits - high.toNat) / 2 ^ w.bits % 2 := Nat.toNat_testBit _ _
  have hcmp : (c.setPwmCompare w high).pwmCmp =
      2 ^ w.bits * (pwmCompare w high).e.toNat + (if w = .w10 then 2 ^ 8 * (pwmCompare w high).x.toNat else 0)
        + (pwmCompare w high).low.toNat % 2 ^ min w.bits 8 := rfl
  rw [hcmp, he, pwmCompare_x, pwmCompare_low, Nat.mod_mod]
  cases w <;> simp [PwmWidth.bits] <;> omega

/-- The output is high from the compare value to the end of each period (R112). -/
theorem setPwmCompare_pwmOut (v : Half) :
    (c.setPwmCompare w high).pwmOut v = decide (2 ^ w.bits - high.toNat ≤ v.toNat % 2 ^ w.bits) := by
  rw [← setPwmCompare_pwmCmp c w high]
  rfl

/-- STARTPWM writes its compare value as SETDUTY does, so the output is the same (R98). -/
theorem startPwm_pwmOut (v : Half) :
    (c.startPwm w trig high).pwmOut v = decide (2 ^ w.bits - high.toNat ≤ v.toNat % 2 ^ w.bits) :=
  setPwmCompare_pwmOut c w high v

/-- SETDUTY after STARTPWM overwrites the compare value and nothing else (R98). -/
theorem setPwmCompare_startPwm (high' : BitVec 11) :
    (c.startPwm w trig high).setPwmCompare w high' = c.startPwm w trig high' := rfl

end

/-- Of the numbers below `m`, those from `a` up are `m - a`. -/
theorem countP_range_ge {a m : Nat} (h : a ≤ m) : (List.range m).countP (fun k => decide (a ≤ k)) = m - a := by
  obtain ⟨d, rfl⟩ := Nat.exists_eq_add_of_le h
  have hbelow : Nat.count (a ≤ ·) a = 0 := Nat.count_of_forall_not fun k hk => Nat.not_le.2 hk
  have habove : Nat.count (fun k => a ≤ a + k) d = d := Nat.count_of_forall fun k _ => Nat.le_add_right a k
  rw [Nat.add_sub_cancel_left]
  calc Nat.count (a ≤ ·) (a + d) = Nat.count (a ≤ ·) a + Nat.count (fun k => a ≤ a + k) d := Nat.count_add _ a d
    _ = d := by rw [hbelow, habove, Nat.zero_add]

/-- After STARTPWM the output is high for `high` of the `2^W` counts of a period (R98). -/
theorem countP_startPwm_pwmOut (c : Channel) {w : PwmWidth} (trig : EdgeSel) {high : BitVec 11}
    (hhigh : high.toNat ≤ 2 ^ w.bits) :
    (List.range (2 ^ w.bits)).countP (fun k => (c.startPwm w trig high).pwmOut (BitVec.ofNat 16 k)) = high.toNat := by
  have hperiod : 2 ^ w.bits ≤ 65536 := by cases w <;> decide
  have hout (k : Nat) (hk : k ∈ List.range (2 ^ w.bits)) :
      (c.startPwm w trig high).pwmOut (BitVec.ofNat 16 k) = decide (2 ^ w.bits - high.toNat ≤ k) := by
    have hlt := List.mem_range.1 hk
    rw [startPwm_pwmOut, BitVec.toNat_ofNat, Nat.mod_eq_of_lt (hlt.trans_le hperiod), Nat.mod_eq_of_lt hlt]
  rw [List.countP_congr fun k hk => by rw [hout k hk], countP_range_ge (Nat.sub_le ..), Nat.sub_sub_self hhigh]

/-! ### The statements on STARTPWM and SETDUTY -/

/-- `CCAPM` of a PWM channel, bit by bit (R73, R94). -/
theorem pwmControl_byte (trig : EdgeSel) :
    (pwmControl trig).byte = 0x42#8 + (if trig.selectsRising then 0x20#8 else 0#8)
      + (if trig.selectsFalling then 0x10#8 else 0#8) + (if trig ≠ .none then 0x01#8 else 0#8) := by
  cases trig <;> decide

/-- Settles O30: `startPwm_pwmOut`, and its count over a period. -/
theorem pwmOutputIsHighForHighCounts : Obligations.PwmOutputIsHighForHighCounts := by
  intro s t n w trig high h
  obtain ⟨-, -, -, hhigh, rfl⟩ := exec_startpwm_eq_next.1 h
  rw [setChan_chan_self]
  exact ⟨startPwm_pwmOut _ w trig high, countP_startPwm_pwmOut _ trig hhigh⟩

/-- Settles O27: the fields of the compare value and the control and mode bytes, STARTPWM's write set for the rest. -/
theorem startpwmConfiguresTheOutput : Obligations.StartpwmConfiguresTheOutput := by
  intro s n w trig high hinit
  obtain ⟨habsent, hpresent⟩ := refusalsNameTheFirstReason s n hinit
  refine ⟨fun hbad => exec_refused_of_not_next fun t ht => ?_, fun hn _ _ => (habsent hn).2.1 w trig high,
    fun hn hw _ => (hpresent hn).1 w trig high hw, fun hn hw hhigh => ?_, fun hn hw hhigh => ?_⟩
  · obtain ⟨-, hn, hw, hhigh, -⟩ := exec_startpwm_eq_next.1 ht
    simp [hn, hw, Nat.not_lt.2 hhigh] at hbad
  · refine (afterInit_onChannel hinit hn _).trans ?_
    rw [hw, require_true]
    exact require_of_false (decide_eq_false (Nat.not_le.2 hhigh)) _ _
  · have h := exec_startpwm_eq_next (trig := trig).2 ⟨hinit, hn, hw, hhigh, rfl⟩
    have hown {off : Nat} (ho : off < 0x20) := reg_setChan_self hn ((s.chan.get n).startPwm w trig high) ho
    refine ⟨_, h, ?_, ?_, ⟨(pwmCompare w high).x, pwmCompare_x w high, ?_⟩, ?_, ?_, fun i hi => ?_, rfl, rfl, rfl, rfl, rfl⟩
    · rw [hown (by decide)]
      exact pwmCompare_low w high
    · rw [hown (by decide), hown (by decide)]
      rfl
    · exact (hown (by decide)).trans (setPwmCompare_auxByte (s.chan.get n) w high)
    · exact (hown (by decide)).trans (pwmControl_byte trig)
    · rw [hown (by decide), reg_present hn (by decide)]
      exact chmodeByte_of_mode (m := .pwm) rfl rfl
    · by_contra hx
      exact hi (operationsWriteOnlyTheirWriteSet _ _ _ i h hx)

/-- `EBS` stands in bits 7:6 of the auxiliary byte (R74). -/
theorem byte_extract_ebs (r : Pcapwm) : r.byte.extractLsb' 6 2 = r.ebs.code := by
  have hbits (code xh xl : BitVec 2) (epch epcl : Bool) :
      (code ++ xh ++ xl ++ BitVec.ofBool epch ++ BitVec.ofBool epcl).extractLsb' 6 2 = code := by
    revert code xh xl epch epcl
    decide
  exact hbits _ _ _ _ _

/-- The width code an existing channel shows in `EBS` (R74). -/
theorem reg_extract_ebs {s : State} {n : ChanId} (hn : s.cfg.hasChannel n = true) :
    (reg s (chanIdx n 0x03)).extractLsb' 6 2 = (s.chan.get n).pcapwm.ebs.code := by
  rw [reg_present hn (by decide)]
  exact byte_extract_ebs _

/-- Settles O28: on an existing channel `w` is the width SETDUTY reads back; the fields of the compare value are STARTPWM's. -/
theorem setdutyChangesOnlyTheCompareValue : Obligations.SetdutyChangesOnlyTheCompareValue := by
  intro s n high w hinit hw
  obtain ⟨-, hpresent⟩ := refusalsNameTheFirstReason s n hinit
  have hwidth (hn : s.cfg.hasChannel n = true) : (s.chan.get n).pcapwm.ebs = w := by
    rw [hw, reg_extract_ebs hn, PwmWidth.ofCode_code]
  refine ⟨fun hbad => exec_refused_of_not_next fun t ht => ?_, fun hn hmode _ => (hpresent hn).2 high hmode,
    fun hn hmode hhigh => ?_, fun hn hmode hhigh => ?_⟩
  · obtain ⟨-, hn, hmode, hhigh, -⟩ := exec_setduty_eq_next.1 ht
    rw [hwidth hn] at hhigh
    simp [hn, hmode, Nat.not_lt.2 hhigh] at hbad
  · refine (afterInit_onChannel hinit hn _).trans ?_
    rw [decide_eq_true hmode, require_true, hwidth hn]
    exact require_of_false (decide_eq_false (Nat.not_le.2 hhigh)) _ _
  · obtain rfl := hwidth hn
    have h := exec_setduty_eq_next.2 ⟨hinit, hn, hmode, hhigh, rfl⟩
    have hown {off : Nat} (ho : off < 0x20) :=
      reg_setChan_self hn ((s.chan.get n).setPwmCompare (s.chan.get n).pcapwm.ebs high) ho
    refine ⟨_, h, ?_, ?_, ⟨(pwmCompare _ high).x, pwmCompare_x _ high, ?_⟩, fun i hi => ?_, rfl, rfl, rfl, rfl, rfl⟩
    · rw [hown (by decide)]
      exact pwmCompare_low _ high
    · rw [hown (by decide), hown (by decide)]
      rfl
    · rw [hown (by decide), reg_extract_ebs hn]
      exact setPwmCompare_auxByte _ _ high
    · by_contra hx
      exact hi (operationsWriteOnlyTheirWriteSet _ _ _ i h hx)

/-- Settles O29: SETDUTY reads back the width that STARTPWM wrote and overwrites the compare value. -/
theorem setdutyAfterStartpwmIsStartpwm : Obligations.SetdutyAfterStartpwmIsStartpwm := by
  intro s n w trig x y hinit hn hw hx hy
  have hsame : (s.setChan n ((s.chan.get n).startPwm w trig x)).setChan n (((s.chan.get n).startPwm w trig x).setPwmCompare w y)
      = s.setChan n ((s.chan.get n).startPwm w trig y) := by
    rw [setChan_setChan, setPwmCompare_startPwm]
  refine ⟨_, _, exec_startpwm_eq_next.2 ⟨hinit, hn, hw, hx, rfl⟩,
    exec_setduty_eq_next.2 ⟨hinit, hn, ?_, ?_, ?_⟩, exec_startpwm_eq_next.2 ⟨hinit, hn, hw, hy, rfl⟩, ?_, ?_⟩
  · rw [setChan_chan_self]
    rfl
  · rw [setChan_chan_self]
    exact hy
  · rw [setChan_chan_self]
    exact hsame
  · rw [reg_extract_ebs (s := s.setChan ..) hn, setChan_chan_self]
    rfl
  · rw [setChan_chan_self]
    exact countP_startPwm_pwmOut _ trig hy

end Sys2Proof.Machine
end

/-! PROOFS. STARTTMR: the bytes it writes, the count at which the first match comes, and the grid of periods the accumulator stays on
(R96, R97, R161, R164). -/
section
namespace Sys2Proof.Machine

/-! ### What STARTTMR writes -/

/-- `CCAPM` of a Timer or Pulse channel (R73, R96). -/
theorem timerControl_byte (out : TimerOutput) : (timerControl out).byte = if out = .pulse then 0x4D#8 else 0x49#8 := by
  cases out <;> decide

/-- The mode bits of `CHMODE` that STARTTMR sets (R75, R96). -/
theorem timerMode_code (out : TimerOutput) : 0#5 ++ (timerMode out).code = if out = .pulse then 0x04#8 else 0x03#8 := by
  cases out <;> decide

/-- Settles O31: the bytes of `Channel.startTimer`, and STARTTMR's write set for the rest. -/
theorem starttmrSetsPeriodAndFirstCompare : Obligations.StarttmrSetsPeriodAndFirstCompare := by
  intro s n period out hinit
  refine ⟨fun habsent => (afterInit_of_inited hinit _).trans (onChannel_of_absent habsent _), fun hn => ?_⟩
  have h := exec_starttmr_eq_next (period := period) (out := out).2 ⟨hinit, hn, rfl⟩
  have hown {off : Nat} (ho : off < 0x20) := reg_setChan_self hn ((s.chan.get n).startTimer period out) ho
  refine ⟨_, h, ?_, hown (by decide), hown (by decide), ?_, ?_, ?_, fun i hi => ?_, rfl, rfl, rfl, rfl, rfl⟩
  · exact (hown (by decide)).trans (timerControl_byte out)
  · rw [hown (by decide), reg_present hn (by decide), ← timerMode_code]
    exact chmodeByte_of_mode rfl rfl
  · refine memRead_chan (k := 2) (s := s.setChan ..) hn period (by decide) ?_
    rw [setChan_chan_self]
    exact byteAt_tmrper _
  · refine memRead_chan (k := 2) (s := s.setChan ..) hn period (by decide) ?_
    rw [setChan_chan_self]
    exact byteAt_tmrval _
  · by_contra hx
    exact hi (operationsWriteOnlyTheirWriteSet _ _ _ i h hx)

/-! ### The first match -/

/-- How many counts after `c` the counter takes the value `p` for the first time: a whole turn when it stands there (R97, R164). -/
def matchDistance (c p : Half) : Nat :=
  if p = c then 65536 else (p - c).toNat

theorem matchDistance_pos (c p : Half) : 1 ≤ matchDistance c p := by
  unfold matchDistance
  split
  · decide
  · bv_omega

/-- Up to that distance the counter meets `p` at its end only. -/
theorem add_ofNat_eq_iff_matchDistance (c p : Half) {j : Nat} (hpos : 1 ≤ j) (hj : j ≤ matchDistance c p) :
    c + BitVec.ofNat 16 j = p ↔ j = matchDistance c p := by
  unfold matchDistance at *
  split at hj
  · next heq => rw [if_pos heq]; bv_omega
  · next hne => rw [if_neg hne]; bv_omega

/-- At any other value than its compare pair, a count leaves a channel that is no PWM output as it is (R111, R113). -/
theorem count_of_ne {c : Channel} {new : Half} (hpwm : c.ccapm.pwm = false) (hne : new ≠ c.ccap) : c.count new = c := by
  simp [Channel.count, Channel.compareStep, Channel.pwmStep, Channel.equals, hpwm, hne]

/-- At its compare pair, a count sets the flag of a channel with `ECOM` and `MAT` (R111). -/
theorem count_ccf_of_eq {c : Channel} {new : Half} (hecom : c.ccapm.ecom = true) (hmat : c.ccapm.mat = true)
    (heq : new = c.ccap) : (c.count new).ccf = true := by
  have hset : (c.compareStep new).ccf = true := by simp [Channel.compareStep, Channel.equals, hecom, hmat, heq]
  unfold Channel.count Channel.pwmStep
  split
  · exact (congrArg (· || _) hset).trans (Bool.true_or _)
  · exact hset

/-- Counts that do not reach the compare pair leave a channel that is no PWM output as it is. -/
theorem countTimes_chan_before_match {s : State} {n : ChanId} (hrun : s.cr = true)
    (hpwm : (s.chan.get n).ccapm.pwm = false) {k : Nat} (hk : k < matchDistance s.cnt (s.chan.get n).ccap) :
    (countTimes k s).chan.get n = s.chan.get n := by
  induction k with
  | zero => rfl
  | succ k ih =>
    have hkeep := ih (by omega)
    have hne : (countTimes k s).cnt + 1#16 ≠ (s.chan.get n).ccap := by
      rw [countTimes_cnt hrun, BitVec.add_assoc, ← BitVec.ofNat_add]
      exact fun heq => absurd ((add_ofNat_eq_iff_matchDistance _ _ (by omega) (by omega)).1 heq) (by omega)
    rw [countTimes_succ_last, countOnce_chan (by rw [countTimes_cr, hrun]), hkeep, count_of_ne hpwm hne, ite_self]

/-- The count that reaches the compare pair sets the flag of a matching channel (R97, R111). -/
theorem countTimes_ccf_at_match {s : State} {n : ChanId} (hrun : s.cr = true) (hn : s.cfg.hasChannel n = true)
    (hpwm : (s.chan.get n).ccapm.pwm = false) (hecom : (s.chan.get n).ccapm.ecom = true)
    (hmat : (s.chan.get n).ccapm.mat = true) :
    ((countTimes (matchDistance s.cnt (s.chan.get n).ccap) s).chan.get n).ccf = true := by
  have hpos := matchDistance_pos s.cnt (s.chan.get n).ccap
  have heq := (add_ofNat_eq_iff_matchDistance s.cnt (s.chan.get n).ccap hpos le_rfl).2 rfl
  have hbefore := fun k => countTimes_chan_before_match (k := k) hrun hpwm
  generalize matchDistance s.cnt (s.chan.get n).ccap = d at *
  obtain ⟨k, rfl⟩ := Nat.exists_eq_add_of_le' hpos
  have hcfg : (countTimes k s).cfg = s.cfg := (countTimes_besides k s).1
  have hlast : (countTimes k s).cnt + 1#16 = (s.chan.get n).ccap := by
    rw [countTimes_cnt hrun, BitVec.add_assoc, ← BitVec.ofNat_add, heq]
  rw [countTimes_succ_last, countOnce_chan (by rw [countTimes_cr, hrun]), hcfg, if_pos hn, hbefore k (by omega)]
  exact count_ccf_of_eq hecom hmat hlast

/-- Settles O32: a started timer's compare pair is its period, so the first match is at `matchDistance`. -/
theorem timerFirstMatchComesAtItsDistance : Obligations.TimerFirstMatchComesAtItsDistance := by
  intro s t n period out d h hrun hflag hd
  obtain ⟨-, hn, rfl⟩ := exec_starttmr_eq_next.1 h
  have hccap : ((s.chan.get n).startTimer period out).ccap = period := setCcap_ccap (s.chan.get n) period
  have hself := setChan_chan_self s n ((s.chan.get n).startTimer period out)
  change d = matchDistance s.cnt period at hd
  generalize ht : s.setChan n ((s.chan.get n).startTimer period out) = t at hself ⊢
  have hcnt : t.cnt = s.cnt := by rw [← ht, setChan_cnt]
  have hrun : t.cr = true := by rw [← ht, setChan_cr, hrun]
  have hdist : d = matchDistance t.cnt (t.chan.get n).ccap := by rw [hd, hcnt, hself, hccap]
  refine ⟨fun k hk => ?_, ?_, ?_⟩
  · rw [countTimes_chan_before_match hrun (by rw [hself]; rfl) (hdist ▸ hk), hself]
    exact hflag
  · rw [hdist]
    exact countTimes_ccf_at_match hrun (by rw [← ht]; exact hn) (by rw [hself]; rfl) (by rw [hself]; rfl) (by rw [hself]; rfl)
  · rw [countTimes_cnt hrun, hcnt, hd]
    exact (add_ofNat_eq_iff_matchDistance _ _ (matchDistance_pos _ _) le_rfl).2 rfl

/-! ### The grid of periods -/

/-- The accumulator of a channel is a multiple of its period, modulo 65536 (R97 (c)). -/
def Channel.OnPeriodGrid (c : Channel) : Prop :=
  ∃ j : Nat, c.tmrval = BitVec.ofNat 16 (j * c.tmrper.toNat)

theorem startTimer_onPeriodGrid (c : Channel) (period : Half) (out : TimerOutput) : (c.startTimer period out).OnPeriodGrid :=
  ⟨1, by simp [Channel.startTimer]⟩

/-- Additive reload moves the accumulator to the next point of the grid (R123). -/
theorem served_onPeriodGrid {c : Channel} (h : c.OnPeriodGrid) : c.served.OnPeriodGrid := by
  obtain ⟨-, heq⟩ | ⟨-, ⟨-, -, heq⟩ | ⟨-, -, heq⟩ | ⟨-, heq⟩ | ⟨-, heq⟩⟩ := served_cases c <;> rw [heq]
  case inr.inr.inr.inl =>
    obtain ⟨j, hj⟩ := h
    refine ⟨j + 1, ?_⟩
    change c.tmrval + c.tmrper = BitVec.ofNat 16 ((j + 1) * c.tmrper.toNat)
    rw [hj, Nat.succ_mul, BitVec.ofNat_add, BitVec.ofNat_toNat, BitVec.setWidth_eq]
  all_goals exact h

/-- Only STARTTMR and the Timer and Pulse arm of SERVICE write the accumulator or the period (R40). -/
theorem channelAfter_onPeriodGrid (i : Instr) {s : State} {n : ChanId} (h : (s.chan.get n).OnPeriodGrid) :
    (channelAfter i s n).OnPeriodGrid := by
  cases i with
  | init => exact h
  | startt0 => exact h
  | startcap => simp only [channelAfter]; split <;> exact h
  | startpwm => simp only [channelAfter]; split <;> exact h
  | setduty => simp only [channelAfter]; split <;> exact h
  | starttmr m period out =>
    simp only [channelAfter]
    split
    · exact startTimer_onPeriodGrid _ period out
    · exact h
  | tick count =>
    obtain ⟨flag, pin, heq, -⟩ := countTimes_chan count.toNat s n
    rw [channelAfter, heq]
    exact h
  | edge m pol =>
    simp only [channelAfter]
    split
    · obtain heq | ⟨-, heq⟩ := edge_cases pol s.cl s.ch (s.chan.get n) <;> rw [heq] <;> exact h
    · exact h
  | service =>
    obtain ⟨ovf, heq⟩ := serveOverflow_chan_eq s n
    rw [channelAfter, heq]
    exact served_onPeriodGrid h
  | rd => exact h

/-- Settles O33: 0 is on every grid, and each operation keeps a channel on its own. -/
theorem timerValuesStayOnThePeriodGrid : Obligations.TimerValuesStayOnThePeriodGrid := by
  refine ⟨fun c n => ⟨0, by rw [resetWith_chan, Nat.zero_mul]; rfl⟩, fun s t n hstep h => ?_⟩
  change (t.chan.get n).OnPeriodGrid
  obtain ⟨-, rfl⟩ | ⟨w, rest, i, -, -, hexec⟩ := step_eq_next hstep
  · exact h
  · rw [exec_chan_get hexec]
    split
    · exact channelAfter_onPeriodGrid i (s := { s with trace := rest }) h
    · exact h

end Sys2Proof.Machine
end

/-! PROOFS. The first interval after STARTCAP: it is measured from the restart, and an overflow flag pending there is counted into it
(R91, R92, R129, R158). -/
section
namespace Sys2Proof.Machine

section
variable {s : State} {n : ChanId} {e : EdgeSel} {mode : CaptureMode} {sh : BitVec 5}

/-- The channel that STARTCAP arms (R91). -/
theorem startCapture_chan_self (hn : s.cfg.hasChannel n = true) :
    (startCapture n e mode sh s).chan.get n =
      ({ s.chan.get n with capovf := 0#8, capstart := 0#32, capend := 0#32 } : Channel).armCapture e mode sh :=
  (startCapture_chan n e mode sh hn n).trans (if_pos rfl)

/-- STARTCAP restarts the counter at 0 (R91). -/
theorem startCapture_cnt : (startCapture n e mode sh s).cnt = 0#16 :=
  show (0#8 ++ 0#8 : Half) = 0#16 by decide

end

/-- Settles O51: STARTCAP clears the counter, the overflow count and the start snapshot alike. -/
theorem startcapBeginsAMeasuredInterval : Obligations.StartcapBeginsAMeasuredInterval := by
  intro s n e sh hinit hn hshift hecf hcf hccf
  have hchan := startCapture_chan_self (e := e) (mode := .continuous) (sh := sh) hn
  refine ⟨_, exec_startcap_eq_next.2 ⟨hinit, hn, hshift, rfl⟩, ?_⟩
  constructor
  case running => rfl
  case overflowEnabled => exact hecf
  case present => exact hn
  case served => rw [hchan]; exact hccf
  case startTop => rw [hchan]; exact show (0#32).toNat < 2 ^ 16 by decide
  case counted =>
    have hcf' : (startCapture n e .continuous sh s).cf = false := hcf
    rw [hchan, hcf', startCapture_cnt]
    rfl
  all_goals rw [hchan]; rfl

/-- A capture channel armed for an edge selection captures its edges (R77, R114). -/
theorem captures_of_selects {c : Channel} {e : EdgeSel} {pol : Polarity} (hctl : c.ccapm = captureControl e)
    (hsel : selects e pol = true) : c.captures pol = true := by
  unfold Channel.captures
  rw [hctl]
  cases pol <;> exact (Bool.and_true _).trans hsel

/-- A captured edge takes the counter into the compare pair (R114). -/
theorem edge_of_captures {c : Channel} {pol : Polarity} (hcap : c.captures pol = true) (cl ch : Byte) :
    c.edge pol cl ch = { c with ccapl := cl, ccaph := ch, ccf := true } :=
  if_pos hcap

/-- What the Capture arm leaves in the end snapshot and reports (R121). -/
theorem served_of_capture {c : Channel} (n : ChanId) (hflag : c.ccf = true) (hmode : c.mode = .capture) :
    c.served.capend = c.endSnapshot ∧ c.servedEvents n = [{ channel := n, duration := c.captureDuration }] := by
  simp only [Channel.served, Channel.servedEvents, Channel.serve, hflag, hmode]
  exact ⟨rfl, rfl⟩

/-- One pass of the demultiplexer over a flagged capture channel with the overflow flag set: the overflow is counted before the
snapshot is taken (R119, R121). -/
theorem takeInterrupt_capture_with_overflow {s : State} {n : ChanId} (hn : s.cfg.hasChannel n = true) (hcf : s.cf = true)
    (hflag : (s.chan.get n).ccf = true) (hmode : (s.chan.get n).mode = .capture) :
    let c : Channel := { s.chan.get n with capovf := (s.chan.get n).capovf + 1#8 }
    ((takeInterrupt s).chan.get n).capend = c.endSnapshot ∧
      ∃ evs, (takeInterrupt s).cb = s.cb ++ evs ∧
        (evs.filter fun ev => ev.channel = n) = [{ channel := n, duration := c.captureDuration }] := by
  intro c
  have hcounted : (serveOverflow s).chan.get n = c := by
    rw [serveOverflow_chan, hcf, hn]
    simp [Channel.countOverflow, hmode, c]
  obtain ⟨hend, hevents⟩ := served_of_capture (c := c) n hflag hmode
  refine ⟨?_, _, takeInterrupt_cb s, ?_⟩
  · rw [takeInterrupt_chan, if_pos hn, hcounted, hend]
  · rw [filter_servedEvents hn, hcounted, hevents]

/-- Channel `n` once it has captured the present counter value and one more overflow has been counted (R114, R119). -/
def State.capturedWithOverflow (s : State) (n : ChanId) : Channel :=
  { s.chan.get n with ccapl := s.cl, ccaph := s.ch, ccf := true, capovf := (s.chan.get n).capovf + 1#8 }

/-- A captured edge with the overflow flag set, and the SERVICE after it (R114, R119, R121). -/
theorem edge_service_with_overflow {s : State} {n : ChanId} {pol : Polarity} (hn : s.cfg.hasChannel n = true) (hcf : s.cf = true)
    (hcap : (s.chan.get n).captures pol = true) (heccf : (s.chan.get n).ccapm.eccf = true)
    (hmode : (s.chan.get n).mode = .capture) :
    ∃ t u, exec (.edge n pol) s = .next t ∧ exec .service t = .next u ∧
      (u.chan.get n).capend = (s.capturedWithOverflow n).endSnapshot ∧
      ∃ evs, u.cb = s.cb ++ evs ∧ (evs.filter fun ev => ev.channel = n) =
        [{ channel := n, duration := (s.capturedWithOverflow n).captureDuration }] := by
  have hedge := exec_edge_eq_next.2 ⟨hn, congrArg (s.setChan n) (edge_of_captures hcap s.cl s.ch)⟩
  generalize hc : ({ s.chan.get n with ccapl := s.cl, ccaph := s.ch, ccf := true } : Channel) = c at hedge
  have hself := setChan_chan_self s n c
  have hflag : ((s.setChan n c).chan.get n).ccf = true := by rw [hself, ← hc]
  have henable : ((s.setChan n c).chan.get n).ccapm.eccf = true := by rw [hself, ← hc, heccf]
  have hserve := takeInterrupt_capture_with_overflow (s := s.setChan n c) hn hcf hflag (by rw [hself, ← hc, hmode])
  rw [hself, ← hc] at hserve
  obtain ⟨hend, evs, hevs, hfilter⟩ := hserve
  exact ⟨_, _, hedge, exec_service_eq_next.2 ⟨irq_eq_true.2 (.inr ⟨n, hn, hflag, henable⟩), rfl⟩, hc ▸ hend, evs, hc ▸ hevs, hfilter⟩

/-- With the bookkeeping cleared before, the end snapshot is one overflow and the counter value, against a start of 0 (R121). -/
theorem capturedWithOverflow_of_cleared {s : State} {n : ChanId} (hovf : (s.chan.get n).capovf = 0#8)
    (hstart : (s.chan.get n).capstart = 0#32) :
    (s.capturedWithOverflow n).endSnapshot.toNat = 65536 + s.cnt.toNat ∧
      (s.capturedWithOverflow n).captureDuration = durationOf (BitVec.ofNat 32 (65536 + s.cnt.toNat)) (s.chan.get n).shift := by
  have hcount : (s.capturedWithOverflow n).capovf = 1#8 := congrArg (· + 1#8) hovf
  have hstart' : (s.capturedWithOverflow n).capstart = 0#32 := hstart
  have hend : (s.capturedWithOverflow n).endSnapshot.toNat = 65536 + s.cnt.toNat := by
    rw [endSnapshot_toNat, hcount]
    rfl
  refine ⟨hend, ?_⟩
  rw [Channel.captureDuration, hstart', BitVec.sub_zero, ← hend, BitVec.ofNat_toNat, BitVec.setWidth_eq]
  rfl

/-- Settles O53: the flag survives STARTCAP and the TICK, SERVICE counts it into the cleared overflow count, and the snapshot is
taken from a counter at `k` against a start of 0. -/
theorem staleOverflowSurvivesStartcap : Obligations.StaleOverflowSurvivesStartcap := by
  intro s n e mode sh k pol hinit hn hshift hcf hsel
  have hstart := exec_startcap_eq_next (edge := e) (mode := mode).2 ⟨hinit, hn, hshift, rfl⟩
  have htick := exec_tick k (startCapture n e mode sh s)
  obtain ⟨flag, pin, hchan, -⟩ := countTimes_chan k.toNat (startCapture n e mode sh s) n
  obtain ⟨hcfg, -, -, hcb, -⟩ := countTimes_besides k.toNat (startCapture n e mode sh s)
  have hovf : (countTimes k.toNat (startCapture n e mode sh s)).cf = true := countTimes_cf_mono _ hcf
  have hcnt : (countTimes k.toNat (startCapture n e mode sh s)).cnt = k := by
    rw [countTimes_cnt rfl, startCapture_cnt, BitVec.zero_add, BitVec.ofNat_toNat, BitVec.setWidth_eq]
  rw [startCapture_chan_self hn] at hchan
  generalize countTimes k.toNat (startCapture n e mode sh s) = t at *
  obtain ⟨hsnap, hduration⟩ := capturedWithOverflow_of_cleared (s := t) (n := n) (by rw [hchan]; rfl) (by rw [hchan]; rfl)
  obtain ⟨u, v, hedge, hservice, hend, evs, hevs, hfilter⟩ := edge_service_with_overflow (by rw [hcfg]; exact hn) hovf
    (captures_of_selects (by rw [hchan]; rfl) hsel) (by rw [hchan]; rfl) (by rw [hchan]; rfl)
  refine ⟨u, v, ?_, hservice, ?_, evs, ?_, ?_⟩
  · rw [runOps_cons_next hstart, runOps_cons_next htick, runOps_cons_next hedge, runOps_nil]
  · rw [hend, hsnap, hcnt]
  · rw [hevs, hcb]
    rfl
  · rw [hfilter, hduration, hcnt, hchan]
    rfl

end Sys2Proof.Machine
end

/-! PROOFS. The events: one count of a channel by its control bits (R110 to R113), the independence of the channels under TICKs
(R110), and the capture of an edge (R114). -/
section
namespace Sys2Proof.Machine

/-! ### One count of a channel -/

/-- The new counter value is 0 exactly when the old one was the greatest (R110). -/
theorem wraps_add_one (v : Half) : wraps (v + 1#16) = decide (v = 0xFFFF#16) := by
  rw [wraps, decide_eq_decide]
  bv_omega

@[simp] theorem compareStep_ccapm (new : Half) (c : Channel) : (c.compareStep new).ccapm = c.ccapm := by
  unfold Channel.compareStep
  split <;> rfl

section
variable {c : Channel} {new : Half}

theorem equals_of_not_ecom (h : c.ccapm.ecom = false) : c.equals new = false := by
  simp [Channel.equals, h]

theorem equals_of_not_mat (h : c.ccapm.mat = false) : c.equals new = false := by
  simp [Channel.equals, h]

theorem compareStep_of_not_equals (h : c.equals new = false) : c.compareStep new = c :=
  if_neg (Bool.eq_false_iff.1 h)

/-- Without an equality a count is the PWM step alone (R111, R113). -/
theorem count_of_not_equals (h : c.equals new = false) : c.count new = c.pwmStep new := by
  rw [Channel.count, compareStep_of_not_equals h]

/-- Without a PWM output a count is the compare step alone (R111, R113). -/
theorem count_of_not_pwm (h : (c.ccapm.ecom && c.ccapm.pwm) = false) : c.count new = c.compareStep new := by
  refine if_neg (Bool.eq_false_iff.1 ?_)
  rw [compareStep_ccapm, h]

/-- Without the comparator, or with neither an equality under `MAT` nor a PWM output, a count leaves the channel whole (R111,
R113). -/
theorem count_of_idle (h : c.ccapm.ecom = false ∨ (c.ccapm.mat = false ∨ new ≠ c.ccap) ∧ c.ccapm.pwm = false) :
    c.count new = c := by
  obtain hecom | ⟨hmat | hne, hpwm⟩ := h
  · rw [count_of_not_pwm (by rw [hecom, Bool.false_and]), compareStep_of_not_equals (equals_of_not_ecom hecom)]
  · rw [count_of_not_pwm (by rw [hpwm, Bool.and_false]), compareStep_of_not_equals (equals_of_not_mat hmat)]
  · exact count_of_ne hpwm hne

/-- An equality sets the flag and, with `TOG`, toggles the pin (R111). -/
theorem count_of_match (hecom : c.ccapm.ecom = true) (hmat : c.ccapm.mat = true) (hpwm : c.ccapm.pwm = false)
    (heq : new = c.ccap) : c.count new = { c with ccf := true, pin := c.pin ^^ c.ccapm.tog } := by
  have hequals : c.equals new = true := by simp [Channel.equals, hecom, hmat, heq]
  rw [count_of_not_pwm (by rw [hpwm, Bool.and_false])]
  exact if_pos hequals

/-- A PWM output without `MAT` drives its pin, and a selected output edge sets the flag (R112, R113). -/
theorem count_of_pwm (hecom : c.ccapm.ecom = true) (hmat : c.ccapm.mat = false) (hpwm : c.ccapm.pwm = true) :
    c.count new = { c with pin := c.pwmOut new, ccf := c.ccf || c.triggers (c.pwmOut new) } := by
  rw [count_of_not_equals (equals_of_not_mat hmat)]
  exact if_pos (by rw [hecom, hpwm, Bool.and_true])

end

/-- Settles O36: a TICK of one count is `countOnce`, and `Channel.count` by the control bits. -/
theorem oneCountMatchesAndDrivesThePins : Obligations.OneCountMatchesAndDrivesThePins := by
  intro s n hrun hn
  have hchan : (countOnce s).chan.get n = (s.chan.get n).count (s.cnt + 1#16) := by rw [countOnce_chan hrun, if_pos hn]
  refine ⟨countOnce s, exec_tick _ s, countOnce_cnt hrun, ?_, fun hidle => ?_, fun hecom hmat hpwm heq => ?_,
    fun hecom hmat hpwm => ?_⟩
  · rw [countOnce_cf hrun, wraps_add_one]
  · rw [hchan, count_of_idle hidle]
  · have htoggle (pin tog : Bool) : (pin ^^ tog) = if tog then !pin else pin := by
      cases tog <;> simp
    rw [hchan, count_of_match hecom hmat hpwm heq, htoggle]
  · rw [hchan, count_of_pwm hecom hmat hpwm, Bool.or_assoc]
    rfl

/-! ### Independence of the channels -/

/-- Two states agree on what the counts of channel `n` depend on: whether it exists, its own state, the counter and the run control
(R110). -/
structure CountAlike (n : ChanId) (s s' : State) : Prop where
  present : s.cfg.hasChannel n = s'.cfg.hasChannel n
  run : s.cr = s'.cr
  counter : s.cnt = s'.cnt
  channel : s.chan.get n = s'.chan.get n

theorem countAlike_countOnce {n : ChanId} {s s' : State} (h : CountAlike n s s') : CountAlike n (countOnce s) (countOnce s') := by
  cases hrun : s.cr with
  | false =>
    rw [countOnce_stopped hrun, countOnce_stopped (h.run ▸ hrun)]
    exact h
  | true =>
    have hrun' : s'.cr = true := h.run ▸ hrun
    constructor
    case present => rw [countOnce_cfg, countOnce_cfg, h.present]
    case run => rw [countOnce_cr, countOnce_cr, h.run]
    case counter => rw [countOnce_cnt hrun, countOnce_cnt hrun', h.counter]
    case channel => rw [countOnce_chan hrun, countOnce_chan hrun', h.present, h.counter, h.channel]

theorem countAlike_countTimes {n : ChanId} (k : Nat) {s s' : State} (h : CountAlike n s s') :
    CountAlike n (countTimes k s) (countTimes k s') := by
  induction k generalizing s s' with
  | zero => exact h
  | succ k ih => exact ih (countAlike_countOnce h)

/-- Settles O38: every count of a TICK keeps the agreement `CountAlike`. -/
theorem ticksKeepChannelsIndependent : Obligations.TicksKeepChannelsIndependent := by
  intro s s' t t' n k hpresent hrun hcnt hchan ht ht'
  obtain rfl := exec_tick_eq_next.1 ht
  obtain rfl := exec_tick_eq_next.1 ht'
  have hafter := countAlike_countTimes k.toNat ⟨hpresent, hrun, hcnt, hchan⟩
  exact ⟨hafter.channel, hafter.counter⟩

/-! ### The capture of an edge -/

/-- The edge bits and the PWM bit of `CCAPM` (R73). -/
theorem ccapmByte_getLsbD (r : Ccapm) :
    r.byte.getLsbD 5 = r.capp ∧ r.byte.getLsbD 4 = r.capn ∧ r.byte.getLsbD 1 = r.pwm := by
  have hbits (ecom capp capn mat tog pwm eccf : Bool) :
      let v : Byte := 0#1 ++ BitVec.ofBool ecom ++ BitVec.ofBool capp ++ BitVec.ofBool capn ++ BitVec.ofBool mat
        ++ BitVec.ofBool tog ++ BitVec.ofBool pwm ++ BitVec.ofBool eccf
      v.getLsbD 5 = capp ∧ v.getLsbD 4 = capn ∧ v.getLsbD 1 = pwm := by
    revert ecom capp capn mat tog pwm eccf
    decide
  exact hbits _ _ _ _ _ _ _

/-- Whether an edge is captured, by the bits of `CCAPM` (R73, R114). -/
theorem captures_eq_bits (c : Channel) (pol : Polarity) :
    c.captures pol = (c.ccapm.byte.getLsbD (if pol = .rising then 5 else 4) && !c.ccapm.byte.getLsbD 1) := by
  obtain ⟨hcapp, hcapn, hpwm⟩ := ccapmByte_getLsbD c.ccapm
  cases pol with
  | rising => rw [if_pos rfl, hcapp, hpwm]; rfl
  | falling => rw [if_neg (by decide), hcapn, hpwm]; rfl

/-- An edge that is not captured changes nothing (R114). -/
theorem edge_of_not_captures {c : Channel} {pol : Polarity} (h : c.captures pol = false) (cl ch : Byte) : c.edge pol cl ch = c :=
  if_neg (Bool.eq_false_iff.1 h)

/-- Setting the bit of one existing channel sets bit `n` of the per-channel bits (R71, R76). -/
theorem channelBits_setChan {s : State} {n : ChanId} (hn : s.cfg.hasChannel n = true) {f : Channel → Bool} {c : Channel}
    (hc : f c = true) : (s.setChan n c).channelBits f = s.channelBits f ||| 1#4 <<< n.val := by
  refine BitVec.eq_of_getLsbD_eq fun i hi => ?_
  have hleft := channelBits_getLsbD (s.setChan n c) f ⟨i, hi⟩
  have hright := channelBits_getLsbD s f ⟨i, hi⟩
  rw [setChan_cfg, setChan_chan] at hleft
  have hbit : (1#4 <<< n.val).getLsbD i = decide (⟨i, hi⟩ = n) := by
    have hall : ∀ m n : Fin 4, (1#4 <<< n.val).getLsbD m.val = decide (m = n) := by decide
    exact hall ⟨i, hi⟩ n
  rw [BitVec.getLsbD_or, hright, hleft, hbit]
  by_cases h : ⟨i, hi⟩ = n
  · simp [h, hn, hc]
  · simp [h]

/-- Setting the flag of one existing channel sets its bit of `CCON` and keeps the others (R71). -/
theorem cconByte_setChan {s : State} {n : ChanId} (hn : s.cfg.hasChannel n = true) {c : Channel} (hc : c.ccf = true) :
    (s.setChan n c).cconByte = s.cconByte ||| 1#8 <<< n.val := by
  have hbits (cf cr : Bool) (flags : BitVec 4) (m : Fin 4) :
      BitVec.ofBool cf ++ BitVec.ofBool cr ++ 0#2 ++ (flags ||| 1#4 <<< m.val) =
        (BitVec.ofBool cf ++ BitVec.ofBool cr ++ 0#2 ++ flags) ||| 1#8 <<< m.val := by
    revert cf cr flags m
    decide
  rw [State.cconByte, channelBits_setChan hn hc]
  exact hbits _ _ _ n

/-- Settles O39: `edge_of_captures` and `cconByte_setChan` for the bytes an armed edge writes, EDGE's write set for the rest. -/
theorem edgeCapturesTheCounterWhenArmed : Obligations.EdgeCapturesTheCounterWhenArmed := by
  intro s n pol
  refine ⟨fun habsent => onChannel_of_absent habsent _, fun hn => ?_⟩
  have h := exec_edge_eq_next (pol := pol).2 ⟨hn, rfl⟩
  have hown {off : Nat} (ho : off < 0x20) := reg_setChan_self hn ((s.chan.get n).edge pol s.cl s.ch) ho
  have hcaptures := captures_eq_bits (s.chan.get n) pol
  refine ⟨_, h, ?_⟩
  rw [show reg s (chanIdx n 0x00) = (s.chan.get n).ccapm.byte from reg_present hn (by decide)]
  refine ⟨fun harmed hpwm => ?_, fun hunarmed => ?_⟩
  · have heq := edge_of_captures (hcaptures.trans (by rw [harmed, hpwm]; rfl)) s.cl s.ch
    refine ⟨?_, ?_, ?_, fun i hi => by_contra fun hx => hi (edge_writeSet h hx), rfl, rfl, rfl, rfl, rfl⟩
    · rw [hown (by decide), heq, reg_cl]
      rfl
    · rw [hown (by decide), heq, reg_ch]
      rfl
    · rw [reg_ccon, reg_ccon]
      exact cconByte_setChan hn (by rw [heq])
  · have hkeep : (s.chan.get n).captures pol = false := by
      obtain hbit | hpwm := hunarmed
      · rw [hcaptures, hbit, Bool.false_and]
      · rw [hcaptures, hpwm, Bool.not_true, Bool.and_false]
    rw [edge_of_not_captures hkeep, setChan_self]

end Sys2Proof.Machine
end

/-! PROOFS. One pass of SERVICE as each existing channel sees it: step 1 counts the overflow, then the arm of its mode, with its one
callback (R118 to R128). -/
section
namespace Sys2Proof.Machine

/-! ### When SERVICE goes on -/

theorem exec_service_of_irq {s : State} (h : irq s = true) : exec .service s = .next (takeInterrupt s) :=
  exec_service_eq_next.2 ⟨h, rfl⟩

/-- Settles O42: the one check of SERVICE is the request line. -/
theorem serviceIsEnabledExactlyByIrq : Obligations.ServiceIsEnabledExactlyByIrq :=
  fun _ => ⟨fun h => ⟨_, exec_service_of_irq h⟩, fun h => require_of_false h _ _⟩

/-! ### The flags after a pass -/

/-- A pass leaves every existing channel's flag clear (R118). -/
theorem takeInterrupt_ccf {s : State} {n : ChanId} (hn : s.cfg.hasChannel n = true) :
    ((takeInterrupt s).chan.get n).ccf = false := by
  rw [takeInterrupt_chan, if_pos hn, served_ccf]

theorem takeInterrupt_irq (s : State) : irq (takeInterrupt s) = false := by
  rw [Bool.eq_false_iff, ne_eq, irq_eq_true, takeInterrupt_cf, takeInterrupt_cfg]
  rintro (⟨hcf, -⟩ | ⟨n, hn, hccf, -⟩)
  · cases hcf
  · rw [takeInterrupt_ccf hn] at hccf
    cases hccf

/-- With the flags of the existing channels clear, the flag bits of `CCON` are zero (R71). -/
theorem channelBits_ccf_of_clear {s : State} (h : ∀ n, s.cfg.hasChannel n = true → (s.chan.get n).ccf = false) :
    s.channelBits Channel.ccf = 0#4 := by
  have hbit (n : ChanId) : (s.cfg.hasChannel n && (s.chan.get n).ccf) = false := by
    cases hn : s.cfg.hasChannel n with
    | false => rfl
    | true => exact h n hn
  simp [State.channelBits, hbit]

/-- With every flag clear `CCON` shows the run control alone (R71, R127). -/
theorem takeInterrupt_cconByte (s : State) : (takeInterrupt s).cconByte = s.cconByte &&& 0x40#8 := by
  have hbits (cf cr : Bool) (flags : BitVec 4) : BitVec.ofBool false ++ BitVec.ofBool cr ++ 0#2 ++ 0#4
      = (BitVec.ofBool cf ++ BitVec.ofBool cr ++ 0#2 ++ flags) &&& 0x40#8 := by
    revert cf cr flags
    decide
  rw [State.cconByte, takeInterrupt_cf, takeInterrupt_cr,
    channelBits_ccf_of_clear fun n hn => takeInterrupt_ccf (takeInterrupt_cfg s ▸ hn)]
  exact hbits _ _ _

/-- Settles O43: `CCON` by its flags, the other array indices by the write set of SERVICE. -/
theorem serviceClearsEveryFlag : Obligations.ServiceClearsEveryFlag := by
  intro s hirq
  have h := exec_service_of_irq hirq
  refine ⟨_, h, takeInterrupt_cf s, fun n hn => takeInterrupt_ccf hn, takeInterrupt_irq s, ?_, fun i hi hccon => ?_,
    takeInterrupt_cfg s, takeInterrupt_trace s, takeInterrupt_inited s, takeInterrupt_rdOut s⟩
  · rw [reg_ccon, reg_ccon, takeInterrupt_cconByte]
  · by_contra hx
    obtain hzero | ⟨n, off, hidx, hoff⟩ := service_writeSet h hx
    · exact hccon hzero
    · have hlt : off < 0x20 := by simp at hoff; omega
      exact chanIdx_ne_of_lt hlt hi hidx.symm

/-! ### Step 1 for one channel -/

/-- Channel `n` with the overflow of step 1 counted: an active channel's `CAPOVF` is one more when `CF` is set (R119). -/
def State.counted (s : State) (n : ChanId) : Channel :=
  { s.chan.get n with
    capovf := if s.cf = true ∧ (s.chan.get n).mode ≠ .unused then (s.chan.get n).capovf + 1#8 else (s.chan.get n).capovf }

theorem serveOverflow_chan_present {s : State} {n : ChanId} (hn : s.cfg.hasChannel n = true) :
    (serveOverflow s).chan.get n = s.counted n := by
  rw [serveOverflow_chan, hn, Bool.and_true, State.counted]
  generalize s.chan.get n = c
  obtain ⟨_, _, _, _, _, _, mode, _, _, _, _, _, _, _⟩ := c
  cases s.cf with
  | false => simp
  | true => cases mode <;> rfl

theorem counted_of_active {s : State} {n : ChanId} (h : (s.chan.get n).mode ≠ .unused) :
    s.counted n =
      { s.chan.get n with capovf := if s.cf then (s.chan.get n).capovf + 1#8 else (s.chan.get n).capovf } := by
  simp [State.counted, h]

theorem counted_of_unused {s : State} {n : ChanId} (h : (s.chan.get n).mode = .unused) : s.counted n = s.chan.get n := by
  rw [State.counted, if_neg fun hactive => hactive.2 h]

/-! ### Step 2 for one channel -/

/-- A flagged channel that is not Unused emits one callback, with a duration other than 0 for a capture only (R121 to R126). -/
theorem servedEvents_eq (c : Channel) (n : ChanId) :
    c.servedEvents n =
      if c.ccf = true ∧ c.mode ≠ .unused then
        [{ channel := n, duration := if c.mode = .capture then c.captureDuration else 0#16 }]
      else [] := by
  obtain ⟨ccf, _, _, _, _, _, mode, _, _, _, _, _, _, _⟩ := c
  cases ccf with
  | false => rfl
  | true => cases mode <;> rfl

theorem servedEvents_of_zero {c : Channel} (n : ChanId) (hflag : c.ccf = true)
    (hmode : c.mode = .timer ∨ c.mode = .pulse ∨ c.mode = .pwm) : c.servedEvents n = [{ channel := n, duration := 0#16 }] := by
  rw [servedEvents_eq]
  obtain hmode | hmode | hmode := hmode <;> simp [hflag, hmode]

theorem servedEvents_of_unused {c : Channel} (n : ChanId) (hmode : c.mode = .unused) : c.servedEvents n = [] := by
  simp [servedEvents_eq, hmode]

section
variable {c : Channel} (hflag : c.ccf = true)
include hflag

/-- The Timer and Pulse arm (R123). -/
theorem served_of_timer (hmode : c.mode = .timer ∨ c.mode = .pulse) :
    c.served = { c.setCcap (c.tmrval + c.tmrper) with ccf := false, tmrval := c.tmrval + c.tmrper } := by
  obtain ⟨ccf, _, _, _, _, _, mode, _, _, _, _, _, _, _⟩ := c
  obtain rfl : ccf = true := hflag
  obtain rfl | rfl : mode = .timer ∨ mode = .pulse := hmode <;> rfl

/-- The PWM and the Unused arm do no register work (R124, R125). -/
theorem served_of_pwm_or_unused (hmode : c.mode = .pwm ∨ c.mode = .unused) : c.served = { c with ccf := false } := by
  obtain ⟨ccf, _, _, _, _, _, mode, _, _, _, _, _, _, _⟩ := c
  obtain rfl : ccf = true := hflag
  obtain rfl | rfl : mode = .pwm ∨ mode = .unused := hmode <;> rfl

/-- The Capture arm (R121). -/
theorem served_of_captured (hmode : c.mode = .capture) :
    c.served =
      { c with
        ccf := false, mode := c.disarmIfOneShot.mode, ccapm := c.disarmIfOneShot.ccapm
        capend := c.endSnapshot, capstart := c.startSnapshot, capovf := 0#8 } := by
  obtain ⟨ccf, _, _, _, _, _, mode, captureMode, _, _, _, _, _, _⟩ := c
  obtain rfl : ccf = true := hflag
  obtain rfl : mode = .capture := hmode
  cases captureMode <;> rfl

end

theorem disarmIfOneShot_of_oneShot {c : Channel} (h : c.captureMode = .oneShot) :
    c.disarmIfOneShot = { c with mode := .unused, ccapm := disarmedControl } := by
  unfold Channel.disarmIfOneShot
  split
  · rfl
  · next hcont => cases hcont.symm.trans h

theorem disarmIfOneShot_of_continuous {c : Channel} (h : c.captureMode = .continuous) : c.disarmIfOneShot = c := by
  unfold Channel.disarmIfOneShot
  rw [h]

/-! ### Which channels emit -/

theorem exists_mem_servedEvents {c : Channel} {n : ChanId} :
    (∃ e, e ∈ c.servedEvents n) ↔ c.ccf = true ∧ c.mode ≠ .unused := by
  rw [servedEvents_eq]
  split
  · next hemits => exact iff_of_true ⟨_, List.mem_singleton_self _⟩ hemits
  · next hsilent => exact iff_of_false (by simp) hsilent

/-- A channel has an event in a pass exactly when it exists, is flagged and is not Unused (R126). -/
theorem mem_callbacks_channel_iff {s : State} {n : ChanId} :
    n ∈ (callbacksOf .service s).map CallbackEvent.channel ↔
      s.cfg.hasChannel n = true ∧ (s.chan.get n).ccf = true ∧ (s.chan.get n).mode ≠ .unused := by
  have hemits {m : ChanId} (hm : s.cfg.hasChannel m = true) :
      (∃ e, e ∈ ((serveOverflow s).chan.get m).servedEvents m) ↔
        (s.chan.get m).ccf = true ∧ (s.chan.get m).mode ≠ .unused := by
    rw [serveOverflow_chan_present hm]
    exact exists_mem_servedEvents (c := s.counted m)
  rw [List.mem_map]
  constructor
  · rintro ⟨e, he, rfl⟩
    obtain ⟨m, hm, hem⟩ := List.mem_flatMap.1 he
    have hm := mem_channels.1 hm
    rw [channel_of_mem_servedEvents hem]
    exact ⟨hm, (hemits hm).1 ⟨e, hem⟩⟩
  · rintro ⟨hn, hactive⟩
    obtain ⟨e, he⟩ := (hemits hn).2 hactive
    exact ⟨e, List.mem_flatMap.2 ⟨n, mem_channels.2 hn, he⟩, channel_of_mem_servedEvents he⟩

/-- The events of a pass stand in the order of the scan, and an arm emits at most one (R126). -/
theorem callbacks_pairwise (s : State) : ((callbacksOf .service s).map CallbackEvent.channel).Pairwise (· < ·) := by
  rw [List.pairwise_map, callbacksOf, List.pairwise_flatMap]
  refine ⟨fun n _ => ?_, (channels_pairwise s.cfg).imp fun hlt x hx y hy => ?_⟩
  · rw [servedEvents_eq]
    split
    · exact List.pairwise_singleton _ _
    · exact List.Pairwise.nil
  · rwa [channel_of_mem_servedEvents hx, channel_of_mem_servedEvents hy]

/-- Settles O48: `callbacks_pairwise` and `mem_callbacks_channel_iff`. -/
theorem serviceCallbacksAscend : Obligations.ServiceCallbacksAscend :=
  fun s hirq => ⟨_, callbacksOf .service s, exec_service_of_irq hirq, takeInterrupt_cb s, callbacks_pairwise s,
    fun _ => mem_callbacks_channel_iff⟩

/-! ### The pass as one channel sees it -/

/-- SERVICE goes on, and serves an existing channel from the state step 1 left it in: its registers and, among the events of the
pass, its own (R118, R126). -/
theorem exec_service_chan {s : State} {n : ChanId} (hirq : irq s = true) (hn : s.cfg.hasChannel n = true) :
    ∃ t evs, exec .service s = .next t ∧ t.chan.get n = (s.counted n).served ∧ t.cb = s.cb ++ evs ∧
      (evs.filter fun e => e.channel = n) = (s.counted n).servedEvents n := by
  refine ⟨_, _, exec_service_of_irq hirq, ?_, takeInterrupt_cb s, ?_⟩
  · rw [takeInterrupt_chan, if_pos hn, serveOverflow_chan_present hn]
  · rw [filter_servedEvents hn, serveOverflow_chan_present hn]

/-- Settles O44: an unflagged channel is left as step 1 counted it. -/
theorem serviceCountsOneOverflowPerActiveChannel : Obligations.ServiceCountsOneOverflowPerActiveChannel := by
  intro s n hirq hn hflag
  obtain ⟨t, evs, h, hchan, hcb, hevs⟩ := exec_service_chan hirq hn
  have hclear : (s.counted n).ccf = false := hflag
  rw [servedEvents_of_clear n hclear, List.filter_eq_nil_iff] at hevs
  exact ⟨t, evs, h, hcb, fun e he heq => hevs e he (decide_eq_true heq), hchan.trans (served_of_clear hclear)⟩

/-- Settles O46: `served_of_timer` on the channel that step 1 left. -/
theorem serviceTimerArm : Obligations.ServiceTimerArm := by
  intro s n hirq hn hflag hmode
  obtain ⟨t, evs, h, hchan, hcb, hevs⟩ := exec_service_chan hirq hn
  have hactive : (s.chan.get n).mode ≠ .unused := by obtain hm | hm := hmode <;> simp [hm]
  rw [served_of_timer (c := s.counted n) hflag hmode, counted_of_active hactive] at hchan
  rw [servedEvents_of_zero (c := s.counted n) n hflag (hmode.imp_right .inl)] at hevs
  refine ⟨t, evs, h, ?_, ?_, ?_, hcb, hevs⟩
  all_goals rw [hchan]
  case refine_2 => exact setCcap_ccap (s.chan.get n) _
  all_goals rfl

/-- Settles O47: neither arm does register work, and the Unused one emits nothing. -/
theorem servicePwmAndUnusedArms : Obligations.ServicePwmAndUnusedArms := by
  intro s n hirq hn hflag
  obtain ⟨t, evs, h, hchan, hcb, hevs⟩ := exec_service_chan hirq hn
  refine ⟨fun hmode => ⟨t, evs, h, ?_, hcb, ?_⟩, fun hmode => ⟨t, evs, h, ?_, hcb, ?_⟩⟩
  · rw [hchan, served_of_pwm_or_unused (c := s.counted n) hflag (.inl hmode), counted_of_active (by simp [hmode])]
  · rw [hevs, servedEvents_of_zero (c := s.counted n) n hflag (.inr (.inr hmode))]
  · rw [hchan, served_of_pwm_or_unused (c := s.counted n) hflag (.inr hmode), counted_of_unused hmode]
  · rw [hevs, servedEvents_of_unused (c := s.counted n) n hmode]

/-! ### The Capture arm through the read port -/

/-- The compare pair of an existing channel as the read port shows it (R20, R42). -/
theorem ccap_toNat_eq_reg {s : State} {n : ChanId} (hn : s.cfg.hasChannel n = true) :
    (s.chan.get n).ccap.toNat = (reg s (chanIdx n 0x01)).toNat + 2 ^ 8 * (reg s (chanIdx n 0x02)).toNat := by
  rw [ccap_toNat, reg_present hn (by decide), reg_present hn (by decide), Nat.add_comm]
  rfl

/-- Settles O45: `served_of_captured` on the channel that step 1 left, read byte by byte. -/
theorem serviceCaptureArm : Obligations.ServiceCaptureArm := by
  intro s n ov hirq hn hflag hmode hov
  obtain ⟨t, evs, h, hchan, hcb, hevs⟩ := exec_service_chan hirq hn
  have hn' : t.cfg.hasChannel n = true := by rw [exec_cfg h, hn]
  have hovf : (s.counted n).capovf = ov := by
    rw [counted_of_active (by simp [hmode]), hov, reg_present hn (by decide)]
    rfl
  have hpair : (s.counted n).ccap = (s.chan.get n).ccap := rfl
  have hevents := (served_of_capture (c := s.counted n) n hflag hmode).2
  rw [served_of_captured (c := s.counted n) hflag hmode] at hchan
  obtain ⟨hstart, hend, -, -, -⟩ := multiByteRegistersAreLittleEndian t n hn'
  have hsnap : (t.chan.get n).capend = (s.counted n).endSnapshot := by rw [hchan]
  refine ⟨t, evs, h, ?_, ?_, ?_, fun hone => ?_, fun hcont => ?_, fun off hoff => ?_, ?_, ?_, hcb, ?_⟩
  · rw [hend, hsnap, endSnapshot_toNat, hovf, hpair, ccap_toNat_eq_reg hn, Nat.add_comm]
  · rw [hstart, hchan, ← ccap_toNat_eq_reg hn, ← hpair]
    exact startSnapshot_toNat _
  · rw [reg_present hn' (by decide), hchan]
    rfl
  · have hchmode : (0#4 ++ BitVec.ofBool CaptureMode.oneShot.bit ++ ChannelMode.unused.code : Byte) = 0x08#8 := by decide
    rw [disarmIfOneShot_of_oneShot (c := s.counted n) hone] at hchan
    constructor <;> rw [reg_present hn' (by decide), hchan]
    · exact show disarmedControl.byte = 0x00#8 by decide
    · rw [← hchmode, ← hone]
      rfl
  · rw [disarmIfOneShot_of_continuous (c := s.counted n) hcont] at hchan
    constructor <;> rw [reg_present hn' (by decide), reg_present hn (by decide), hchan] <;> rfl
  · have hkept : (t.chan.get n).byteAt off = (s.chan.get n).byteAt off := by
      rw [hchan]
      simp only [List.mem_cons, List.not_mem_nil, or_false] at hoff
      obtain rfl | rfl | rfl | rfl | rfl | rfl | rfl | rfl := hoff <;> rfl
    have hlt : off < 0x20 := by simp at hoff; omega
    rw [reg_present hn' hlt, reg_present hn hlt, hkept]
  · rw [hchan]
  · rw [hchan]
    rfl
  · rw [hevs, hevents, hend, hsnap, BitVec.ofNat_toNat, BitVec.setWidth_eq]
    rfl

end Sys2Proof.Machine
end

/-! PROOFS. The duration that a capture reports: the shifted count and its saturation, and the three ranges of a difference of
snapshots (R122, R129). -/
section
namespace Sys2Proof.Machine

/-- The duration as a number (R122): the shifted count, saturated when its byte 2 is not zero. -/
theorem durationOf_toNat (elapsed : BitVec 32) (sh : BitVec 5) :
    (durationOf elapsed sh).toNat =
      if elapsed.toNat / 2 ^ sh.toNat / 2 ^ 16 % 2 ^ 8 = 0 then elapsed.toNat / 2 ^ sh.toNat % 2 ^ 16 else 65535 := by
  have hshifted : (elapsed >>> sh.toNat).toNat = elapsed.toNat / 2 ^ sh.toNat := by
    rw [BitVec.toNat_ushiftRight, Nat.shiftRight_eq_div_pow]
  have hbyte2 : (elapsed >>> sh.toNat).extractLsb' 16 8 = 0#8 ↔ elapsed.toNat / 2 ^ sh.toNat / 2 ^ 16 % 2 ^ 8 = 0 := by
    rw [← BitVec.toNat_inj, BitVec.extractLsb'_toNat, hshifted, Nat.shiftRight_eq_div_pow]
    rfl
  simp only [durationOf, ne_eq, hbyte2, ite_not]
  split
  · rw [BitVec.extractLsb'_toNat, hshifted, Nat.shiftRight_zero]
  · rfl

/-- Settles O49: both clauses of `durationOf_toNat`. -/
theorem durationShiftsAndSaturates : Obligations.DurationShiftsAndSaturates := by
  intro elapsed sh
  have h := durationOf_toNat elapsed sh
  refine ⟨fun hbyte2 => BitVec.eq_of_toNat_eq ?_, fun hbyte2 => ?_⟩
  · rw [h, if_neg hbyte2]
    rfl
  · rw [h, if_pos hbyte2]

/-- A count below 2^24 reports its shifted value clamped to 65535 (R129 (b)). -/
theorem durationOf_of_lt {elapsed : BitVec 32} (h : elapsed.toNat < 2 ^ 24) (sh : BitVec 5) :
    (durationOf elapsed sh).toNat = min (elapsed.toNat / 2 ^ sh.toNat) 65535 := by
  have hle : elapsed.toNat / 2 ^ sh.toNat ≤ elapsed.toNat := Nat.div_le_self _ _
  rw [durationOf_toNat]
  generalize elapsed.toNat / 2 ^ sh.toNat = q at hle
  split <;> omega

/-- Shifting a count whose upper half is all ones: what is above bit 16 are the ones that remain (R129 (c)). -/
theorem div_pow_div_of_upper_ones {x : Nat} (hlow : 2 ^ 32 - 2 ^ 16 ≤ x) (hhigh : x < 2 ^ 32) (k : Nat) :
    x / 2 ^ k / 2 ^ 16 = 65535 / 2 ^ k := by
  have hupper : x / 2 ^ 16 = 65535 := by omega
  rw [Nat.div_div_eq_div_mul, Nat.mul_comm, ← Nat.div_div_eq_div_mul, hupper]

/-- Up to a shift of 15 one of those ones stands in byte 2 of the shifted count (R129 (c)). -/
theorem durationOf_of_upper_ones {elapsed : BitVec 32} (h : 2 ^ 32 - 2 ^ 16 ≤ elapsed.toNat) {sh : BitVec 5}
    (hsh : sh.toNat ≤ 15) : durationOf elapsed sh = 0xFFFF#16 := by
  have hones : ∀ k ≤ 15, 65535 / 2 ^ k % 2 ^ 8 ≠ 0 := by decide
  refine (durationShiftsAndSaturates elapsed sh).1 ?_
  rw [div_pow_div_of_upper_ones h elapsed.isLt]
  exact hones _ hsh

/-- From a shift of 16 on the shifted count is the ones that remain (R129 (d)). -/
theorem durationOf_of_upper_ones_of_ge {elapsed : BitVec 32} (h : 2 ^ 32 - 2 ^ 16 ≤ elapsed.toNat) {sh : BitVec 5}
    (hsh : 16 ≤ sh.toNat) : (durationOf elapsed sh).toNat = 2 ^ (32 - sh.toNat) - 1 := by
  have hlt := sh.isLt
  obtain ⟨j, hj⟩ := Nat.exists_eq_add_of_le hsh
  have hupper : elapsed.toNat / 2 ^ 16 = 65535 := by have := elapsed.isLt; omega
  have hones : ∀ j < 16, 65535 / 2 ^ j / 2 ^ 16 % 2 ^ 8 = 0 ∧ 65535 / 2 ^ j % 2 ^ 16 = 2 ^ (32 - (16 + j)) - 1 := by decide
  obtain ⟨hbyte2, hvalue⟩ := hones j (by omega)
  have hshifted : elapsed.toNat / 2 ^ sh.toNat = 65535 / 2 ^ j := by
    rw [hj, Nat.pow_add, ← Nat.div_div_eq_div_mul, hupper]
  rw [durationOf_toNat, hshifted, if_pos hbyte2, hvalue, hj]

/-- Settles O50: a difference that is not negative is below 2^24, a negative one has an upper half of ones. -/
theorem durationOfASnapshotDifference : Obligations.DurationOfASnapshotDifference := by
  intro e b sh he hb _
  have hnonneg (hle : b.toNat ≤ e.toNat) : (e - b).toNat = e.toNat - b.toNat := BitVec.toNat_sub_of_le hle
  have hnegative (hlt : e.toNat < b.toNat) : 2 ^ 32 - 2 ^ 16 ≤ (e - b).toNat := by
    rw [BitVec.toNat_sub]
    omega
  refine ⟨fun hle => ?_, fun hlt hsh => durationOf_of_upper_ones (hnegative hlt) hsh,
    fun hlt hsh => durationOf_of_upper_ones_of_ge (hnegative hlt) hsh⟩
  rw [durationOf_of_lt (by rw [hnonneg hle]; omega), hnonneg hle]

end Sys2Proof.Machine
end

/-! PROOFS. A measured capture interval under prompt service: the extended count of overflows and counter advances by exactly the
TICKs of the operations, so the captured edge reports them (R129, R146, R168). -/
section
namespace Sys2Proof.Machine

/-! ### The extended count -/

/-- The 24-bit count that an end snapshot of channel `n` is taken from: the overflows counted, the one still pending in `CF`, and
the counter (R121, R129 (a)). -/
def State.extendedCount (s : State) (n : ChanId) : Nat :=
  2 ^ 16 * ((s.chan.get n).capovf.toNat + s.cf.toNat) + s.cnt.toNat

/-- From `s` to `t` exactly `k` counts pass on the extended count of channel `n`, and nothing else that its interval depends on
changes. -/
structure CountsPass (n : ChanId) (k : Nat) (s t : State) : Prop where
  cfg : t.cfg = s.cfg
  run : t.cr = s.cr
  cmod : t.cmod = s.cmod
  chan : ∃ ovf, t.chan.get n = { s.chan.get n with capovf := ovf }
  count : t.extendedCount n = s.extendedCount n + k

section
variable {n : ChanId} {s t u : State}

theorem CountsPass.trans {j k : Nat} (h : CountsPass n j s t) (h' : CountsPass n k t u) : CountsPass n (j + k) s u where
  cfg := h'.cfg.trans h.cfg
  run := h'.run.trans h.run
  cmod := h'.cmod.trans h.cmod
  chan := by
    obtain ⟨_, ht⟩ := h.chan
    obtain ⟨ovf, hu⟩ := h'.chan
    exact ⟨ovf, by rw [hu, ht]⟩
  count := by rw [h'.count, h.count, Nat.add_assoc]

theorem CountsPass.refl : CountsPass n 0 s s := ⟨rfl, rfl, rfl, ⟨_, rfl⟩, rfl⟩

/-- A change of another channel passes no count. -/
theorem countsPass_setChan {m : ChanId} (hm : m ≠ n) (c : Channel) : CountsPass n 0 s (s.setChan m c) where
  cfg := rfl
  run := rfl
  cmod := rfl
  chan := ⟨_, setChan_chan_ne s c hm.symm⟩
  count := by rw [State.extendedCount, setChan_chan_ne s c hm.symm]; rfl

end

section
variable {n : ChanId} {e : EdgeSel} {sh : BitVec 5} {ticks : Nat} {s t : State}

theorem Measuring.extendedCount_eq (h : Measuring n e sh ticks s) :
    s.extendedCount n = (s.chan.get n).capstart.toNat + ticks :=
  h.counted

/-- An interval goes on over the counts that pass. -/
theorem Measuring.countsPass {k : Nat} (h : Measuring n e sh ticks s) (hpass : CountsPass n k s t) :
    Measuring n e sh (ticks + k) t := by
  obtain ⟨ovf, hchan⟩ := hpass.chan
  constructor
  case running => rw [hpass.run, h.running]
  case overflowEnabled => rw [hpass.cmod, h.overflowEnabled]
  case present => rw [hpass.cfg, h.present]
  case mode => rw [hchan]; exact h.mode
  case continuous => rw [hchan]; exact h.continuous
  case armed => rw [hchan]; exact h.armed
  case shift => rw [hchan]; exact h.shift
  case served => rw [hchan]; exact h.served
  case startTop => rw [hchan]; exact h.startTop
  case counted =>
    have hstart : (t.chan.get n).capstart = (s.chan.get n).capstart := by rw [hchan]
    rw [hstart, ← Nat.add_assoc, ← h.extendedCount_eq]
    exact hpass.count

/-- With the overflow interrupt enabled, `IRQ = 0` means that no overflow is pending (R131). -/
theorem Measuring.cf_of_irq_false (h : Measuring n e sh ticks s) (hirq : irq s = false) : s.cf = false := by
  by_contra hcf
  rw [Bool.not_eq_false] at hcf
  exact absurd (irq_eq_true.2 (.inl ⟨hcf, h.overflowEnabled⟩)) (Bool.eq_false_iff.1 hirq)

/-! ### TICK under prompt service -/

/-- One count with no overflow pending adds one to the extended count: at a wrap the counter's 65536 move into `CF` (R110). -/
theorem countOnce_countsPass (h : Measuring n e sh ticks s) (hcf : s.cf = false) : CountsPass n 1 s (countOnce s) := by
  have hecom : (s.chan.get n).ccapm.ecom = false := by rw [h.armed]; rfl
  have hchan : (countOnce s).chan.get n = s.chan.get n := by
    rw [countOnce_chan h.running, count_of_idle (.inl hecom), ite_self]
  refine ⟨countOnce_cfg s, countOnce_cr s, countOnce_cmod s, ⟨_, hchan⟩, ?_⟩
  rw [State.extendedCount, State.extendedCount, hchan, countOnce_cnt h.running, countOnce_cf h.running, hcf, wraps_add_one,
    Bool.false_or]
  by_cases hwrap : s.cnt = 0xFFFF#16
  · have hzero : (0xFFFF#16 + 1#16).toNat = 0 := by decide
    have hmax : (0xFFFF#16).toNat = 65535 := by decide
    rw [hwrap, decide_eq_true rfl, hzero, hmax, Bool.toNat_true, Bool.toNat_false]
    omega
  · have hsucc : (s.cnt + 1#16).toNat = s.cnt.toNat + 1 := by bv_omega
    rw [decide_eq_false hwrap, hsucc]
    omega

/-- A TICK word whose counts but the last leave `IRQ = 0` adds all its counts (R146). -/
theorem countTimes_countsPass (h : Measuring n e sh ticks s) (hcf : s.cf = false) {k : Nat} (hquiet : quietCounts k s) :
    CountsPass n k s (countTimes k s) := by
  induction k generalizing s ticks with
  | zero => exact .refl
  | succ k ih =>
    have hfirst := countOnce_countsPass h hcf
    cases k with
    | zero => exact hfirst
    | succ k =>
      obtain ⟨hirq, hrest⟩ := hquiet
      have hnext := h.countsPass hfirst
      have htotal := hfirst.trans (ih hnext (hnext.cf_of_irq_false hirq) hrest)
      rwa [Nat.add_comm] at htotal

/-! ### The other operations -/

/-- SERVICE moves a pending overflow from `CF` into `CAPOVF`, which has room below 256 wraps (R119). -/
theorem takeInterrupt_countsPass (h : Measuring n e sh ticks s) (hroom : s.extendedCount n < 2 ^ 24) :
    CountsPass n 0 s (takeInterrupt s) := by
  have hchan : (takeInterrupt s).chan.get n = s.counted n := by
    rw [takeInterrupt_chan, if_pos h.present, serveOverflow_chan_present h.present]
    exact served_of_clear h.served
  have hcnt : (takeInterrupt s).cnt = s.cnt := by rw [State.cnt, takeInterrupt_ch, takeInterrupt_cl]; rfl
  refine ⟨takeInterrupt_cfg s, takeInterrupt_cr s, takeInterrupt_cmod s, ⟨_, hchan⟩, ?_⟩
  rw [State.extendedCount, hchan, takeInterrupt_cf, hcnt, counted_of_active (by simp [h.mode])]
  unfold State.extendedCount at hroom ⊢
  cases hcf : s.cf with
  | false => rfl
  | true =>
    rw [hcf, Bool.toNat_true] at hroom
    have hovf : (s.chan.get n).capovf.toNat < 255 := by omega
    have hsucc : ((s.chan.get n).capovf + 1#8).toNat = (s.chan.get n).capovf.toNat + 1 := by bv_omega
    rw [if_pos rfl, hsucc, Bool.toNat_true, Bool.toNat_false]
    omega

/-- A channel armed for an edge selection captures the edges of the selection and no others (R77, R114). -/
theorem captures_eq_selects {c : Channel} (hctl : c.ccapm = captureControl e) (pol : Polarity) :
    c.captures pol = selects e pol := by
  unfold Channel.captures
  rw [hctl]
  cases pol <;> exact Bool.and_true _

/-- Under prompt service an operation that leaves the interval passes its own TICKs on it. -/
theorem exec_countsPass {i : Instr} (h : Measuring n e sh ticks s) (hleaves : leavesInterval n e i = true)
    (hprompt : irq s = true → i = .service) (hquiet : ∀ k, i = .tick k → quietCounts k.toNat s)
    (hroom : s.extendedCount n < 2 ^ 24) (hexec : exec i s = .next t) : CountsPass n (totalTicks [i]) s t := by
  cases i with
  | init => cases hleaves
  | startt0 freq =>
    obtain ⟨-, -, rfl⟩ := exec_startt0_eq_next.1 hexec
    rw [programTimer0_eq]
    exact ⟨rfl, rfl, rfl, ⟨_, rfl⟩, rfl⟩
  | startcap => cases hleaves
  | startpwm m =>
    obtain ⟨-, -, -, -, rfl⟩ := exec_startpwm_eq_next.1 hexec
    exact countsPass_setChan (of_decide_eq_true hleaves) _
  | setduty m =>
    obtain ⟨-, -, hpwm, -, rfl⟩ := exec_setduty_eq_next.1 hexec
    refine countsPass_setChan ?_ _
    rintro rfl
    cases hpwm.symm.trans h.mode
  | starttmr m =>
    obtain ⟨-, -, rfl⟩ := exec_starttmr_eq_next.1 hexec
    exact countsPass_setChan (of_decide_eq_true hleaves) _
  | tick k =>
    obtain rfl := exec_tick_eq_next.1 hexec
    have hirq : irq s = false := Bool.eq_false_iff.2 fun hirq => by cases hprompt hirq
    exact countTimes_countsPass h (h.cf_of_irq_false hirq) (hquiet k rfl)
  | edge m pol =>
    obtain ⟨-, rfl⟩ := exec_edge_eq_next.1 hexec
    by_cases hm : m = n
    · subst hm
      have hunselected : selects e pol = false := by simpa [leavesInterval] using hleaves
      rw [edge_of_not_captures ((captures_eq_selects h.armed pol).trans hunselected), setChan_self]
      exact .refl
    · exact countsPass_setChan hm _
  | service =>
    obtain ⟨-, rfl⟩ := exec_service_eq_next.1 hexec
    exact takeInterrupt_countsPass h hroom
  | rd =>
    obtain rfl := exec_rd_eq_next.1 hexec
    exact ⟨rfl, rfl, rfl, ⟨_, rfl⟩, rfl⟩

theorem totalTicks_cons (i : Instr) (is : List Instr) : totalTicks (i :: is) = totalTicks [i] + totalTicks is := by
  cases i <;> simp [totalTicks]

/-- Under prompt service a run of such operations passes exactly its TICKs, while the extended count stays below 256 wraps; what
follows the run is served promptly too (R168). -/
theorem runOps_countsPass {ops rest : List Instr} (h : Measuring n e sh ticks s)
    (hleaves : ∀ i ∈ ops, leavesInterval n e i = true) (hrun : runOps ops s = .next t) (hprompt : promptOps (ops ++ rest) s)
    (hroom : s.extendedCount n + totalTicks ops < 2 ^ 24) : CountsPass n (totalTicks ops) s t ∧ promptOps rest t := by
  induction ops generalizing s ticks with
  | nil =>
    cases hrun
    exact ⟨.refl, hprompt⟩
  | cons i is ih =>
    obtain ⟨u, hexec, hrun⟩ := runOps_cons_eq_next.1 hrun
    obtain ⟨hirq, hquiet, hnext⟩ := hprompt
    obtain ⟨hi, his⟩ := List.forall_mem_cons.1 hleaves
    rw [totalTicks_cons] at hroom ⊢
    have hfirst := exec_countsPass h hi hirq hquiet (by omega) hexec
    obtain ⟨hrest, hprompt⟩ := ih (h.countsPass hfirst) his hrun (hnext u hexec) (by rw [hfirst.count]; omega)
    exact ⟨hfirst.trans hrest, hprompt⟩

/-! ### The captured edge -/

/-- Channel `n` once it has captured the present counter value (R114). -/
def State.captured (s : State) (n : ChanId) : Channel :=
  { s.chan.get n with ccapl := s.cl, ccaph := s.ch, ccf := true }

/-- With no overflow pending the end snapshot is the extended count, so the TICKs of the interval are its distance from the start
snapshot (R121, R129 (a)). -/
theorem Measuring.captureDuration_captured (h : Measuring n e sh ticks s) (hcf : s.cf = false) :
    (s.captured n).captureDuration = durationOf (BitVec.ofNat 32 ticks) sh := by
  have hend : (s.captured n).endSnapshot = (s.chan.get n).capstart + BitVec.ofNat 32 ticks := by
    have hsnap : (s.captured n).endSnapshot.toNat = s.extendedCount n := by
      rw [endSnapshot_toNat, State.extendedCount, hcf]
      rfl
    apply BitVec.eq_of_toNat_eq
    rw [BitVec.toNat_add, BitVec.toNat_ofNat, Nat.add_mod_mod, ← h.extendedCount_eq, ← hsnap,
      Nat.mod_eq_of_lt (BitVec.isLt _)]
  have hstart : (s.captured n).capstart = (s.chan.get n).capstart := rfl
  have hshift : (s.captured n).shift = sh := h.shift
  rw [Channel.captureDuration, hend, hstart, hshift, BitVec.add_comm, BitVec.add_sub_cancel]

/-- A captured edge and the SERVICE after it report the TICKs of the interval, and the next interval begins at the edge (R114, R121,
R129 (a)). -/
theorem Measuring.edge_service {pol : Polarity} (h : Measuring n e sh ticks s) (hcf : s.cf = false)
    (hsel : selects e pol = true) :
    ∃ v w evs, exec (.edge n pol) s = .next v ∧ exec .service v = .next w ∧ w.cb = s.cb ++ evs ∧
      (evs.filter fun ev => ev.channel = n) = [{ channel := n, duration := durationOf (BitVec.ofNat 32 ticks) sh }] ∧
      Measuring n e sh 0 w := by
  have hedge := exec_edge_eq_next.2
    ⟨h.present, congrArg (s.setChan n) (edge_of_captures (captures_of_selects h.armed hsel) s.cl s.ch)⟩
  change _ = Host.Outcome.next (s.setChan n (s.captured n)) at hedge
  have hflag : (s.captured n).ccf = true := rfl
  have hmode : (s.captured n).mode = .capture := h.mode
  have henable : (s.captured n).ccapm.eccf = true := (congrArg Ccapm.eccf h.armed).trans rfl
  have hself := setChan_chan_self s n (s.captured n)
  have hirq : irq (s.setChan n (s.captured n)) = true :=
    irq_eq_true.2 (.inr ⟨n, h.present, by rw [hself, hflag], by rw [hself, henable]⟩)
  have hcounted : (s.setChan n (s.captured n)).counted n = s.captured n := by
    simp [State.counted, hcf]
  obtain ⟨w, evs, hservice, hchan, hcb, hevs⟩ := exec_service_chan hirq (n := n) h.present
  rw [hcounted, (served_of_capture n hflag hmode).2, h.captureDuration_captured hcf] at hevs
  rw [hcounted, served_of_captured hflag hmode, disarmIfOneShot_of_continuous (c := s.captured n) h.continuous] at hchan
  refine ⟨_, w, evs, hedge, hservice, hcb, hevs, ?_⟩
  obtain ⟨-, rfl⟩ := exec_service_eq_next.1 hservice
  have hstart : (s.captured n).startSnapshot.toNat = s.cnt.toNat := startSnapshot_toNat _
  constructor
  case running => rw [takeInterrupt_cr]; exact h.running
  case overflowEnabled => rw [takeInterrupt_cmod]; exact h.overflowEnabled
  case present => rw [takeInterrupt_cfg]; exact h.present
  case mode => rw [hchan]; exact h.mode
  case continuous => rw [hchan]; exact h.continuous
  case armed => rw [hchan]; exact h.armed
  case shift => rw [hchan]; exact h.shift
  case served => rw [hchan]
  case startTop => rw [hchan]; exact startSnapshot_lt _
  case counted =>
    have hcnt : (takeInterrupt (s.setChan n (s.captured n))).cnt = s.cnt := by
      rw [State.cnt, takeInterrupt_ch, takeInterrupt_cl]
      rfl
    rw [hchan, takeInterrupt_cf, hcnt, hstart]
    simp

end

/-- Settles O52: the extended count takes up the TICKs of the operations, and with the edge next no overflow is pending. -/
theorem promptCaptureReportsTheExactTicks : Obligations.PromptCaptureReportsTheExactTicks := by
  intro s u n e sh t0 ops pol h hsel hleaves hrun hprompt hroom
  obtain ⟨hpass, hirq, -⟩ := runOps_countsPass h hleaves hrun hprompt (by rw [h.extendedCount_eq]; exact hroom)
  have hu := h.countsPass hpass
  have hidle : irq u = false := Bool.eq_false_iff.2 fun hset => by cases hirq hset
  exact hu.edge_service (hu.cf_of_irq_false hidle) hsel

end Sys2Proof.Machine
end

/-! PROOFS. The request line as the bits of `CCON`, `CMOD` and every `CCAPM` show it (R131). -/
section
namespace Sys2Proof.Machine

/-- The overflow enable is the lowest bit of `CMOD` (R72). -/
theorem cmodByte_getLsbD_zero (r : Cmod) : r.byte.getLsbD 0 = r.ecf :=
  BitVec.getLsbD_concat_zero

/-- The channel's enable is the lowest bit of `CCAPM` (R73). -/
theorem ccapmByte_getLsbD_zero (r : Ccapm) : r.byte.getLsbD 0 = r.eccf :=
  BitVec.getLsbD_concat_zero

/-- The array's term of `IRQ`, by its bits of `CCON` and `CMOD` (R131). -/
theorem overflow_bits_iff (s : State) :
    ((reg s 0x00#8).getLsbD 7 = true ∧ (reg s 0x01#8).getLsbD 0 = true) ↔ s.cf = true ∧ s.cmod.ecf = true := by
  rw [(cconShowsTheFlags s).1, reg_cmod, cmodByte_getLsbD_zero]

/-- An existing channel's term of `IRQ`, by its bits of `CCON` and `CCAPM` (R131). -/
theorem request_bits_iff {s : State} {n : ChanId} (hn : s.cfg.hasChannel n = true) :
    ((reg s 0x00#8).getLsbD n.val = true ∧ (reg s (chanIdx n 0x00)).getLsbD 0 = true) ↔
      (s.chan.get n).ccf = true ∧ (s.chan.get n).ccapm.eccf = true := by
  have hccapm : reg s (chanIdx n 0x00) = (s.chan.get n).ccapm.byte := reg_present hn (by decide)
  rw [reg_ccon, cconByte_getLsbD, hn, Bool.true_and, hccapm, ccapmByte_getLsbD_zero]

/-- Settles O41: the fields behind the array's term and behind each existing channel's term are read off their register bits. -/
theorem irqIsTheOrOfTheEnabledFlags : Obligations.IrqIsTheOrOfTheEnabledFlags := by
  intro s
  rw [irq_eq_true, overflow_bits_iff]
  exact or_congr_right (exists_congr fun n => and_congr_right fun hn => (request_bits_iff hn).symm)

end Sys2Proof.Machine
end

/-! PROOFS. Before the first INIT: the other commands are refused, and TICK, EDGE and RD leave the reset state but for the answers
of the read port (R152, R153). -/
section
namespace Sys2Proof.Machine

theorem afterInit_of_not_inited {s : State} (h : s.inited = false) (k : Result) : afterInit s k = .refused .beforeInit :=
  require_of_false h _ _

/-- Settles O17: each of the five commands asks first whether an INIT has been issued. -/
theorem commandsBeforeInitAreRefused : Obligations.CommandsBeforeInitAreRefused := by
  intro i s hs hcommand hinit
  cases i with
  | init clk m v r => exact absurd rfl (hinit clk m v r)
  | startt0 => exact afterInit_of_not_inited hs _
  | startcap => exact afterInit_of_not_inited hs _
  | startpwm => exact afterInit_of_not_inited hs _
  | setduty => exact afterInit_of_not_inited hs _
  | starttmr => exact afterInit_of_not_inited hs _
  | tick => cases hcommand
  | edge => cases hcommand
  | service => cases hcommand
  | rd => cases hcommand

/-! ### The block at reset -/

/-- The operations that are no commands and have a meaning while `IRQ = 0`, on the channels of `c` (R152). -/
def InertOp (c : Config) (i : Instr) : Prop :=
  (∃ k, i = .tick k) ∨ (∃ n p, i = .edge n p ∧ c.hasChannel n = true) ∨ (∃ x, i = .rd x)

/-- The block as reset left it, after the read port has given `answers` (R152). -/
def resetAnswering (c : Config) (answers : List Byte) : State :=
  { State.resetWith c with rdOut := answers }

theorem InertOp.goesOn {i : Instr} {s : State} (hi : InertOp s.cfg i) : ∃ t, exec i s = .next t := by
  obtain ⟨k, rfl⟩ | ⟨n, p, rfl, hn⟩ | ⟨x, rfl⟩ := hi
  · exact ⟨_, exec_tick k s⟩
  · exact ⟨_, exec_edge_eq_next.2 ⟨hn, rfl⟩⟩
  · exact ⟨_, exec_rd x s⟩

theorem InertOp.isInit_eq_false {c : Config} {i : Instr} (hi : InertOp c i) : isInit i = false := by
  obtain ⟨k, rfl⟩ | ⟨n, p, rfl, -⟩ | ⟨x, rfl⟩ := hi <;> rfl

/-- No answer depends on the answers before it (R43). -/
theorem answersOf_resetAnswering (i : Instr) (c : Config) (answers : List Byte) :
    answersOf i (resetAnswering c answers) = answersOf i (State.resetWith c) := by
  cases i <;> rfl

/-- At reset such an operation adds its answers and changes nothing else (R152). -/
theorem exec_resetAnswering {c : Config} {i : Instr} (hi : InertOp c i) (answers : List Byte) :
    exec i (resetAnswering c answers) = .next (resetAnswering c (answers ++ answersOf i (State.resetWith c))) := by
  obtain ⟨t, h⟩ := InertOp.goesOn (s := resetAnswering c answers) hi
  obtain ⟨-, htrace, -, hrd, -⟩ := exec_besides h
  have hkept := exec_before_init h hi.isInit_eq_false rfl rfl
  have hfields : t = { ({ t with rdOut := [], trace := [] } : State) with rdOut := t.rdOut, trace := t.trace } := rfl
  rw [h, hfields, hkept, hrd, htrace, answersOf_resetAnswering]
  rfl

/-- A run of such operations from reset adds the answers of each (R152). -/
theorem runOps_resetAnswering {c : Config} {ops : List Instr} (hops : ∀ i ∈ ops, InertOp c i) (answers : List Byte) :
    runOps ops (resetAnswering c answers) =
      .next (resetAnswering c (answers ++ ops.flatMap fun i => answersOf i (State.resetWith c))) := by
  induction ops generalizing answers with
  | nil => simp
  | cons i is ih =>
    obtain ⟨hi, his⟩ := List.forall_mem_cons.1 hops
    rw [runOps_cons_next (exec_resetAnswering hi answers), ih his, List.append_assoc, List.flatMap_cons]

/-! ### The answers at reset -/

/-- A byte is its upper four bits and its four lowest bits. -/
theorem byte_eq_of_nibbles {v w : Byte} (hlow : ∀ n : Fin 4, v.getLsbD n.val = w.getLsbD n.val)
    (hhigh : v.extractLsb' 4 4 = w.extractLsb' 4 4) : v = w := by
  apply BitVec.eq_of_getLsbD_eq
  intro i hi
  by_cases h : i < 4
  · exact hlow ⟨i, h⟩
  · have hbit := congrArg (·.getLsbD (i - 4)) hhigh
    simpa [show i - 4 < 4 by omega, show 4 + (i - 4) = i by omega] using hbit

/-- The byte with the `PIN_RESET` bits of the existing channels is what `PINS` shows at reset (R38, R76). -/
theorem resetWith_pins {c : Config} {pins : Byte} (hlow : ∀ n : ChanId, pins.getLsbD n.val = (c.hasChannel n && c.pinReset.get n))
    (hhigh : pins.extractLsb' 4 4 = 0#4) : reg (State.resetWith c) 0x06#8 = pins := by
  obtain ⟨-, hpins, hzero, -⟩ := resetRegistersZero c
  exact byte_eq_of_nibbles (fun n => (hpins n).trans (hlow n).symm) (hzero.trans hhigh.symm)

theorem resetWith_answer {c : Config} {pins : Byte} (hpins : reg (State.resetWith c) 0x06#8 = pins) (x : Byte) :
    reg (State.resetWith c) x = if x = 0x06#8 then pins else 0x00#8 := by
  split
  · next hx => rw [hx, hpins]
  · next hx => exact resetWith_reg c hx

/-- Settles O9: `runOps_resetAnswering` from no answers, and the answers are the reset values of the registers read. -/
theorem blockIsInertUntilTheFirstCommand : Obligations.BlockIsInertUntilTheFirstCommand := by
  intro c ops pins hops hlow hhigh
  have hanswer := resetWith_answer (resetWith_pins hlow hhigh)
  have hirq (answers : List Byte) : irq (resetAnswering c answers) = false := resetWith_irq c
  refine ⟨_, runOps_resetAnswering hops [], congrArg (resetAnswering c) ?_, fun n => ?_, hirq _, require_of_false (hirq _) _ _⟩
  · rw [List.nil_append, List.filterMap_eq_flatMap_toList]
    congr 1
    funext i
    cases i with
    | rd x => exact congrArg (fun b => [b]) (hanswer x)
    | _ => rfl
  · exact congrArg Channel.mode (resetWith_chan c n)

end Sys2Proof.Machine
end

/-! PROOFS. Two captured edges before a SERVICE: the second overwrites the pair, and the one match is served once (R114, R121,
R157). -/
section
namespace Sys2Proof.Machine

/-- The pair of a channel that has just captured is the counter (R15, R20, R114). -/
theorem captured_ccap (s : State) (n : ChanId) : (s.captured n).ccap = s.cnt := rfl

/-- The overflow tracker leaves the pair (R119). -/
theorem counted_ccap (s : State) (n : ChanId) : (s.counted n).ccap = (s.chan.get n).ccap := rfl

/-- A captured edge leaves its channel as `captured` says (R114). -/
theorem exec_edge_of_captures {s : State} {n : ChanId} {pol : Polarity} (hn : s.cfg.hasChannel n = true)
    (hcap : (s.chan.get n).captures pol = true) : exec (.edge n pol) s = .next (s.setChan n (s.captured n)) :=
  exec_edge_eq_next.2 ⟨hn, congrArg (s.setChan n) (edge_of_captures hcap s.cl s.ch)⟩

/-- A TICK word takes the counter on by its operand, or nowhere while it is stopped (R110, R116). -/
theorem countTimes_cnt_eq_ite (s : State) (k : Half) : (countTimes k.toNat s).cnt = if s.cr then s.cnt + k else s.cnt := by
  cases hrun : s.cr with
  | false => rw [countTimes_stopped hrun, if_neg Bool.false_ne_true]
  | true => rw [countTimes_cnt hrun, BitVec.ofNat_toNat, BitVec.setWidth_eq, if_pos rfl]

/-- The SERVICE after a captured edge takes both snapshots from the captured count and emits one callback of the channel (R121). -/
theorem service_of_captured {s : State} {n : ChanId} (hn : s.cfg.hasChannel n = true) (hmode : (s.chan.get n).mode = .capture)
    (heccf : (s.chan.get n).ccapm.eccf = true) :
    ∃ u evs, exec .service (s.setChan n (s.captured n)) = .next u ∧
      (u.chan.get n).capend.toNat % 2 ^ 16 = s.cnt.toNat ∧ (u.chan.get n).capstart.toNat = s.cnt.toNat ∧
      u.cb = s.cb ++ evs ∧ (evs.filter fun e => e.channel = n).length = 1 := by
  have hself := setChan_chan_self s n (s.captured n)
  generalize ht : s.setChan n (s.captured n) = t at hself ⊢
  have hn' : t.cfg.hasChannel n = true := by rw [← ht]; exact hn
  have hcb' : t.cb = s.cb := by rw [← ht]; rfl
  have hflag : (t.counted n).ccf = true := congrArg Channel.ccf hself
  have hmode' : (t.counted n).mode = .capture := (congrArg Channel.mode hself).trans hmode
  have henable : (t.chan.get n).ccapm.eccf = true := (congrArg (·.ccapm.eccf) hself).trans heccf
  have hpair : (t.counted n).ccap = s.cnt := by rw [counted_ccap, hself, captured_ccap]
  obtain ⟨u, evs, hservice, hchan, hcb, hevs⟩ := exec_service_chan (irq_eq_true.2 (.inr ⟨n, hn', hflag, henable⟩)) hn'
  rw [(served_of_capture n hflag hmode').2] at hevs
  rw [served_of_captured hflag hmode'] at hchan
  refine ⟨u, evs, hservice, ?_, ?_, hcb.trans (by rw [hcb']), by rw [hevs]; rfl⟩
  · have hcount := s.cnt.isLt
    rw [hchan, endSnapshot_toNat, hpair, Nat.mul_add_mod, Nat.mod_eq_of_lt hcount]
  · rw [hchan, startSnapshot_toNat, hpair]

/-- Settles O40: the TICK between the edges leaves the channel armed, so the second edge captures the count it meets. -/
theorem secondCaptureOverwritesTheFirst : Obligations.SecondCaptureOverwritesTheFirst := by
  intro s n p q k hn hp hq hmode heccf
  have hfirst := exec_edge_of_captures hn hp
  have htick := exec_tick k (s.setChan n (s.captured n))
  obtain ⟨hcfg, -, -, hcb, -⟩ := countTimes_besides k.toNat (s.setChan n (s.captured n))
  obtain ⟨flag, pin, hchan, -⟩ := countTimes_chan k.toNat (s.setChan n (s.captured n)) n
  have hcnt := countTimes_cnt_eq_ite (s.setChan n (s.captured n)) k
  rw [setChan_chan_self] at hchan
  generalize countTimes k.toNat (s.setChan n (s.captured n)) = v at *
  have hn' : v.cfg.hasChannel n = true := by rw [hcfg]; exact hn
  have hsecond := exec_edge_of_captures (s := v) (pol := q) hn' (by rw [hchan]; exact hq)
  obtain ⟨u, evs, hservice, hend, hstart, hevs, hone⟩ :=
    service_of_captured hn' (by rw [hchan]; exact hmode) (by rw [hchan]; exact heccf)
  have hpair : ((v.setChan n (v.captured n)).chan.get n).ccap = v.cnt := by
    rw [setChan_chan_self, captured_ccap]
  refine ⟨_, u, evs, ?_, hservice, hpair.trans hcnt, by rw [hpair, hend], by rw [hpair, hstart], by rw [hevs, hcb]; rfl, hone⟩
  rw [runOps_cons_next hfirst, runOps_cons_next htick, runOps_cons_next hsecond, runOps_nil]

end Sys2Proof.Machine
end
